-- ==== Sys2Proof/Word.lean ====
section
/-! DEFINITION. The byte, the 32-bit operation word and the page size (00_scope.md rules R8, R10; 30_encoding.md rule R80). -/

namespace Sys2Proof

/-- A Byte of rule R10: an 8-bit unsigned value. -/
abbrev Byte := BitVec 8

/-- The operation word of rule R80. -/
abbrev Word := BitVec 32

/-- PAGE_SIZE of rule R8. -/
def pageSize : Nat := 64

end Sys2Proof
end

