-- ==== Sys2Proof/Config.lean ====
section
/-! DEFINITION. The implementation parameters of 00_scope.md rule R9 as one record of plain data, the free values that no
rule fixes (opaque, without a body), and the reference configuration of the reset state. -/

namespace Sys2Proof

/-- BACKEND (rule R3): one per instance, fixed when the instance is built. -/
inductive Backend where
  | parallel
  | i2c
  deriving DecidableEq, Repr

/-- An electrical level (rule R27). -/
inductive Level where
  | low
  | high
  deriving DecidableEq, Repr

/-- CLK_EDGE of rule R9; no rule depends on it (rule R153). -/
inductive ClkEdge where
  | rising
  | falling
  deriving DecidableEq, Repr

/-- The device's SDP latch (rule R60). -/
inductive Latch where
  | locked
  | unlocked
  deriving DecidableEq, Repr

/-- The parameters of rule R9, by the spec's names. PAGE_SIZE is the constant `pageSize`. -/
structure Config where
  /-- BACKEND. -/
  backend : Backend
  /-- CAPACITY, the device capacity in bytes (rule R57). -/
  capacity : Nat
  /-- CTR_BITS, the width of the hardware counter (rule R22). -/
  ctrBits : Nat
  /-- CLK_EDGE. -/
  clkEdge : ClkEdge
  /-- POL_CE, the active level of the line. -/
  polCe : Level
  /-- POL_OE. -/
  polOe : Level
  /-- POL_WE. -/
  polWe : Level
  /-- POL_CLK. -/
  polClk : Level
  /-- POL_RST. -/
  polRst : Level
  /-- SDP_PRESENT: the parallel backend has the SDP operations. -/
  sdpPresent : Bool
  /-- SDP_ENABLE_SEQ: six (offset, byte) pairs (rule R170). -/
  sdpEnableSeq : List (Nat × Byte)
  /-- SDP_DISABLE_SEQ: six (offset, byte) pairs. -/
  sdpDisableSeq : List (Nat × Byte)
  /-- DEV_ADDR7, the slave address (rule R194). -/
  devAddr7 : BitVec 7
  /-- BUS_SPEED; no rule depends on it. -/
  busSpeed : Nat
  /-- EXP_START (rule R193). -/
  expStart : Byte
  /-- EXP_REPSTART. -/
  expRepStart : Byte
  /-- EXP_SLAW_ACK. -/
  expSlaWAck : Byte
  /-- EXP_TX_ACK. -/
  expTxAck : Byte
  /-- EXP_SLAR_ACK. -/
  expSlaRAck : Byte
  /-- EXP_RX_ACK. -/
  expRxAck : Byte
  /-- EXP_RX_NACK. -/
  expRxNack : Byte
  /-- STATUS_MASK (rule R192). -/
  statusMask : Byte
  /-- WRITE_DELAY_INIT (rule R24). -/
  writeDelayInit : Nat
  /-- WRITE_DELAY_UNIT as a count of nanoseconds; no rule depends on it (rule R330). -/
  writeDelayUnit : Nat
  /-- WRITE_DELAY_OK as its least good delay, none where no delay is good: rule R310 makes the predicate monotone, and a
  monotone predicate on the naturals is exactly this. -/
  writeDelayMin : Option Nat
  /-- HOLD_OK (rule R311). -/
  holdOk : Bool
  /-- SDP_LATCH_INIT (rule R60). -/
  sdpLatchInit : Latch
  /-- DEV_SDP: the attached device has an SDP latch (rule R64). -/
  devSdp : Bool
  deriving DecidableEq, Repr

/-- draw() of rule R12, the n-th value drawn: chosen by no rule. -/
opaque Config.freeByte : Nat → Byte

/-- The raw status of the FREE bus oracle (rule R191) at the n-th draw: any byte. -/
opaque Config.freeStatus : Nat → Byte

/-- The unknown value of the hardware counter at a power-on (rules R22, R40), drawn at the n-th draw, before it is cut to
CTR_BITS. -/
opaque Config.powerOnHwctr : Nat → Nat

/-- The unknown value of the data bus output at a power-on (rule R20). -/
opaque Config.powerOnByte : Nat → Byte

/-- The unknown value of the I2C device's pointer at a power-on (rule R60), before it is cut to CAPACITY. -/
opaque Config.powerOnPtr : Nat → Nat

/-- The unknown address-high byte the I2C device holds at a power-on. -/
opaque Config.powerOnAddrHi : Nat → Byte

/-- The message of an `Error:` reply, OPEN by rule R251. DESIGN CHOICE (log 36): a free text of the parameters and the line. -/
opaque Config.errorText : Config → List Char → List Char

/-- The text that `dumphex` has sent, whose layout is OPEN (rule R246). DESIGN CHOICE (log 26): a free text of the counter the
dump started at, the count asked for, and the bytes. -/
opaque Config.hexDumpText : Option Nat → Nat → List Byte → List Char

/-- The text that `dumptext` has sent, whose layout is OPEN (rule R246). DESIGN CHOICE (log 26), as for `dumphex`. -/
opaque Config.textDumpText : Option Nat → Nat → List Byte → List Char

/-- The configuration of the reset state. DESIGN CHOICE (log 2): the spec fixes no part (rule R2). Backend, CAPACITY, CTR_BITS,
SDP_PRESENT, DEV_SDP, HOLD_OK and the least good delay are those of the test configuration TC-P of 95_test_vectors.md; the
polarities of CE, OE and WE, the disable sequence, the slave address, the codes and the mask are the general-knowledge example
values of rules R9, R174, R193 and R194. Every other value is the model's own: the spec leaves it OPEN without a default. The
ENABLE SEQUENCE is such a value: rules R9 and R174 give it no default, since the published command has three pairs; the model sends
those three pairs twice. The one statement about these values is that they meet the constraints and the invariant; every other
one holds for every configuration. -/
def Config.reference : Config where
  backend := .parallel
  capacity := 32768
  ctrBits := 15
  clkEdge := .rising
  polCe := .low
  polOe := .low
  polWe := .low
  polClk := .high
  polRst := .high
  sdpPresent := true
  sdpEnableSeq := [(0x5555, 0xAA), (0x2AAA, 0x55), (0x5555, 0xA0), (0x5555, 0xAA), (0x2AAA, 0x55), (0x5555, 0xA0)]
  sdpDisableSeq := [(0x5555, 0xAA), (0x2AAA, 0x55), (0x5555, 0x80), (0x5555, 0xAA), (0x2AAA, 0x55), (0x5555, 0x20)]
  devAddr7 := 0x50
  busSpeed := 100000
  expStart := 0x08
  expRepStart := 0x10
  expSlaWAck := 0x18
  expTxAck := 0x28
  expSlaRAck := 0x40
  expRxAck := 0x50
  expRxNack := 0x58
  statusMask := 0xF8
  writeDelayInit := 10
  writeDelayUnit := 1000000
  writeDelayMin := some 10
  holdOk := true
  sdpLatchInit := .unlocked
  devSdp := false

end Sys2Proof
end

