-- ==== Sys2Proof/Syntax.lean ====
section
/-! DEFINITION. The operations and micro-operations of spec/opcode_table.json, one constructor per row
(30_encoding.md rules R84, R86 and R87). -/

namespace Sys2Proof

/-- The role of an I_TX byte (30_encoding.md rule R82, bits 10:8); values 5 to 7 are reserved and have no name here. -/
inductive Role where
  | slaW
  | addrHi
  | addrLo
  | data
  | slaR
  deriving DecidableEq, Repr

/-- The instruction set: 13 caller operations, 6 parallel and 6 I2C micro-operations, and DELAY. -/
inductive Instr where
  /-- RESET, opcode 0x01, format N. -/
  | reset
  /-- ADVANCE n, opcode 0x02, format C. -/
  | advance (n : BitVec 24)
  /-- GETCOUNT, opcode 0x03, format N. -/
  | getcount
  /-- INIT, opcode 0x10, format N. -/
  | init
  /-- RESET_MEMORY, opcode 0x11, format N. -/
  | resetMemory
  /-- START_SEQ_READ, opcode 0x12, format N. -/
  | startSeqRead
  /-- NEXT_BYTE, opcode 0x13, format L: `last` is the is_last flag. -/
  | nextByte (last : Bool)
  /-- WRITE_BYTE v, opcode 0x14, format B. -/
  | writeByte (v : Byte)
  /-- WRITE_PAGE, opcode 0x15, format P: the operand block, byte 0 first. -/
  | writePage (page : List Byte)
  /-- LAST_FAILURE, opcode 0x16, format N. -/
  | lastFailure
  /-- SET_WRITE_DELAY d, opcode 0x17, format D. -/
  | setWriteDelay (d : BitVec 24)
  /-- SDP_ENABLE, opcode 0x18, format N. -/
  | sdpEnable
  /-- SDP_DISABLE, opcode 0x19, format N. -/
  | sdpDisable
  /-- P_IDLE, opcode 0x40, format N. -/
  | pIdle
  /-- P_CLK_PULSE, opcode 0x41, format N. -/
  | pClkPulse
  /-- P_RST_PULSE, opcode 0x42, format N. -/
  | pRstPulse
  /-- P_READ_STROBE, opcode 0x43, format N. -/
  | pReadStrobe
  /-- P_WRITE_STROBE v, opcode 0x44, format B. -/
  | pWriteStrobe (v : Byte)
  /-- P_SELECT, opcode 0x45, format L: `select` asserts CE. -/
  | pSelect (select : Bool)
  /-- I_START, opcode 0x60, format N. -/
  | iStart
  /-- I_REPSTART, opcode 0x61, format N. -/
  | iRepStart
  /-- I_STOP, opcode 0x62, format N. -/
  | iStop
  /-- I_TX role v, opcode 0x63, format T. -/
  | iTx (role : Role) (v : Byte)
  /-- I_RX_ACK, opcode 0x64, format N. -/
  | iRxAck
  /-- I_RX_NACK, opcode 0x65, format N. -/
  | iRxNack
  /-- DELAY d, opcode 0x70, format D. -/
  | delay (d : BitVec 24)
  deriving DecidableEq, Repr

end Sys2Proof
end

