-- ==== Sys2Proof/WellFormed.lean ====
section
/-! DEFINITION. Well-formedness of an instruction: the checks that its Lean type does not make (30_encoding.md rules R82, R92). -/

namespace Sys2Proof

/-- Every operand but the page buffer is bounded by its type. The page buffer is exactly 64 bytes (10_state.md rule R35). -/
def Instr.wellFormed : Instr → Bool
  | .writePage page => page.length == pageSize
  | .reset | .advance _ | .getcount | .init | .resetMemory | .startSeqRead | .nextByte _ | .writeByte _
  | .lastFailure | .setWriteDelay _ | .sdpEnable | .sdpDisable
  | .pIdle | .pClkPulse | .pRstPulse | .pReadStrobe | .pWriteStrobe _ | .pSelect _
  | .iStart | .iRepStart | .iStop | .iTx _ _ | .iRxAck | .iRxNack | .delay _ => true

end Sys2Proof
end

