-- ==== Sys2Proof/Decode.lean ====
section
/-! DEFINITION. The decoder, total on any bytes, and after it the encoder (30_encoding.md). -/

namespace Sys2Proof

/-- Why a request does not decode: INVALID(reason) of rule R91. -/
inductive Invalid where
  /-- No table lists the opcode (rule R89). -/
  | reservedOpcode
  /-- A bit that the format marks 0 is set (rules R81, R89). -/
  | reservedBits
  /-- The role of an I_TX is 5, 6 or 7 (rules R82, R89). -/
  | reservedRole
  /-- A WRITE_PAGE with fewer than 64 operand bytes (rule R91). -/
  | shortPage
  /-- Fewer than the four bytes of a word are left. The model's own (log 17): the spec speaks of whole words only. -/
  | truncated
  deriving DecidableEq, Repr

/-! ## Words, bytes and fields -/

/-- A word from its four bytes, most significant byte first (rule R80). -/
def wordOfBytes (b3 b2 b1 b0 : Byte) : Word := b3 ++ b2 ++ b1 ++ b0

/-- The four bytes of a word, most significant byte first (rule R80). -/
def bytesOfWord (w : Word) : List Byte :=
  [w.extractLsb' 24 8, w.extractLsb' 16 8, w.extractLsb' 8 8, w.extractLsb' 0 8]

/-- OP = w[31:24] (rule R80). -/
def opField (w : Word) : Byte := w.extractLsb' 24 8

/-- IMM = w[23:0] (rule R80), the operand of formats C and D. -/
def immField (w : Word) : BitVec 24 := w.extractLsb' 0 24

/-- v = w[7:0], the byte of formats B and T (rule R82). -/
def byteField (w : Word) : Byte := w.extractLsb' 0 8

/-- l = w[0], the flag of format L (rule R82). -/
def flagField (w : Word) : Bool := w.getLsbD 0

/-- role = w[10:8] of format T (rule R82). -/
def roleField (w : Word) : BitVec 3 := w.extractLsb' 8 3

/-- The roles of rule R82; 5 to 7 are reserved. -/
def roleOfBits (r : BitVec 3) : Option Role :=
  if r = 0 then some .slaW
  else if r = 1 then some .addrHi
  else if r = 2 then some .addrLo
  else if r = 3 then some .data
  else if r = 4 then some .slaR
  else none

/-- The value of a role's field (rule R82). -/
def bitsOfRole : Role → BitVec 3
  | .slaW => 0
  | .addrHi => 1
  | .addrLo => 2
  | .data => 3
  | .slaR => 4

/-! ## The formats of rule R81 -/

/-- Format N: no operand, bits 23:0 are zero. -/
def formatN (i : Instr) (w : Word) : Except Invalid Instr :=
  if immField w = 0 then .ok i else .error .reservedBits

/-- Formats C and D: a 24-bit operand. -/
def formatImm (mk : BitVec 24 → Instr) (w : Word) : Except Invalid Instr := .ok (mk (immField w))

/-- Format B: a byte, bits 23:8 are zero. -/
def formatB (mk : Byte → Instr) (w : Word) : Except Invalid Instr :=
  if w.extractLsb' 8 16 = 0 then .ok (mk (byteField w)) else .error .reservedBits

/-- Format L: a flag, bits 23:1 are zero. -/
def formatL (mk : Bool → Instr) (w : Word) : Except Invalid Instr :=
  if w.extractLsb' 1 23 = 0 then .ok (mk (flagField w)) else .error .reservedBits

/-- Format T: a role and a byte, bits 23:11 are zero. A word with both a reserved bit and a reserved role is reported for
the bit (log 18). -/
def formatT (w : Word) : Except Invalid Instr :=
  if w.extractLsb' 11 13 = 0 then
    match roleOfBits (roleField w) with
    | some r => .ok (.iTx r (byteField w))
    | none => .error .reservedRole
  else .error .reservedBits

/-! ## The decoder -/

/-- The opcode map of rules R84, R86 and R87 for the operations without an operand block; WRITE_PAGE (0x15) is read by
`decode`, which holds the bytes after the word. -/
def decodeWord (w : Word) : Except Invalid Instr :=
  match (opField w).toNat with
  | 0x01 => formatN .reset w
  | 0x02 => formatImm .advance w
  | 0x03 => formatN .getcount w
  | 0x10 => formatN .init w
  | 0x11 => formatN .resetMemory w
  | 0x12 => formatN .startSeqRead w
  | 0x13 => formatL .nextByte w
  | 0x14 => formatB .writeByte w
  | 0x16 => formatN .lastFailure w
  | 0x17 => formatImm .setWriteDelay w
  | 0x18 => formatN .sdpEnable w
  | 0x19 => formatN .sdpDisable w
  | 0x40 => formatN .pIdle w
  | 0x41 => formatN .pClkPulse w
  | 0x42 => formatN .pRstPulse w
  | 0x43 => formatN .pReadStrobe w
  | 0x44 => formatB .pWriteStrobe w
  | 0x45 => formatL .pSelect w
  | 0x60 => formatN .iStart w
  | 0x61 => formatN .iRepStart w
  | 0x62 => formatN .iStop w
  | 0x63 => formatT w
  | 0x64 => formatN .iRxAck w
  | 0x65 => formatN .iRxNack w
  | 0x70 => formatImm .delay w
  | _ => .error .reservedOpcode

/-- WRITE_PAGE's opcode (rule R84). -/
def opWritePage : Byte := 0x15

/-- Format P on the bytes after the word (rules R81, R91). DESIGN CHOICE (log 18): a word with both a reserved bit and a short
block is reported for the bit, since rule R91 gives the reasons no order. -/
def pageOfBlock (w : Word) (rest : List Byte) : Except Invalid Instr :=
  if immField w = 0 then
    if pageSize ≤ rest.length then .ok (.writePage (rest.take pageSize)) else .error .shortPage
  else .error .reservedBits

/-- A WRITE_PAGE request: the operand block belongs to it by its opcode alone (rule R92), so it is taken from the stream also
where the word is refused. A short block takes all that is left (log 17). -/
def decodePage (w : Word) (rest : List Byte) : Except Invalid Instr × List Byte := (pageOfBlock w rest, rest.drop pageSize)

/-- The decoder of rule R91 on the request stream: the instruction or the reason, and the bytes after the request. -/
def decode : List Byte → Except Invalid Instr × List Byte
  | b3 :: b2 :: b1 :: b0 :: rest =>
    let w := wordOfBytes b3 b2 b1 b0
    if opField w = opWritePage then decodePage w rest else (decodeWord w, rest)
  | _ => (.error .truncated, [])

/-- The micro-operation opcodes 0x40 to 0x7F (rule R88; log 16). -/
def isInternalOp (op : Byte) : Bool := 0x40 ≤ op.toNat && op.toNat ≤ 0x7F

/-- A request whose word is there and whose opcode is a micro-operation's. -/
def isInternalRequest : List Byte → Bool
  | b3 :: _ :: _ :: _ :: _ => isInternalOp b3
  | _ => false

/-! ## The encoder -/

/-- The opcode of each row (rules R84, R86, R87). -/
def Instr.opcode : Instr → Byte
  | .reset => 0x01
  | .advance _ => 0x02
  | .getcount => 0x03
  | .init => 0x10
  | .resetMemory => 0x11
  | .startSeqRead => 0x12
  | .nextByte _ => 0x13
  | .writeByte _ => 0x14
  | .writePage _ => 0x15
  | .lastFailure => 0x16
  | .setWriteDelay _ => 0x17
  | .sdpEnable => 0x18
  | .sdpDisable => 0x19
  | .pIdle => 0x40
  | .pClkPulse => 0x41
  | .pRstPulse => 0x42
  | .pReadStrobe => 0x43
  | .pWriteStrobe _ => 0x44
  | .pSelect _ => 0x45
  | .iStart => 0x60
  | .iRepStart => 0x61
  | .iStop => 0x62
  | .iTx _ _ => 0x63
  | .iRxAck => 0x64
  | .iRxNack => 0x65
  | .delay _ => 0x70

/-- The operand field of each row, laid out by its format (rule R81). -/
def Instr.imm : Instr → BitVec 24
  | .advance n => n
  | .setWriteDelay d => d
  | .delay d => d
  | .nextByte l => 0#23 ++ BitVec.ofBool l
  | .pSelect l => 0#23 ++ BitVec.ofBool l
  | .writeByte v => 0#16 ++ v
  | .pWriteStrobe v => 0#16 ++ v
  | .iTx role v => 0#13 ++ bitsOfRole role ++ v
  | .reset | .getcount | .init | .resetMemory | .startSeqRead | .writePage _ | .lastFailure | .sdpEnable | .sdpDisable
  | .pIdle | .pClkPulse | .pRstPulse | .pReadStrobe | .iStart | .iRepStart | .iStop | .iRxAck | .iRxNack => 0

/-- The operation word (rule R80). -/
def encodeWord (i : Instr) : Word := i.opcode ++ i.imm

/-- The operand block: WRITE_PAGE's page, nothing for the others (rule R80). -/
def Instr.block : Instr → List Byte
  | .writePage page => page
  | .reset | .advance _ | .getcount | .init | .resetMemory | .startSeqRead | .nextByte _ | .writeByte _
  | .lastFailure | .setWriteDelay _ | .sdpEnable | .sdpDisable
  | .pIdle | .pClkPulse | .pRstPulse | .pReadStrobe | .pWriteStrobe _ | .pSelect _
  | .iStart | .iRepStart | .iStop | .iTx _ _ | .iRxAck | .iRxNack | .delay _ => []

/-- A request written out as bytes: the word, most significant byte first, then the operand block (rule R80). -/
def encode (i : Instr) : List Byte := bytesOfWord (encodeWord i) ++ i.block

/-- A micro-operation, which only the block's own rules issue (rule R88). -/
def Instr.isMicro (i : Instr) : Bool := isInternalOp i.opcode

/-! ## A table row's bits -/

/-- The k-th 32-bit word of a bit string numbered as spec/opcode_table.json numbers it. -/
def tableWordAt (nbits w k : Nat) : Word := BitVec.ofNat 32 ((w % 2 ^ nbits) >>> (32 * k))

/-- The bytes of the instruction whose bits are w: the operation word, then for WRITE_PAGE the sixteen words of its operand
block (zero above nbits), each most significant byte first. -/
def tableBytes (nbits w : Nat) : List Byte :=
  let first := tableWordAt nbits w 0
  bytesOfWord first ++
    if opField first = opWritePage then
      ((List.range 16).map fun k => bytesOfWord (tableWordAt nbits w (k + 1))).flatten
    else []

/-- The instruction the decoder reads from a table row's bits. -/
def decodeTableWord (nbits w : Nat) : Option Instr :=
  match (decode (tableBytes nbits w)).1 with
  | .ok i => some i
  | .error _ => none

end Sys2Proof
end

