-- ==== Sys2Proof/Machine/State.lean ====
section
/-! DEFINITION. The machine's state as plain data (10_state.md rule R20, 20_memory.md rule R60), the reasons of a mark
(60_exceptions.md rules R280, R281), and the state after power-on (10_state.md rule R40). -/

namespace Sys2Proof.Machine

/-- FAULT(reason) of 60_exceptions.md rule R280. The spec gives each of these an effect (`mark` is set, nothing else changes),
so a meaning takes it as a next state with the reason in `mark`; no step answers Host.Outcome.fault (log 5). -/
inductive Fault where
  /-- FAULT_UNINIT: any operation but INIT, SET_WRITE_DELAY, LAST_FAILURE and GETCOUNT before INIT (rule R121). Safe. -/
  | uninit
  /-- FAULT_REINIT: INIT a second time (rule R121). Safe. -/
  | reinit
  /-- FAULT_COUNTER_UNSET: a use of the counter before the first RESET (rules R102, R104, R128 to R130, R158). Safe. -/
  | counterUnset
  /-- FAULT_OVERFLOW(c, n): an advance past CAPACITY or a device access at or above it (rule R103). Safe. -/
  | overflow (c n : Nat)
  /-- FAULT_BURST: an operation the burst state does not allow (rule R122). Safe. -/
  | burst
  deriving DecidableEq, Repr

/-- REFUSED(reason) of 60_exceptions.md rule R281, which a step takes as a next state with the reason in `mark` (log 5). -/
inductive Refusal where
  /-- An instruction without a meaning in exec: none is left. Safe. -/
  | notModelled (mnemonic : String)
  /-- REFUSE_INTERNAL: a caller's request with a micro-operation opcode (rule R88); raised by the step. Safe. -/
  | internal
  /-- REFUSE_RESERVED: a request that does not decode (rules R89, R91); raised by the step, and by a page of a wrong
  length. Safe. -/
  | reserved (reason : Invalid)
  /-- REFUSE_BACKEND: an SDP operation the configuration lacks (rule R90), or a micro-operation of the other backend
  (log 15). Safe. -/
  | backend
  /-- REFUSE_COMMAND: a command line without a meaning (rules R248 to R250); raised by the command layer. Safe. -/
  | command
  deriving DecidableEq, Repr

/-- `mark` (10_state.md rule R31). -/
inductive Mark where
  | none
  | fault (reason : Fault)
  | refused (reason : Refusal)
  deriving DecidableEq, Repr

/-- `phase` (rule R26). -/
inductive Phase where
  | uninit
  | ready
  deriving DecidableEq, Repr

/-- `burst` (rule R25): NONE or OPEN. -/
inductive Burst where
  | none
  | opened
  deriving DecidableEq, Repr

/-- The logical state of a control line (rule R27). -/
inductive LineState where
  | undriven
  | asserted
  | deasserted
  deriving DecidableEq, Repr

/-- The names of the five control lines (rule R27). -/
inductive LineName where
  | ce
  | oe
  | we
  | clk
  | rst
  deriving DecidableEq, Repr

/-- The five control lines of the parallel backend (rule R27). -/
structure Lines where
  ce : LineState
  oe : LineState
  we : LineState
  clk : LineState
  rst : LineState
  deriving DecidableEq, Repr

/-- `dbus_dir` (rule R28): the block reads the data bus or drives it. -/
inductive BusDir where
  | input
  | output
  deriving DecidableEq, Repr

/-- `bus` (rule R29): HELD between a START and the STOP that ends it. -/
inductive BusState where
  | idle
  | held
  deriving DecidableEq, Repr

/-- `txstate` (rule R29): the states of the I2C state machines. -/
inductive TxState where
  | idle
  | start
  | slaveAddrAck
  | hiAddrByteAck
  | loAddrByteAck
  | dataByteAck
  | repeatedStart
  | slaveAddrReadAck
  | dataByteNack
  | stop
  deriving DecidableEq, Repr

/-- A micro-operation event of the trace (rule R30): mnemonic, operand, and for an I2C step the code the bus returned and the
state that the step names (43_i2c_engine.md section 2; log 20). -/
inductive Event where
  | pIdle
  | pClkPulse
  | pRstPulse
  | pReadStrobe (b : Byte)
  | pWriteStrobe (v : Byte)
  | pSelect (l : Bool)
  | iStart (c : Byte) (named : TxState)
  | iRepStart (c : Byte) (named : TxState)
  /-- The state I_STOP enters is STOP, before IDLE (rules R87, R197). -/
  | iStop (named : TxState)
  | iTx (role : Role) (v : Byte) (c : Byte) (named : TxState)
  | iRxAck (b : Byte) (c : Byte) (named : TxState)
  | iRxNack (b : Byte) (c : Byte) (named : TxState)
  | delay (d : Nat)
  deriving DecidableEq, Repr

/-- What an operation or a micro-operation returns to its caller (rules R123, R156, R195 to R200). -/
inductive OpResult where
  /-- Nothing is returned: `return ()`. -/
  | unit
  /-- A Bool: START_SEQ_READ, WRITE_BYTE, WRITE_PAGE. -/
  | flag (ok : Bool)
  /-- A (Byte, Bool) pair: NEXT_BYTE. -/
  | byteFlag (b : Byte) (ok : Bool)
  /-- A Byte: LAST_FAILURE, P_READ_STROBE, and the code of an I2C step. -/
  | byte (b : Byte)
  /-- A natural number: GETCOUNT. -/
  | count (n : Nat)
  /-- A (byte, code) pair: I_RX_ACK, I_RX_NACK. -/
  | byteCode (b c : Byte)
  deriving DecidableEq, Repr

/-- Who issues a request (30_encoding.md rule R88): the caller, or the block's own operation rules. -/
inductive Issuer where
  | caller
  | block
  deriving DecidableEq, Repr

/-- The modes of the bus oracle (43_i2c_engine.md rule R191). -/
inductive OracleMode where
  /-- FREE: any byte. -/
  | free
  /-- COOPERATIVE: the expected status. -/
  | cooperative
  deriving DecidableEq, Repr

/-- The bus oracle as data (log 8): the answers of the next steps, `none` an expected status, and what follows them. -/
structure BusOracle where
  script : List (Option Byte)
  rest : OracleMode
  deriving DecidableEq, Repr

/-- The device's memory: address and byte, in the canonical form of `Memory.wf`. -/
abbrev Memory := List Host.Cell

/-- The external EEPROM agent (20_memory.md rule R60). -/
structure Device where
  /-- `mem`. -/
  mem : Memory
  /-- `pending`: the writes loaded and not yet committed, oldest first. -/
  pending : List Host.Cell
  /-- `busy`. -/
  busy : Bool
  /-- `ptr`: the I2C device's internal address pointer. -/
  ptr : Nat
  /-- `sdp_latch`. -/
  latch : Latch
  /-- The address-high byte of the frame in progress. The model's own (log 11): rule R65 forms `ptr` from two steps. -/
  addrHi : Byte
  deriving DecidableEq, Repr

/-- The state of the machine: the block (rule R20), the device (rule R60), and the model's own fields. -/
@[ext]
structure State where
  /-- The instance's parameters (rule R9). No step changes them (log 1). -/
  cfg : Config
  /-- The caller's operation stream as bytes (rules R16, R36, R80; log 3). -/
  stream : List Byte
  /-- Who issues the stream's requests (rule R88; log 4). -/
  origin : Issuer
  /-- `phase`. -/
  phase : Phase
  /-- `ctr`: unset or a natural number (rule R21). -/
  ctr : Option Nat
  /-- `hwctr`: the hardware counter, below 2^CTR_BITS (rule R22). -/
  hwctr : Nat
  /-- `status`: unset or a Byte (rule R23). -/
  status : Option Byte
  /-- `wdelay` (rule R24). -/
  wdelay : Nat
  /-- `burst`. -/
  burst : Burst
  /-- `line(L)`. -/
  lines : Lines
  /-- `dbus_dir`. -/
  dbusDir : BusDir
  /-- `dbus_out`. -/
  dbusOut : Byte
  /-- `bus`. -/
  bus : BusState
  /-- `txstate`. -/
  txstate : TxState
  /-- `trace`, oldest event first (rule R30). -/
  trace : List Event
  /-- `mark`. -/
  mark : Mark
  /-- What the last operation returned to its caller; `none` where it sent no reply (rules R13, R251; log 6). -/
  result : Option OpResult
  /-- The EEPROM agent. -/
  dev : Device
  /-- The bus oracle. -/
  oracle : BusOracle
  /-- How many free values have been drawn (log 7). -/
  draws : Nat
  deriving DecidableEq, Repr

/-- The device at power-on (rules R40, R60, R295, R304): its memory is its previous contents m; no pending write, not busy, the
latch as configured, the pointer unknown: the n-th draw. -/
def Device.powerOn (c : Config) (m : Memory) (n : Nat) : Device where
  mem := m
  pending := []
  busy := false
  ptr := Config.powerOnPtr n % c.capacity
  latch := c.sdpLatchInit
  addrHi := Config.powerOnAddrHi n

/-- The machine at power-on with the parameters c and the device's previous contents m (rules R40, R300). The unknown values are
the n-th draw (log 9). -/
def State.powerOn (c : Config) (m : Memory) (n : Nat) : State where
  cfg := c
  stream := []
  origin := .caller
  phase := .uninit
  ctr := none
  hwctr := Config.powerOnHwctr n % 2 ^ c.ctrBits
  status := none
  wdelay := c.writeDelayInit
  burst := .none
  lines := ⟨.undriven, .undriven, .undriven, .undriven, .undriven⟩
  dbusDir := .input
  dbusOut := Config.powerOnByte n
  bus := .idle
  txstate := .idle
  trace := []
  mark := .none
  result := none
  dev := Device.powerOn c m n
  oracle := ⟨[], .free⟩
  draws := n

/-- The machine right after reset: power-on of the reference configuration (log 2), its device listing nothing (log 10). -/
def State.reset : State := State.powerOn Config.reference [] 0

end Sys2Proof.Machine
end

