-- ==== Sys2Proof/Machine/Memory.lean ====
section
/-! DEFINITION. The EEPROM's memory as a list of cells in one canonical form: strictly rising addresses, no cell that holds
what an unlisted address reads as (20_memory.md rules R50, R60). -/

namespace Sys2Proof.Machine

/-- What an unlisted address reads as. DESIGN CHOICE, unsafe (log 10): the spec says "previous contents" (rule R60). -/
def unlistedByte : Byte := 0xFF

/-- The byte at an address (rule R50). -/
def memRead : Memory → Nat → Byte
  | [], _ => unlistedByte
  | c :: m, a => if c.1 = a then c.2 else memRead m a

/-- The memory without an address. -/
def memErase (m : Memory) (a : Nat) : Memory := m.filter fun c => c.1 != a

/-- A cell put at its place. -/
def memInsert : Memory → Host.Cell → Memory
  | [], x => [x]
  | c :: m, x => if x.1 < c.1 then x :: c :: m else c :: memInsert m x

/-- `mem[a] <- b`. -/
def memWrite (m : Memory) (a : Nat) (b : Byte) : Memory :=
  if b = unlistedByte then memErase m a else memInsert (memErase m a) (a, b)

/-- `mem[a] <- b` for each (a, b) in order. -/
def memWriteAll : Memory → List Host.Cell → Memory
  | m, [] => m
  | m, c :: cs => memWriteAll (memWrite m c.1 c.2) cs

/-- The canonical form. -/
def Memory.wf : Memory → Bool
  | [] => true
  | c :: m => c.2 != unlistedByte && m.all (fun d => decide (c.1 < d.1)) && Memory.wf m

end Sys2Proof.Machine
end

