-- ==== Sys2Proof/Machine/Ops.lean ====
section
/-! DEFINITION. The named operations over the state: one update per field, the line and trace primitives of
00_scope.md rule R12, the free values, and taking a fault or a refusal (60_exceptions.md rules R280, R281). -/

namespace Sys2Proof.Machine

/-- A step's answer. -/
abbrev Answer := Host.Outcome State Fault Refusal

/-! ## One update per field -/

def State.setStream (s : State) (v : List Byte) : State := { s with stream := v }
def State.setOrigin (s : State) (v : Issuer) : State := { s with origin := v }
def State.setPhase (s : State) (v : Phase) : State := { s with phase := v }
def State.setCtr (s : State) (v : Option Nat) : State := { s with ctr := v }
def State.setHwctr (s : State) (v : Nat) : State := { s with hwctr := v }
def State.setStatus (s : State) (v : Option Byte) : State := { s with status := v }
def State.setWdelay (s : State) (v : Nat) : State := { s with wdelay := v }
def State.setBurst (s : State) (v : Burst) : State := { s with burst := v }
def State.setLines (s : State) (v : Lines) : State := { s with lines := v }
def State.setDbusDir (s : State) (v : BusDir) : State := { s with dbusDir := v }
def State.setDbusOut (s : State) (v : Byte) : State := { s with dbusOut := v }
def State.setBus (s : State) (v : BusState) : State := { s with bus := v }
def State.setTxstate (s : State) (v : TxState) : State := { s with txstate := v }
def State.setTrace (s : State) (v : List Event) : State := { s with trace := v }
def State.setMark (s : State) (v : Mark) : State := { s with mark := v }
def State.setResult (s : State) (v : Option OpResult) : State := { s with result := v }
def State.setDev (s : State) (v : Device) : State := { s with dev := v }
def State.setOracle (s : State) (v : BusOracle) : State := { s with oracle := v }
def State.setDraws (s : State) (v : Nat) : State := { s with draws := v }

/-! ## Primitives -/

/-- `emit(e)` (rules R12, R30): append an event to the trace. -/
def State.emit (s : State) (e : Event) : State := s.setTrace (s.trace ++ [e])

/-- `draw()` (rule R12): a value chosen by no rule. -/
def draw (s : State) : Byte × State := (Config.freeByte s.draws, s.setDraws (s.draws + 1))

/-- `status <- draw()`, what a PARALLEL success writes (41_backend_contract.md rule R124). -/
def drawStatus (s : State) : State := (draw s).2.setStatus (some (draw s).1)

/-- `line(CE) <- v` (rules R12, R27). -/
def driveCe (v : LineState) (s : State) : State := s.setLines { s.lines with ce := v }
/-- `line(OE) <- v`. -/
def driveOe (v : LineState) (s : State) : State := s.setLines { s.lines with oe := v }
/-- `line(WE) <- v`. -/
def driveWe (v : LineState) (s : State) : State := s.setLines { s.lines with we := v }
/-- `line(CLK) <- v`. -/
def driveClk (v : LineState) (s : State) : State := s.setLines { s.lines with clk := v }
/-- `line(RST) <- v`. -/
def driveRst (v : LineState) (s : State) : State := s.setLines { s.lines with rst := v }

/-- Power off and on again (rules R295, R300): the device keeps its memory, everything else takes its power-on value, the
unknown ones drawn anew. It comes from outside and is no request, so no step takes it; the parameters and the bus, which are no
state of the block or the device, stay (log 37). -/
def State.powerCycle (s : State) : State := (State.powerOn s.cfg s.dev.mem (s.draws + 1)).setOracle s.oracle

/-! ## Results, faults and refusals -/

/-- `return v` (rule R12): the operation ends with a result to its caller. -/
def State.returns (s : State) (v : OpResult) : Answer := .next (s.setResult (some v))

/-- `fault F(info)` (60_exceptions.md rule R280): `mark <- FAULT(reason)`, nothing else changes, no reply is sent (log 5). -/
def takeFault (r : Fault) (s : State) : State := (s.setMark (.fault r)).setResult none

/-- `refuse R(info)` (60_exceptions.md rule R281): `mark <- REFUSED(reason)`, nothing else changes, no reply is sent. -/
def takeRefusal (r : Refusal) (s : State) : State := (s.setMark (.refused r)).setResult none

/-- An operation that faults. -/
def faults (r : Fault) (s : State) : Answer := .next (takeFault r s)

/-- An operation that is refused. -/
def refuses (r : Refusal) (s : State) : Answer := .next (takeRefusal r s)

end Sys2Proof.Machine
end

