-- ==== Sys2Proof/Machine/Operands.lean ====
section
/-! DEFINITION. What the operations compute from their operands, the counter and the parameters: address bytes, slave
address bytes, page alignment, ranges, electrical levels, and the constraints on the parameters. -/

namespace Sys2Proof.Machine

/-- The memory-address high byte, ctr[15:8] (20_memory.md rule R54). -/
def addrHiByte (c : Nat) : Byte := BitVec.ofNat 8 (c / 256)

/-- The memory-address low byte, ctr[7:0] (20_memory.md rule R54). -/
def addrLoByte (c : Nat) : Byte := BitVec.ofNat 8 c

/-- SLA_W_BYTE (43_i2c_engine.md rule R194): the seven address bits, then 0. -/
def slaWByte (c : Config) : Byte := c.devAddr7 ++ 0#1

/-- SLA_R_BYTE (43_i2c_engine.md rule R194): the seven address bits, then 1. -/
def slaRByte (c : Config) : Byte := c.devAddr7 ++ 1#1

/-- ctr AND (PAGE_SIZE - 1) = 0, the alignment test of rules R8, R56 and R125. -/
def pageAligned (c : Nat) : Bool := c &&& (pageSize - 1) == 0

/-- The page an address lies in. -/
def pageOf (a : Nat) : Nat := a / pageSize

/-- The next address within the same page (20_memory.md rule R65). -/
def nextInPage (a : Nat) : Nat := pageOf a * pageSize + (a + 1) % pageSize

/-- Every address of the list lies in one page (20_memory.md rule R64). -/
def inOnePage : List Host.Cell → Bool
  | [] => true
  | c :: cs => cs.all fun d => pageOf d.1 == pageOf c.1

/-- The n addresses from a base upward, the target range of 20_memory.md rule R68. -/
def addressRange (base n : Nat) : List Nat := (List.range n).map (base + ·)

/-- The offset that an SDP sequence's overflow fault records: one at or above the capacity (42_parallel_sequencer.md rule R170).
DESIGN CHOICE (log 34): where several are, the first in the sequence's order; the rule says "some (o, b) in seq". -/
def offsetBeyond (capacity : Nat) (seq : List (Nat × Byte)) : Option Nat :=
  (seq.find? fun p => decide (capacity ≤ p.1)).map (·.1)

/-- WRITE_DELAY_OK(d) (70_reset_and_hazards.md rule R310). -/
def writeDelayOk (c : Config) (d : Nat) : Bool :=
  match c.writeDelayMin with
  | some least => least ≤ d
  | none => false

/-- The level opposite to the active one. -/
def otherLevel : Level → Level
  | .low => .high
  | .high => .low

/-- The electrical level of a line with active level `pol` (rules R27, R153); an undriven line has none. -/
def electricalLevel (pol : Level) : LineState → Option Level
  | .undriven => none
  | .asserted => some pol
  | .deasserted => some (otherLevel pol)

/-- POL_L (rule R9). -/
def polarity (c : Config) : LineName → Level
  | .ce => c.polCe
  | .oe => c.polOe
  | .we => c.polWe
  | .clk => c.polClk
  | .rst => c.polRst

/-- `line(L)` (rule R20). -/
def lineState (l : Lines) : LineName → LineState
  | .ce => l.ce
  | .oe => l.oe
  | .we => l.we
  | .clk => l.clk
  | .rst => l.rst

/-- The electrical level of line L in a state (rules R27, R153): POL_L where it is asserted, the other level where it is
deasserted. -/
def lineLevel (s : State) (l : LineName) : Option Level := electricalLevel (polarity s.cfg l) (lineState s.lines l)

/-- The constraints on CAPACITY and CTR_BITS (20_memory.md rule R57). -/
def capacityOk (c : Config) : Bool :=
  c.capacity % pageSize == 0 && decide (pageSize ≤ c.capacity) &&
    match c.backend with
    | .parallel => decide (c.capacity ≤ 2 ^ c.ctrBits)
    | .i2c => decide (c.capacity ≤ 65536)

/-- The constraints on the expected codes and the mask (43_i2c_engine.md rule R192). -/
def statusCodesOk (c : Config) : Bool :=
  c.statusMask != 0xFF &&
    [c.expStart, c.expRepStart, c.expSlaWAck, c.expTxAck, c.expSlaRAck, c.expRxAck, c.expRxNack].all
      fun e => e &&& c.statusMask == e

/-- An SDP sequence is exactly six pairs (42_parallel_sequencer.md rule R170). DESIGN CHOICE (log 35): no offset is excluded, so a
last offset of 0 is admitted and the counter is 0 after such a sequence, as rules R170 and R171 give it; the sentence of rule R173
that the counter is not 0 then is set aside for it. -/
def sdpSequencesOk (c : Config) : Bool := c.sdpEnableSeq.length == 6 && c.sdpDisableSeq.length == 6

/-- The parameters meet every constraint the spec puts on them. -/
def configOk (c : Config) : Bool := capacityOk c && statusCodesOk c && sdpSequencesOk c

end Sys2Proof.Machine
end

