-- ==== Sys2Proof/Machine/Flags.lean ====
section
/-! DEFINITION. The status codes. The block has no flag register (10_state.md rule R34): what takes its place is the status
register, the sentinel 0xFF, the code of an I2C step and the expected code and state of each step (rules R192, R193). -/

namespace Sys2Proof.Machine

/-- The sentinel: the status of a failed page-alignment precondition (41_backend_contract.md rule R125). -/
def sentinel : Byte := 0xFF

/-- c = raw AND STATUS_MASK (43_i2c_engine.md rule R192). -/
def statusCode (c : Config) (raw : Byte) : Byte := raw &&& c.statusMask

/-- The code an I_TX expects, by role (43_i2c_engine.md rule R198). -/
def txExpected (c : Config) : Role → Byte
  | .slaW => c.expSlaWAck
  | .addrHi => c.expTxAck
  | .addrLo => c.expTxAck
  | .data => c.expTxAck
  | .slaR => c.expSlaRAck

/-- The state an I_TX names, by role (43_i2c_engine.md rule R198). -/
def txNamed : Role → TxState
  | .slaW => .slaveAddrAck
  | .addrHi => .hiAddrByteAck
  | .addrLo => .loAddrByteAck
  | .data => .dataByteAck
  | .slaR => .slaveAddrReadAck

/-- The raw status the bus oracle answers to a step that expects `exp` (43_i2c_engine.md rule R191; log 8). -/
def busStatus (exp : Byte) (s : State) : Byte × State :=
  match s.oracle.script with
  | some raw :: l => (raw, s.setOracle { s.oracle with script := l })
  | none :: l => (exp, s.setOracle { s.oracle with script := l })
  | [] =>
    match s.oracle.rest with
    | .cooperative => (exp, s)
    | .free => (Config.freeStatus s.draws, s.setDraws (s.draws + 1))

/-- `c <- busStatus(step) AND STATUS_MASK`, and `txstate` set to the state the step names when c is the expected code
(43_i2c_engine.md section 2). -/
def busStep (exp : Byte) (named : TxState) (s : State) : Byte × State :=
  let p := busStatus exp s
  let c := statusCode s.cfg p.1
  (c, if c = exp then p.2.setTxstate named else p.2)

end Sys2Proof.Machine
end

