-- ==== Sys2Proof/Machine/Device.lean ====
section
/-! DEFINITION. The external EEPROM agent: how it reacts to the block's micro-operations (20_memory.md rules R60 to R68). -/

namespace Sys2Proof.Machine

/-! ## Parts of the device -/

def State.setMem (s : State) (m : Memory) : State := s.setDev { s.dev with mem := m }
def State.setPending (s : State) (p : List Host.Cell) : State := s.setDev { s.dev with pending := p }
def State.setBusy (s : State) (b : Bool) : State := s.setDev { s.dev with busy := b }
def State.setPtr (s : State) (a : Nat) : State := s.setDev { s.dev with ptr := a }
def State.setLatch (s : State) (l : Latch) : State := s.setDev { s.dev with latch := l }
def State.setAddrHi (s : State) (b : Byte) : State := s.setDev { s.dev with addrHi := b }

/-- The device does not answer with its memory: a write cycle runs or writes are pending (rules R61, R67). -/
def devOccupied (s : State) : Bool := s.dev.busy || !s.dev.pending.isEmpty

/-- `mem[a] <- draw()`. -/
def spoil (a : Nat) (s : State) : State :=
  let p := draw s
  p.2.setMem (memWrite p.2.dev.mem a p.1)

/-- `mem[a] <- draw()` for each address, in order. -/
def spoilAll : List Nat → State → State
  | [], s => s
  | a :: l, s => spoilAll l (spoil a s)

/-- Append a write to `pending`. -/
def load (a : Nat) (b : Byte) (s : State) : State := s.setPending (s.dev.pending ++ [(a, b)])

/-! ## The parallel side -/

/-- The address the parallel device sees: hwctr mod CAPACITY (10_state.md rule R22). -/
def parallelAddress (s : State) : Nat := s.hwctr % s.cfg.capacity

/-- `DevRead(a)` on the parallel bus (rule R61). -/
def devRead (a : Nat) (s : State) : Byte × State :=
  if devOccupied s || !s.cfg.holdOk then draw s else (memRead s.dev.mem a, s)

/-- `DevWrite(a, b)`, the write strobe seen by the device (rule R62). -/
def devWrite (a : Nat) (b : Byte) (s : State) : State :=
  if s.dev.busy then spoil a s
  else if s.cfg.holdOk then load a b s
  else load a (draw s).1 (draw s).2

/-- The committed list on PARALLEL (rule R64). The latch locks only where the device has one (log 13). -/
def commitParallel (s : State) : State :=
  let p := s.dev.pending
  if s.cfg.devSdp && p == s.cfg.sdpEnableSeq then spoilAll (p.map (·.1)) (s.setLatch .locked)
  else if s.cfg.devSdp && p == s.cfg.sdpDisableSeq then spoilAll (p.map (·.1)) (s.setLatch .unlocked)
  else if s.cfg.devSdp && s.dev.latch == .locked then s
  else if inOnePage p then s.setMem (memWriteAll s.dev.mem p)
  else spoilAll (p.map (·.1)) s

/-- The committed list on I2C (rule R65): `mem[a] <- b` for each write, in order. -/
def commitI2c (s : State) : State := s.setMem (memWriteAll s.dev.mem s.dev.pending)

/-- The device commits `pending` (rule R63). -/
def commit (s : State) : State :=
  match s.cfg.backend with
  | .parallel => commitParallel s
  | .i2c => commitI2c s

/-- A DELAY of d units seen by the device (rule R63). -/
def devDelay (d : Nat) (s : State) : State :=
  if devOccupied s then
    if writeDelayOk s.cfg d then ((commit s).setPending []).setBusy false
    else ((spoilAll (s.dev.pending.map (·.1)) s).setPending []).setBusy true
  else s

/-! ## The I2C side -/

/-- An acknowledged byte of a frame seen by the device: the address-high byte is kept, the address-low step sets
`ptr <- (hi << 8 | lo) mod CAPACITY` (rules R65, R66). -/
def devFrameByte (role : Role) (v : Byte) (s : State) : State :=
  match role with
  | .addrHi => s.setAddrHi v
  | .addrLo => s.setPtr ((s.dev.addrHi.toNat * 256 + v.toNat) % s.cfg.capacity)
  | .slaW => s
  | .data => s
  | .slaR => s

/-- `ptr` steps to the next address within the same page (rule R65). -/
def stepInPage (s : State) : State := s.setPtr (nextInPage s.dev.ptr)

/-- A data byte arrives (rule R65). A busy device spoils `mem[ptr]`, keeps nothing and steps, whatever the answer (log 32). An
idle one loads the byte and steps when it acknowledges. -/
def devDataByte (v : Byte) (acked : Bool) (s : State) : State :=
  if s.dev.busy then stepInPage (spoil s.dev.ptr s)
  else if acked then stepInPage (load s.dev.ptr v s)
  else s

/-- A byte of role `role` seen by the device (rules R65, R66). -/
def devTx (role : Role) (v : Byte) (acked : Bool) (s : State) : State :=
  match role with
  | .data => devDataByte v acked s
  | .slaW => if acked then devFrameByte .slaW v s else s
  | .addrHi => if acked then devFrameByte .addrHi v s else s
  | .addrLo => if acked then devFrameByte .addrLo v s else s
  | .slaR => if acked then devFrameByte .slaR v s else s

/-- `ptr` one further, with the wrap of rule R78. -/
def stepPtr (s : State) : State := s.setPtr ((s.dev.ptr + 1) % s.cfg.capacity)

/-- A read step seen by the device (rules R59, R67): its byte, and `ptr` one further whatever the step's status, which comes from
the bus and not from the device. -/
def devReadNext (s : State) : Byte × State :=
  if devOccupied s then draw (stepPtr s) else (memRead s.dev.mem s.dev.ptr, stepPtr s)

/-- A STOP seen by the device: it starts the write cycle of a transaction that loaded data (rule R65; log 24). -/
def devStop (s : State) : State := if s.dev.pending.isEmpty then s else s.setBusy true

/-- A write aborted after its address-low step (rule R68): the target range is spoiled, nothing of it stays pending, and the
device is busy. -/
def devAbort (target : List Nat) (s : State) : State := ((spoilAll target s).setPending []).setBusy true

end Sys2Proof.Machine
end

