-- ==== Sys2Proof/Machine/Parallel.lean ====
section
/-! DEFINITION. The parallel GPIO sequencer (42_parallel_sequencer.md): its micro-operations, the DELAY both backends share,
the contract bodies and the SDP sequences. A hold is a busy-wait without an effect on the state (rule R153). -/

namespace Sys2Proof.Machine

/-! ## Micro-operations -/

/-- P_RST_PULSE (rule R151). -/
def pRstPulse (s : State) : State :=
  ((driveRst .deasserted (driveRst .asserted s)).setHwctr 0).emit .pRstPulse

/-- P_CLK_PULSE (rule R152). -/
def pClkPulse (s : State) : State :=
  ((driveClk .deasserted (driveClk .asserted s)).setHwctr ((s.hwctr + 1) % 2 ^ s.cfg.ctrBits)).emit .pClkPulse

/-- `repeat n times: P_CLK_PULSE`. -/
def clkPulses : Nat → State → State
  | 0, s => s
  | n + 1, s => clkPulses n (pClkPulse s)

/-- P_IDLE (rule R154). -/
def pIdle (s : State) : State :=
  ((driveRst .deasserted (driveClk .deasserted (driveCe .deasserted (driveWe .deasserted (driveOe .deasserted s))))).setDbusDir
    .input).emit .pIdle

/-- P_SELECT l (rule R155). -/
def pSelect (l : Bool) (s : State) : State :=
  (if l then driveCe .asserted ((driveWe .deasserted s).setDbusDir .input)
   else driveCe .deasserted (driveOe .deasserted s)).emit (.pSelect l)

/-- The device drives the data bus and the block reads it (rules R28, R61): CE and OE asserted, with the entry invariant of
rule R156 that WE is deasserted and the bus an input. -/
def deviceDrivesBus (s : State) : Bool :=
  s.lines.ce == .asserted && s.lines.oe == .asserted && s.lines.we == .deasserted && s.dbusDir == .input

/-- `dbus_in` (rules R28, R61): the device's byte, or no stated value where the device does not drive the bus (log 21). -/
def sampleDbus (s : State) : Byte × State :=
  if deviceDrivesBus s then devRead (parallelAddress s) s else draw s

/-- P_READ_STROBE (rule R156). -/
def pReadStrobe (s : State) : Byte × State :=
  let p := sampleDbus (driveOe .asserted s)
  (p.1, (driveOe .deasserted p.2).emit (.pReadStrobe p.1))

/-- P_WRITE_STROBE v (rule R157), in its order: OE off, bus out, CE on, WE on, WE off (the device latches), CE off, bus in. -/
def pWriteStrobe (v : Byte) (s : State) : State :=
  let onBus := ((driveOe .deasserted s).setDbusDir .output).setDbusOut v
  let strobed := driveWe .deasserted (driveWe .asserted (driveCe .asserted onBus))
  let latched := devWrite (parallelAddress strobed) strobed.dbusOut strobed
  ((driveCe .deasserted latched).setDbusDir .input).emit (.pWriteStrobe v)

/-- DELAY d (41_backend_contract.md rule R138): the block changes nothing; the device's side is rule R63. -/
def delay (d : Nat) (s : State) : State := (devDelay d s).emit (.delay d)

/-! ## Contract bodies -/

/-- init (rule R150): pin directions, then every line idle. -/
def initParallel (s : State) : State := pIdle s

/-- start_sequential_read (rule R159). -/
def startSeqReadParallel (s : State) : Bool × State := (true, drawStatus (pSelect true s))

/-- next_byte after its counter checks (rule R158). -/
def nextByteParallel (last : Bool) (s : State) : Byte × Bool × State :=
  let p := pReadStrobe s
  (p.1, true, drawStatus (if last then pSelect false p.2 else p.2))

/-- reset_memory (rule R160). -/
def resetMemoryParallel (s : State) : State := pIdle s

/-- write_byte (rule R161). -/
def writeByteParallel (v : Byte) (s : State) : Bool × State :=
  (true, drawStatus (delay s.wdelay (pWriteStrobe v s)))

/-- `ctr <- ctr + 1`, the per-byte advance of a page write (rules R162, R207). -/
def bumpCtr (s : State) : State := s.setCtr (s.ctr.map (· + 1))

/-- The byte loop of write_page: strobe, pulse, count (rule R162). -/
def strobePage : List Byte → State → State
  | [], s => s
  | b :: l, s => strobePage l (bumpCtr (pClkPulse (pWriteStrobe b s)))

/-- write_page (rule R162). -/
def writePageParallel (page : List Byte) (s : State) : Bool × State :=
  (true, drawStatus (delay s.wdelay (strobePage page s)))

/-! ## Software data protection -/

/-- The (reset, advance, write) steps of an SDP sequence (rule R170). -/
def sdpSteps : List (Nat × Byte) → State → State
  | [], s => s
  | (o, b) :: l, s => sdpSteps l (pWriteStrobe b ((clkPulses o ((pRstPulse s).setCtr (some 0))).setCtr (some o)))

/-- The configuration has the SDP operations (30_encoding.md rule R90). -/
def sdpAvailable (c : Config) : Bool := c.backend == .parallel && c.sdpPresent

/-- SDP_RUN(seq) (rule R170) behind the availability check of 30_encoding.md rule R90, which comes first by
60_exceptions.md rule R285. -/
def sdpRun (seq : List (Nat × Byte)) (s : State) : Answer :=
  if !sdpAvailable s.cfg then refuses .backend s
  else if s.phase = .uninit then faults .uninit s
  else if s.burst = .opened then faults .burst s
  else match offsetBeyond s.cfg.capacity seq with
    | some o => faults (.overflow 0 o) s
    | none => (delay s.wdelay (sdpSteps seq s)).returns .unit

/-! ## Meanings -/

/-- A parallel micro-operation: refused on the other backend (log 15). -/
def onParallel (s : State) (a : Answer) : Answer :=
  match s.cfg.backend with
  | .parallel => a
  | .i2c => refuses .backend s

/-- P_IDLE. -/
def execPIdle (s : State) : Answer := onParallel s ((pIdle s).returns .unit)

/-- P_CLK_PULSE. -/
def execPClkPulse (s : State) : Answer := onParallel s ((pClkPulse s).returns .unit)

/-- P_RST_PULSE. -/
def execPRstPulse (s : State) : Answer := onParallel s ((pRstPulse s).returns .unit)

/-- P_READ_STROBE: `return b`. -/
def execPReadStrobe (s : State) : Answer := onParallel s ((pReadStrobe s).2.returns (.byte (pReadStrobe s).1))

/-- P_WRITE_STROBE v. -/
def execPWriteStrobe (v : Byte) (s : State) : Answer := onParallel s ((pWriteStrobe v s).returns .unit)

/-- P_SELECT l. -/
def execPSelect (l : Bool) (s : State) : Answer := onParallel s ((pSelect l s).returns .unit)

/-- DELAY d, on both backends. -/
def execDelay (d : BitVec 24) (s : State) : Answer := (delay d.toNat s).returns .unit

/-- SDP_ENABLE (rule R171). -/
def execSdpEnable (s : State) : Answer := sdpRun s.cfg.sdpEnableSeq s

/-- SDP_DISABLE (rule R172). -/
def execSdpDisable (s : State) : Answer := sdpRun s.cfg.sdpDisableSeq s

end Sys2Proof.Machine
end

