-- ==== Sys2Proof/Machine/I2c.lean ====
section
/-! DEFINITION. The I2C master engine (43_i2c_engine.md): its micro-operations, the step, frame and abort helpers, and the
contract bodies. The entry comments of the micro-operations are not checked (log 14). -/

namespace Sys2Proof.Machine

/-! ## Micro-operations -/

/-- I_START (rule R195): the code. -/
def iStart (s : State) : Byte × State :=
  let p := busStep s.cfg.expStart .start (s.setBus .held)
  (p.1, p.2.emit (.iStart p.1 .start))

/-- I_REPSTART (rule R196): the code. -/
def iRepStart (s : State) : Byte × State :=
  let p := busStep s.cfg.expRepStart .repeatedStart s
  (p.1, p.2.emit (.iRepStart p.1 .repeatedStart))

/-- I_STOP (rule R197): txstate STOP, bus IDLE, txstate IDLE. Its event holds STOP, the state it enters first (rule R87). -/
def iStop (s : State) : State :=
  ((((devStop s).setTxstate .stop).setBus .idle).setTxstate .idle).emit (.iStop .stop)

/-- I_TX role v (rule R198): the code. -/
def iTx (role : Role) (v : Byte) (s : State) : Byte × State :=
  let p := busStep (txExpected s.cfg role) (txNamed role) s
  let t := devTx role v (p.1 == txExpected s.cfg role) p.2
  (p.1, t.emit (.iTx role v p.1 (txNamed role)))

/-- The byte of a read step: the device's where the code matched, a draw where it did not (rules R191, R199, R200); the device
steps its pointer either way (rule R67). -/
def rxByte (matched : Bool) (s : State) : Byte × State := if matched then devReadNext s else draw (stepPtr s)

/-- I_RX_ACK (rule R199): the byte and the code. -/
def iRxAck (s : State) : Byte × Byte × State :=
  let p := busStep s.cfg.expRxAck .dataByteAck s
  let q := rxByte (p.1 == s.cfg.expRxAck) p.2
  (q.1, p.1, q.2.emit (.iRxAck q.1 p.1 .dataByteAck))

/-- I_RX_NACK (rule R200): the byte and the code. -/
def iRxNack (s : State) : Byte × Byte × State :=
  let p := busStep s.cfg.expRxNack .dataByteNack s
  let q := rxByte (p.1 == s.cfg.expRxNack) p.2
  (q.1, p.1, q.2.emit (.iRxNack q.1 p.1 .dataByteNack))

/-! ## Step, frame, abort -/

/-- STEP(action, exp) up to its abort (rule R201): the code is recorded in `status`; whether it matched. -/
def recordStep (exp : Byte) (p : Byte × State) : Bool × State := (p.1 == exp, p.2.setStatus (some p.1))

/-- The next step runs only where the one before matched (rule R202). -/
def thenStep (p : Bool × State) (f : State → Bool × State) : Bool × State := if p.1 then f p.2 else p

/-- STEP(I_START, EXP_START). -/
def stepStart (s : State) : Bool × State := recordStep s.cfg.expStart (iStart s)

/-- STEP(I_REPSTART, EXP_REPSTART). -/
def stepRepStart (s : State) : Bool × State := recordStep s.cfg.expRepStart (iRepStart s)

/-- STEP(I_TX role, v, the role's expected code). -/
def stepTx (role : Role) (v : Byte) (s : State) : Bool × State := recordStep (txExpected s.cfg role) (iTx role v s)

/-- FRAME() for the counter value c (rule R201): START, slave address with the write bit, address high, address low. -/
def frame (c : Nat) (s : State) : Bool × State :=
  thenStep (thenStep (thenStep (stepStart s) fun t => stepTx .slaW (slaWByte t.cfg) t) (stepTx .addrHi (addrHiByte c)))
    (stepTx .addrLo (addrLoByte c))

/-- ABORT(c) (rule R202): `status` holds the code already; the bus is stopped and the operation returns false. -/
def abort (s : State) : State := iStop s

/-! ## Contract bodies -/

/-- init (rule R203). -/
def initI2c (s : State) : State := (s.setBus .idle).setTxstate .idle

/-- The steps of start_sequential_read (rule R204). -/
def readFrame (c : Nat) (s : State) : Bool × State :=
  thenStep (thenStep (frame c s) stepRepStart) fun t => stepTx .slaR (slaRByte t.cfg) t

/-- start_sequential_read (rule R204). -/
def startSeqReadI2c (c : Nat) (s : State) : Bool × State :=
  let p := readFrame c s
  if p.1 then p else (false, abort p.2)

/-- The end of a next_byte (rules R202, R205): a match returns the byte after `onMatch`; a mismatch aborts and returns a
draw (log 22). -/
def endNextByte (exp : Byte) (onMatch : State → State) (q : Byte × Byte × State) : Byte × Bool × State :=
  let t := q.2.2.setStatus (some q.2.1)
  if q.2.1 = exp then (q.1, true, onMatch t)
  else ((draw (abort t)).1, false, (draw (abort t)).2)

/-- next_byte (rule R205). -/
def nextByteI2c (last : Bool) (s : State) : Byte × Bool × State :=
  if last then endNextByte s.cfg.expRxNack iStop (iRxNack s) else endNextByte s.cfg.expRxAck id (iRxAck s)

/-- reset_memory (rule R208): STOP, unconditionally. -/
def resetMemoryI2c (s : State) : State := iStop s

/-- The data bytes of a write, each counted after its acknowledgement where `count` holds (rules R206, R207). -/
def sendBytes (count : Bool) : List Byte → State → Bool × State
  | [], s => (true, s)
  | b :: l, s => thenStep (stepTx .data b s) fun t => sendBytes count l (if count then bumpCtr t else t)

/-- A write transaction at counter value c: frame, data, STOP, DELAY. A mismatch in the frame aborts; a mismatch in the data
aborts and spoils the target range (rules R201, R202, R206, R207; 20_memory.md rule R68). -/
def writeTransaction (count : Bool) (c : Nat) (bytes : List Byte) (s : State) : Bool × State :=
  let f := frame c s
  if f.1 then
    let d := sendBytes count bytes f.2
    if d.1 then (true, delay s.wdelay (iStop d.2))
    else (false, devAbort (addressRange c bytes.length) (abort d.2))
  else (false, abort f.2)

/-- write_byte (rule R206). -/
def writeByteI2c (c : Nat) (v : Byte) (s : State) : Bool × State := writeTransaction false c [v] s

/-- write_page (rule R207). -/
def writePageI2c (c : Nat) (page : List Byte) (s : State) : Bool × State := writeTransaction true c page s

/-! ## Meanings -/

/-- An I2C micro-operation: refused on the other backend (log 15). -/
def onI2c (s : State) (a : Answer) : Answer :=
  match s.cfg.backend with
  | .i2c => a
  | .parallel => refuses .backend s

/-- I_START: `return c`. -/
def execIStart (s : State) : Answer := onI2c s ((iStart s).2.returns (.byte (iStart s).1))

/-- I_REPSTART: `return c`. -/
def execIRepStart (s : State) : Answer := onI2c s ((iRepStart s).2.returns (.byte (iRepStart s).1))

/-- I_STOP. -/
def execIStop (s : State) : Answer := onI2c s ((iStop s).returns .unit)

/-- I_TX role, v: `return c`. -/
def execITx (role : Role) (v : Byte) (s : State) : Answer := onI2c s ((iTx role v s).2.returns (.byte (iTx role v s).1))

/-- I_RX_ACK: `return (b, c)`. -/
def execIRxAck (s : State) : Answer := onI2c s ((iRxAck s).2.2.returns (.byteCode (iRxAck s).1 (iRxAck s).2.1))

/-- I_RX_NACK: `return (b, c)`. -/
def execIRxNack (s : State) : Answer := onI2c s ((iRxNack s).2.2.returns (.byteCode (iRxNack s).1 (iRxNack s).2.1))

end Sys2Proof.Machine
end

