-- ==== Sys2Proof/Machine/Counter.lean ====
section
/-! DEFINITION. The address counter's operations (40_address_counter.md): RESET, ADVANCE, GETCOUNT. -/

namespace Sys2Proof.Machine

/-- The hardware side of RESET: a reset pulse on PARALLEL, nothing on I2C (rules R101, R209). -/
def resetHardware (s : State) : State :=
  match s.cfg.backend with
  | .parallel => pRstPulse s
  | .i2c => s

/-- The hardware side of ADVANCE n: n clock pulses on PARALLEL, nothing on I2C (rules R102, R209). -/
def advanceHardware (n : Nat) (s : State) : State :=
  match s.cfg.backend with
  | .parallel => clkPulses n s
  | .i2c => s

/-- RESET (rule R101). -/
def execReset (s : State) : Answer :=
  if s.phase = .uninit then faults .uninit s
  else ((resetHardware s).setCtr (some 0)).returns .unit

/-- ADVANCE n (rules R102, R103). -/
def execAdvance (n : BitVec 24) (s : State) : Answer :=
  if s.phase = .uninit then faults .uninit s
  else match s.ctr with
    | none => faults .counterUnset s
    | some c =>
      if s.cfg.capacity < c + n.toNat then faults (.overflow c n.toNat) s
      else ((advanceHardware n.toNat s).setCtr (some (c + n.toNat))).returns .unit

/-- GETCOUNT (rule R104). -/
def execGetcount (s : State) : Answer :=
  match s.ctr with
  | none => faults .counterUnset s
  | some c => s.returns (.count c)

end Sys2Proof.Machine
end

