-- ==== Sys2Proof/Machine/Contract.lean ====
section
/-! DEFINITION. The backend contract (41_backend_contract.md): the shared checks, then the backend's body. The checks stand in
the order of 60_exceptions.md rule R285. -/

namespace Sys2Proof.Machine

/-! ## The backend's bodies -/

/-- `backend init()` (rule R133). -/
def initBody (s : State) : State :=
  match s.cfg.backend with
  | .parallel => initParallel s
  | .i2c => initI2c s

/-- `backend reset_memory()` (rule R131). -/
def resetMemoryBody (s : State) : State :=
  match s.cfg.backend with
  | .parallel => resetMemoryParallel s
  | .i2c => resetMemoryI2c s

/-- `backend start_sequential_read()` (rule R130). -/
def startSeqReadBody (c : Nat) (s : State) : Bool × State :=
  match s.cfg.backend with
  | .parallel => startSeqReadParallel s
  | .i2c => startSeqReadI2c c s

/-- `backend write_byte(v)` (rule R128). -/
def writeByteBody (c : Nat) (v : Byte) (s : State) : Bool × State :=
  match s.cfg.backend with
  | .parallel => writeByteParallel v s
  | .i2c => writeByteI2c c v s

/-- `backend write_page(page)` (rule R129). -/
def writePageBody (c : Nat) (page : List Byte) (s : State) : Bool × State :=
  match s.cfg.backend with
  | .parallel => writePageParallel page s
  | .i2c => writePageI2c c page s

/-! ## Shared checks -/

/-- The checks of an access at the counter: phase, burst, counter unset; the operation goes on with the counter's value
(rules R121, R122, R128 to R130). -/
def atCounter (s : State) (go : Nat → Answer) : Answer :=
  if s.phase = .uninit then faults .uninit s
  else if s.burst = .opened then faults .burst s
  else match s.ctr with
    | none => faults .counterUnset s
    | some c => go c

/-- The overflow check of an access at the counter (rule R103). -/
def belowCapacity (c n : Nat) (s : State) (go : Answer) : Answer :=
  if s.cfg.capacity ≤ c then faults (.overflow c n) s else go

/-- The end of NEXT_BYTE: the burst closes on the last byte and on a failure (rule R127). -/
def closeNextByte (last : Bool) (q : Byte × Bool × State) : Answer :=
  (if last || !q.2.1 then q.2.2.setBurst .none else q.2.2).returns (.byteFlag q.1 q.2.1)

/-! ## Meanings -/

/-- INIT (rule R133). -/
def execInit (s : State) : Answer :=
  if s.phase = .ready then faults .reinit s
  else (((initBody s).setPhase .ready).setBurst .none).returns .unit

/-- RESET_MEMORY (rule R131). -/
def execResetMemory (s : State) : Answer :=
  if s.phase = .uninit then faults .uninit s
  else ((resetMemoryBody s).setBurst .none).returns .unit

/-- START_SEQ_READ (rule R130). -/
def execStartSeqRead (s : State) : Answer :=
  atCounter s fun c => belowCapacity c 0 s <|
    let p := startSeqReadBody c s
    (p.2.setBurst (if p.1 then .opened else .none)).returns (.flag p.1)

/-- NEXT_BYTE (rule R127). The counter is looked at on PARALLEL only (rules R158, R205). -/
def execNextByte (last : Bool) (s : State) : Answer :=
  if s.phase = .uninit then faults .uninit s
  else if s.burst = .none then faults .burst s
  else match s.cfg.backend with
    | .parallel =>
      match s.ctr with
      | none => faults .counterUnset s
      | some c => belowCapacity c 0 s (closeNextByte last (nextByteParallel last s))
    | .i2c => closeNextByte last (nextByteI2c last s)

/-- WRITE_BYTE v (rule R128). -/
def execWriteByte (v : Byte) (s : State) : Answer :=
  atCounter s fun c => belowCapacity c 0 s <|
    let p := writeByteBody c v s
    p.2.returns (.flag p.1)

/-- WRITE_PAGE (rule R129): the alignment precondition of rule R125 stands before the overflow check. A page that is not 64
bytes long is refused as a short operand block is (rules R91, R281; log 31). -/
def execWritePage (page : List Byte) (s : State) : Answer :=
  if page.length ≠ pageSize then refuses (.reserved .shortPage) s
  else atCounter s fun c =>
    if pageAligned c then belowCapacity c pageSize s <|
      let p := writePageBody c page s
      p.2.returns (.flag p.1)
    else (s.setStatus (some sentinel)).returns (.flag false)

/-- LAST_FAILURE (rule R132). -/
def execLastFailure (s : State) : Answer :=
  match s.status with
  | some b => s.returns (.byte b)
  | none => (draw s).2.returns (.byte (draw s).1)

/-- SET_WRITE_DELAY d (rule R134). -/
def execSetWriteDelay (d : BitVec 24) (s : State) : Answer := (s.setWdelay d.toNat).returns .unit

end Sys2Proof.Machine
end

