-- ==== Sys2Proof/Machine/Dispatch.lean ====
section
/-! DEFINITION. One arm per instruction of spec/opcode_table.json, each a direct call of its meaning. -/

namespace Sys2Proof.Machine

def exec (i : Instr) (s : State) : Host.Outcome State Fault Refusal :=
  match i with
  | .reset => Sys2Proof.Machine.execReset s
  | .advance n => Sys2Proof.Machine.execAdvance n s
  | .getcount => Sys2Proof.Machine.execGetcount s
  | .init => Sys2Proof.Machine.execInit s
  | .resetMemory => Sys2Proof.Machine.execResetMemory s
  | .startSeqRead => Sys2Proof.Machine.execStartSeqRead s
  | .nextByte last => Sys2Proof.Machine.execNextByte last s
  | .writeByte v => Sys2Proof.Machine.execWriteByte v s
  | .writePage page => Sys2Proof.Machine.execWritePage page s
  | .lastFailure => Sys2Proof.Machine.execLastFailure s
  | .setWriteDelay d => Sys2Proof.Machine.execSetWriteDelay d s
  | .sdpEnable => Sys2Proof.Machine.execSdpEnable s
  | .sdpDisable => Sys2Proof.Machine.execSdpDisable s
  | .pIdle => Sys2Proof.Machine.execPIdle s
  | .pClkPulse => Sys2Proof.Machine.execPClkPulse s
  | .pRstPulse => Sys2Proof.Machine.execPRstPulse s
  | .pReadStrobe => Sys2Proof.Machine.execPReadStrobe s
  | .pWriteStrobe v => Sys2Proof.Machine.execPWriteStrobe v s
  | .pSelect select => Sys2Proof.Machine.execPSelect select s
  | .iStart => Sys2Proof.Machine.execIStart s
  | .iRepStart => Sys2Proof.Machine.execIRepStart s
  | .iStop => Sys2Proof.Machine.execIStop s
  | .iTx role v => Sys2Proof.Machine.execITx role v s
  | .iRxAck => Sys2Proof.Machine.execIRxAck s
  | .iRxNack => Sys2Proof.Machine.execIRxNack s
  | .delay d => Sys2Proof.Machine.execDelay d s

end Sys2Proof.Machine
end

