-- ==== Sys2Proof/Machine/Request.lean ====
section
/-! DEFINITION. Taking the next request of the operation stream (00_scope.md rule R16, 30_encoding.md rules R80, R88 to R92),
the boot sequence, and how a word is placed where the next step takes it. -/

namespace Sys2Proof.Machine

/-- What the next request of the stream is. -/
inductive Fetched where
  /-- The caller has no further request (10_state.md rule R36). -/
  | idle
  /-- The request is refused; the bytes after it are left. -/
  | refuse (r : Refusal) (rest : List Byte)
  /-- The request is an instruction; the bytes after it are left. -/
  | run (i : Instr) (rest : List Byte)
  deriving DecidableEq, Repr

/-- The next request, with the decoding refusals in the order of 60_exceptions.md rule R285: REFUSE_INTERNAL, then
REFUSE_RESERVED. REFUSE_BACKEND is the meaning's own first check. -/
def fetch (s : State) : Fetched :=
  if s.stream.isEmpty then .idle
  else if s.origin == .caller && isInternalRequest s.stream then .refuse .internal (s.stream.drop 4)
  else match decode s.stream with
    | (.ok i, rest) => .run i rest
    | (.error e, rest) => .refuse (.reserved e) rest

/-- The firmware's start-up requests, written out as bytes (70_reset_and_hazards.md rule R301). -/
def bootRequests : List Byte := encode .init ++ encode .resetMemory ++ encode .reset

/-- A table row's instruction put before the stream; a micro-operation comes from the block's own rules, the only issuer it
has (rule R88; log 4). -/
def placeRequest (s : State) (bytes : List Byte) : State :=
  (s.setStream (bytes ++ s.stream)).setOrigin (if isInternalRequest bytes then .block else s.origin)

end Sys2Proof.Machine
end

