-- ==== Sys2Proof/Machine/Step.lean ====
section
/-! DEFINITION. One step of the machine: one request of the caller's stream, run to completion (00_scope.md rules R13, R16;
41_backend_contract.md rule R136). -/

namespace Sys2Proof.Machine

/-- A step. With no request left the block waits and nothing changes (log 3). -/
def step (s : State) : Host.Outcome State Fault Refusal :=
  match fetch s with
  | .idle => .next s
  | .refuse r rest => refuses r (s.setStream rest)
  | .run i rest => exec i (s.setStream rest)

/-- s with the instruction of a table row's bits as the next request (log 3, log 4). -/
def State.withFetchWord (s : State) (nbits w : Nat) : State := placeRequest s (tableBytes nbits w)

end Sys2Proof.Machine
end

