-- ==== Sys2Proof/Machine/Command.lean ====
section
/-! DEFINITION. The command layer, the block's caller (44_host_interface.md rules R240 to R253): what each command line does to
the block and what comes back. It is outside the block (00_scope.md rule R6) and keeps no state of its own (10_state.md rule
R39), so each command is a function over the operations' meanings (log 26). -/

namespace Sys2Proof.Machine

/-! ## Command lines -/

/-- The thirteen commands of rules R241 to R250, with the arguments the line gives. -/
inductive Command where
  | reset
  | clock (n : Nat)
  | getcount
  | writedelay (n : Nat)
  | dumphex (count : Nat)
  | dumptext (count : Nat)
  | dumpraw (count : Nat)
  | writemembytes (count byte : Nat)
  | upblock (count : Nat)
  | debug (n : Nat)
  | echo (n : Nat)
  | testwrites (count : Nat) (pattern : List Char)
  | testreads (count : Nat) (pattern : List Char)
  deriving DecidableEq, Repr

/-- A printable character, which a line is made of before its CR (rule R240). PRESUMED (log 36): the ASCII range 0x20 to 0x7E; the
spec gives no range. -/
def printable (c : Char) : Bool := 0x20 ≤ c.toNat && c.toNat ≤ 0x7E

/-- The characters of a line before the CR that ends it (rule R240). DESIGN CHOICE (log 36): a line without its CR, with a
character after it, or with one that is not printable (an LF among them) is no command line and gets an `Error:` reply. -/
def lineBody : List Char → Option (List Char)
  | [] => none
  | c :: l =>
    if c = '\r' then (if l.isEmpty then some [] else none)
    else if printable c then (lineBody l).map (c :: ·)
    else none

/-- The space-separated tokens; an empty token counts for nothing (log 26). -/
def tokensFrom : List Char → List Char → List (List Char)
  | cur, [] => if cur.isEmpty then [] else [cur]
  | cur, c :: l =>
    if c = ' ' then (if cur.isEmpty then tokensFrom [] l else cur :: tokensFrom [] l)
    else tokensFrom (cur ++ [c]) l

/-- A decimal digit's value. -/
def digitValue (c : Char) : Option Nat :=
  if 0x30 ≤ c.toNat && c.toNat ≤ 0x39 then some (c.toNat - 0x30) else none

/-- The number read so far, followed by more digits. -/
def decimalFrom : Nat → List Char → Option Nat
  | n, [] => some n
  | n, c :: l => (digitValue c).bind fun d => decimalFrom (10 * n + d) l

/-- An unsigned decimal integer (rule R240). -/
def decimal (t : List Char) : Option Nat := if t.isEmpty then none else decimalFrom 0 t

/-- The command with one numeric argument that a name stands for. -/
def commandOfNumber (name : List Char) (n : Nat) : Option Command :=
  if name = ['c', 'l', 'o', 'c', 'k'] then some (.clock n)
  else if name = ['w', 'r', 'i', 't', 'e', 'd', 'e', 'l', 'a', 'y'] then some (.writedelay n)
  else if name = ['d', 'u', 'm', 'p', 'h', 'e', 'x'] then some (.dumphex n)
  else if name = ['d', 'u', 'm', 'p', 't', 'e', 'x', 't'] then some (.dumptext n)
  else if name = ['d', 'u', 'm', 'p', 'r', 'a', 'w'] then some (.dumpraw n)
  else if name = ['u', 'p', 'b', 'l', 'o', 'c', 'k'] then some (.upblock n)
  else if name = ['d', 'e', 'b', 'u', 'g'] then some (.debug n)
  else if name = ['e', 'c', 'h', 'o'] then some (.echo n)
  else none

/-- The command with two arguments, a count and a second token, that a name stands for. -/
def commandOfPair (name : List Char) (n : Nat) (t : List Char) : Option Command :=
  if name = ['w', 'r', 'i', 't', 'e', 'm', 'e', 'm', 'b', 'y', 't', 'e', 's'] then
    (decimal t).map fun b => .writemembytes n b
  else if name = ['t', 'e', 's', 't', 'w', 'r', 'i', 't', 'e', 's'] then some (.testwrites n t)
  else if name = ['t', 'e', 's', 't', 'r', 'e', 'a', 'd', 's'] then some (.testreads n t)
  else none

/-- The command of a line's tokens. A missing argument, a surplus one or one that is not a number gives none
(rule R240; log 26). -/
def commandOfTokens : List (List Char) → Option Command
  | [name] =>
    if name = ['r', 'e', 's', 'e', 't'] then some .reset
    else if name = ['g', 'e', 't', 'c', 'o', 'u', 'n', 't'] then some .getcount
    else none
  | [name, t] => (decimal t).bind (commandOfNumber name)
  | [name, t, u] => (decimal t).bind fun n => commandOfPair name n u
  | _ => none

/-- The argument ranges of rule R243. -/
def argumentsInRange (capacity : Nat) : Command → Bool
  | .clock n => n ≤ 16777215
  | .writedelay n => n ≤ 16777215
  | .dumphex n => n ≤ capacity
  | .dumptext n => n ≤ capacity
  | .dumpraw n => n ≤ capacity
  | .writemembytes n b => n ≤ capacity && b ≤ 255
  | .reset | .getcount | .upblock _ | .debug _ | .echo _ | .testwrites _ _ | .testreads _ _ => true

/-- The command a line asks for; none gets an `Error:` reply and no operation (rules R240, R243). -/
def parseLine (c : Config) (line : List Char) : Option Command :=
  (((lineBody line).map (tokensFrom [])).bind commandOfTokens).filter (argumentsInRange c.capacity)

/-! ## Replies -/

/-- The reply line that ends a command (rule R251). -/
inductive Reply where
  /-- `Done`. -/
  | done
  /-- `Failed:` with the block's status. -/
  | failed (status : Byte)
  /-- `Error:` with an open message. -/
  | error (message : List Char)
  /-- No reply: an operation faulted or was refused (rules R251, R280). -/
  | silent
  /-- The firmware still waits for raw bytes the host never sent (60_exceptions.md rule R283). -/
  | waiting
  deriving DecidableEq, Repr

/-- What a command sends before its reply line (rules R244, R246, R252). -/
inductive Output where
  | nothing
  /-- The line of `getcount`. -/
  | count (n : Nat)
  /-- The raw bytes of `dumpraw`. -/
  | raw (bytes : List Byte)
  /-- The bytes `dumphex` renders, with the counter it started at and the count asked for. -/
  | hexDump (start : Option Nat) (count : Nat) (bytes : List Byte)
  /-- The bytes `dumptext` renders, likewise. -/
  | textDump (start : Option Nat) (count : Nat) (bytes : List Byte)
  deriving DecidableEq, Repr

/-- One command line's exchange: the state it leaves, what was sent before the reply line, and the reply. -/
structure Exchange where
  state : State
  output : Output
  reply : Reply
  deriving DecidableEq, Repr

/-- An uppercase hexadecimal digit. -/
def hexDigit (n : Nat) : Char := Char.ofNat (if n < 10 then 0x30 + n else 0x37 + n)

/-- The text of a reply line (rule R251). -/
def replyText : Reply → List Char
  | .done => ['D', 'o', 'n', 'e', '\r', '\n']
  | .failed b => ['F', 'a', 'i', 'l', 'e', 'd', ':', ' ', hexDigit (b.toNat / 16), hexDigit (b.toNat % 16), '\r', '\n']
  | .error message => ['E', 'r', 'r', 'o', 'r', ':', ' '] ++ message ++ ['\r', '\n']
  | .silent => []
  | .waiting => []

/-- A text as link bytes. -/
def textBytes (t : List Char) : List Byte := t.map fun c => BitVec.ofNat 8 c.toNat

/-- A rendering of the bytes a dump has read: nothing where it has read none (rule R246). -/
def renderDump (text : List Byte → List Char) (bytes : List Byte) : List Byte :=
  if bytes.isEmpty then [] else textBytes (text bytes)

/-- What goes over the link before the reply line (rules R244, R246, R252). -/
def outputBytes : Output → List Byte
  | .nothing => []
  | .count n => textBytes (Nat.toDigits 10 n ++ ['\r', '\n'])
  | .raw bytes => bytes
  | .hexDump start count bytes => renderDump (Config.hexDumpText start count) bytes
  | .textDump start count bytes => renderDump (Config.textDumpText start count) bytes

/-- Everything the device sends for a command line. -/
def linkBytes (e : Exchange) : List Byte := outputBytes e.output ++ textBytes (replyText e.reply)

/-! ## Operations issued by the command layer -/

/-- One operation run to completion. Its answer is always a next state; the state is kept otherwise. -/
def issue (i : Instr) (s : State) : State :=
  match exec i s with
  | .next t => t
  | .fault _ => s
  | .refused _ => s

/-- `reply Failed(LAST_FAILURE)` (rule R251). -/
def replyFailed (s : State) : State × Reply :=
  let t := issue .lastFailure s
  match t.result with
  | some (.byte b) => (t, .failed b)
  | _ => (t, .silent)

/-- `Done` after an operation that returned, nothing after one that did not (rule R251). -/
def replyDone (t : State) : Reply := if t.result.isSome then .done else .silent

/-- A command that is one operation. -/
def oneOperation (i : Instr) (s : State) : Exchange := ⟨issue i s, .nothing, replyDone (issue i s)⟩

/-- The bytes, state and reply of a loop. -/
structure LoopEnd where
  bytes : List Byte
  state : State
  reply : Reply
  deriving DecidableEq, Repr

/-- The read loop of the dump commands (rule R246): `last` on the final byte only, ADVANCE 1 after each byte, stop at the
first failure (rule R253). -/
def dumpLoop : Nat → State → List Byte → LoopEnd
  | 0, s, acc => ⟨acc, s, .done⟩
  | k + 1, s, acc =>
    let t := issue (.nextByte (k == 0)) s
    match t.result with
    | some (.byteFlag b true) =>
      let u := issue (.advance 1) t
      if u.result.isSome then dumpLoop k u (acc ++ [b]) else ⟨acc, u, .silent⟩
    | some (.byteFlag _ false) => ⟨acc, (replyFailed t).1, (replyFailed t).2⟩
    | _ => ⟨acc, t, .silent⟩

/-- A dump of `count` bytes from the counter on (rule R246). A count of 0 opens no burst. -/
def dump (count : Nat) (s : State) : LoopEnd :=
  if count = 0 then ⟨[], s, .done⟩
  else
    let t := issue .startSeqRead s
    match t.result with
    | some (.flag true) => dumpLoop count t []
    | some (.flag false) => ⟨[], (replyFailed t).1, (replyFailed t).2⟩
    | _ => ⟨[], t, .silent⟩

/-- The loop of `writemembytes` (rule R247). -/
def fillLoop (b : Byte) : Nat → State → State × Reply
  | 0, s => (s, .done)
  | k + 1, s =>
    let t := issue (.writeByte b) s
    match t.result with
    | some (.flag true) =>
      let u := issue (.advance 1) t
      if u.result.isSome then fillLoop b k u else (u, .silent)
    | some (.flag false) => replyFailed t
    | _ => (t, .silent)

/-- `upblock 64` with the raw bytes that follow the line (rules R248, R252). -/
def upblock64 (raw : List Byte) (s : State) : Exchange :=
  if raw.length < pageSize then ⟨s, .nothing, .waiting⟩
  else
    let t := issue (.writePage (raw.take pageSize)) s
    match t.result with
    | some (.flag true) => ⟨t, .nothing, .done⟩
    | some (.flag false) => ⟨(replyFailed t).1, .nothing, (replyFailed t).2⟩
    | _ => ⟨t, .nothing, .silent⟩

/-- `getcount` (rule R244). -/
def getcountCommand (s : State) : Exchange :=
  let t := issue .getcount s
  match t.result with
  | some (.count n) => ⟨t, .count n, .done⟩
  | _ => ⟨t, .nothing, .silent⟩

/-- A command without a meaning: REFUSE_COMMAND (60_exceptions.md rule R281). -/
def refuseCommand (s : State) : Exchange := ⟨takeRefusal .command s, .nothing, .silent⟩

/-- What a command does to the block (rules R241 to R250). `raw` is what the host sends after the line. -/
def runCommand (c : Command) (raw : List Byte) (s : State) : Exchange :=
  match c with
  | .reset => oneOperation .reset s
  | .clock n => oneOperation (.advance (BitVec.ofNat 24 n)) s
  | .getcount => getcountCommand s
  | .writedelay n => oneOperation (.setWriteDelay (BitVec.ofNat 24 n)) s
  | .dumphex n => ⟨(dump n s).state, .hexDump s.ctr n (dump n s).bytes, (dump n s).reply⟩
  | .dumptext n => ⟨(dump n s).state, .textDump s.ctr n (dump n s).bytes, (dump n s).reply⟩
  | .dumpraw n => ⟨(dump n s).state, .raw (dump n s).bytes, (dump n s).reply⟩
  | .writemembytes n b => ⟨(fillLoop (BitVec.ofNat 8 b) n s).1, .nothing, (fillLoop (BitVec.ofNat 8 b) n s).2⟩
  | .upblock n => if n = pageSize then upblock64 raw s else refuseCommand s
  | .debug n => if n = 0 then ⟨s, .nothing, .done⟩ else refuseCommand s
  | .echo n => if n = 0 then ⟨s, .nothing, .done⟩ else refuseCommand s
  | .testwrites _ _ => refuseCommand s
  | .testreads _ _ => refuseCommand s

/-- A command line, with the raw bytes the host sends after it. -/
def runLine (line : List Char) (raw : List Byte) (s : State) : Exchange :=
  match parseLine s.cfg line with
  | some c => runCommand c raw s
  | none => ⟨s, .nothing, .error (Config.errorText s.cfg line)⟩

/-- The firmware's start-up (70_reset_and_hazards.md rule R301): INIT, RESET_MEMORY, RESET, before the first line. -/
def boot (s : State) : State := issue .reset (issue .resetMemory (issue .init s))

end Sys2Proof.Machine
end

