-- ==== Sys2Proof/Machine/Uploader.lean ====
section
/-! DEFINITION. The host uploader and the raw dump mode (44_host_interface.md rules R254 to R257), as the host of the block: one
command line in flight, no timeout, and a link that may lose bytes, fail or fall silent (log 27). -/

namespace Sys2Proof.Machine

/-- How a host run ends (rules R254 to R257, R271). -/
inductive HostEnd where
  /-- Every reply was `Done` and every byte matched. -/
  | success
  /-- The file is larger than CAPACITY: nothing is sent. -/
  | tooLarge
  /-- A reply other than `Done`. -/
  | protocolError
  /-- A link failure: the link ends while the host reads, a short read or a missing reply line. -/
  | linkFailure
  /-- The first byte that differs: offset, expected, received. -/
  | mismatch (offset : Nat) (expected received : Byte)
  /-- The host waits for a byte that never comes, on a link that has not failed (rule R256, 60_exceptions.md rule R283). -/
  | hang
  deriving DecidableEq, Repr

/-- The exit code (rule R257); a hang has none. -/
def exitCode : HostEnd → Option Nat
  | .success => some 0
  | .tooLarge => some 1
  | .protocolError => some 1
  | .linkFailure => some 1
  | .mismatch _ _ _ => some 1
  | .hang => none

/-- What becomes of the bytes after a link's script. -/
inductive LinkRest where
  /-- Every byte reaches the host. -/
  | whole
  /-- The link has failed, and the host's read reports it. -/
  | failed
  /-- No byte reaches the host, and nothing reports it. -/
  | silent
  deriving DecidableEq, Repr

/-- The link from the device (log 27): for each of the next bytes whether it reaches the host or is lost without notice, and what
becomes of the bytes after them. A lost reply is a script of losses or a silent rest (70_reset_and_hazards.md rule R320). -/
structure Link where
  script : List Bool
  rest : LinkRest
  deriving DecidableEq, Repr

/-- What of the sent bytes reaches the host, by a script and a rest. -/
def deliveredBy : List Bool → LinkRest → List Byte → List Byte
  | [], .whole, sent => sent
  | [], .failed, _ => []
  | [], .silent, _ => []
  | _ :: _, _, [] => []
  | arrives :: script, rest, b :: sent => if arrives then b :: deliveredBy script rest sent else deliveredBy script rest sent

/-- What of the sent bytes reaches the host. -/
def delivered (link : Link) (sent : List Byte) : List Byte := deliveredBy link.script link.rest sent

/-- The link after it has carried these bytes, as far as it could. -/
def Link.carry (link : Link) (sent : List Byte) : Link := { link with script := link.script.drop sent.length }

/-- The link has failed. -/
def Link.hasFailed (link : Link) : Bool := link.script.isEmpty && link.rest == .failed

/-- The host needs another byte and none is there: a failed link is a short read or a missing reply line, fatal (rules R255, R257);
any other is waited on without limit (rule R256), whether the byte was lost or never sent. -/
def starved (link : Link) : HostEnd := if link.hasFailed then .linkFailure else .hang

/-- One command line sent, with raw bytes after it: what reaches the host, the link and the block after it. -/
structure Received where
  bytes : List Byte
  link : Link
  state : State
  deriving DecidableEq, Repr

/-- The host sends a line and raw bytes; the firmware runs the command to completion. -/
def talk (line : List Char) (raw : List Byte) (link : Link) (s : State) : Received :=
  let e := runLine line raw s
  ⟨delivered link (linkBytes e), link.carry (linkBytes e), e.state⟩

/-- A command name, an argument and CR. -/
def lineOf (name : List Char) (n : Nat) : List Char := name ++ [' '] ++ Nat.toDigits 10 n ++ ['\r']

/-- "reset\r". -/
def resetLine : List Char := ['r', 'e', 's', 'e', 't', '\r']

/-- "upblock 64\r". -/
def upblockLine : List Char := lineOf ['u', 'p', 'b', 'l', 'o', 'c', 'k'] pageSize

/-- "dumpraw n\r". -/
def dumprawLine (n : Nat) : List Char := lineOf ['d', 'u', 'm', 'p', 'r', 'a', 'w'] n

/-- "clock n\r". -/
def clockLine (n : Nat) : List Char := lineOf ['c', 'l', 'o', 'c', 'k'] n

/-- The bytes of "Done\r\n". -/
def doneBytes : List Byte := textBytes (replyText .done)

/-- The host reads one reply line and expects `Done`: none when it came. A whole line of another kind is a protocol error; with no
whole line the host is starved. -/
def expectDone (link : Link) (received : List Byte) : Option HostEnd :=
  if received = doneBytes then none
  else if received.contains 0x0A then some .protocolError
  else some (starved link)

/-- The 64-byte blocks of a file, the last zero-padded (rule R254). -/
def fileBlocks (file : List Byte) : List (List Byte) :=
  (List.range ((file.length + (pageSize - 1)) / pageSize)).map fun k =>
    let b := (file.drop (pageSize * k)).take pageSize
    b ++ List.replicate (pageSize - b.length) 0

/-- The write phase: `upblock 64` for each block, each acknowledged with `Done` (rule R254). -/
def writeBlocks : List (List Byte) → Link → State → Option HostEnd × Link × State
  | [], link, s => (none, link, s)
  | b :: bs, link, s =>
    let r := talk upblockLine b link s
    match expectDone r.link r.bytes with
    | some e => (some e, r.link, r.state)
    | none => writeBlocks bs r.link r.state

/-- The verify loop (rule R255): the received bytes against the file from offset i on; then the final `Done`. -/
def compareFrom (link : Link) : Nat → List Byte → List Byte → HostEnd
  | _, [], received => (expectDone link received).getD .success
  | _, _ :: _, [] => starved link
  | i, f :: fs, r :: rs => if r = f then compareFrom link (i + 1) fs rs else .mismatch i f r

/-- The verify phase: `reset`, then `dumpraw F`, compared byte for byte (rule R255). -/
def verify (file : List Byte) (link : Link) (s : State) : HostEnd × State :=
  let r := talk resetLine [] link s
  match expectDone r.link r.bytes with
  | some e => (e, r.state)
  | none =>
    let d := talk (dumprawLine file.length) [] r.link r.state
    (compareFrom d.link 0 file d.bytes, d.state)

/-- Upload and verify a file (rules R254, R255). -/
def upload (file : List Byte) (link : Link) (s : State) : HostEnd × State :=
  if s.cfg.capacity < file.length then (.tooLarge, s)
  else
    let r := talk resetLine [] link s
    match expectDone r.link r.bytes with
    | some e => (e, r.state)
    | none =>
      match writeBlocks (fileBlocks file) r.link r.state with
      | (some e, _, t) => (e, t)
      | (none, l, t) => verify file l t

/-- Raw dump mode (rule R257): `reset`, `clock offset`, `dumpraw count`; the bytes written out. DESIGN CHOICE (log 38): a dump that
ends in a failure or a hang has written out what the host received in the place of the `count` bytes, however much that is and
whatever the device meant by it; the rule speaks of the `count` bytes of a whole dump only. -/
def rawDump (count offset : Nat) (link : Link) (s : State) : HostEnd × List Byte × State :=
  let r := talk resetLine [] link s
  match expectDone r.link r.bytes with
  | some e => (e, [], r.state)
  | none =>
    let c := talk (clockLine offset) [] r.link r.state
    match expectDone c.link c.bytes with
    | some e => (e, [], c.state)
    | none =>
      let d := talk (dumprawLine count) [] c.link c.state
      let ending := if d.bytes.length < count then starved d.link else (expectDone d.link (d.bytes.drop count)).getD .success
      (ending, d.bytes.take count, d.state)

end Sys2Proof.Machine
end

