-- ==== Sys2Proof/Safety.lean ====
section
/-! DEFINITION. What counts as a safe or final state, in the terms the statements use: the final state of 10_state.md rule
R36, the cooperative bus of 43_i2c_engine.md rule R191, the idle device, and the invariant that the operations keep. -/

namespace Sys2Proof

open Sys2Proof.Machine

/-- The answer is this next state. -/
abbrev Gives (a : Host.Outcome State Fault Refusal) (t : State) : Prop := a = .next t

/-- A final state (10_state.md rule R36): the caller has no further operation, no mark, no burst open. -/
abbrev Final (s : State) : Prop := s.stream = [] ∧ s.mark = .none ∧ s.burst = .none

/-- A COOPERATIVE bus (rule R191): every step gets its expected status. -/
abbrev Cooperative (s : State) : Prop := s.oracle.script.all (· == none) = true ∧ s.oracle.rest = .cooperative

/-- The device is idle: no write cycle, nothing pending (rules R60, R304). -/
abbrev DeviceIdle (s : State) : Prop := s.dev.busy = false ∧ s.dev.pending = []

/-- The SDP latch does not hold writes back (rule R79). -/
abbrev Unlocked (s : State) : Prop := s.cfg.devSdp = false ∨ s.dev.latch = .unlocked

/-- An operation at the counter may run: READY, no burst, the counter set to c (rules R121, R122). -/
abbrev AtCounter (s : State) (c : Nat) : Prop := s.phase = .ready ∧ s.burst = .none ∧ s.ctr = some c

/-- The lines as the parallel operations leave them between operations (rules R154, R155): CE follows the burst, every
other line deasserted, the data bus an input. -/
abbrev LinesBetween (s : State) : Prop :=
  s.lines = ⟨if s.burst = .opened then .asserted else .deasserted, .deasserted, .deasserted, .deasserted, .deasserted⟩ ∧
    s.dbusDir = .input

/-- No line is driven (rule R27). -/
abbrev LinesUndriven (s : State) : Prop :=
  s.lines = ⟨.undriven, .undriven, .undriven, .undriven, .undriven⟩ ∧ s.dbusDir = .input

/-- The parallel side between operations: the hardware counter follows the counter (rule R22), the lines are undriven before
INIT and idle after it (rules R27, R40). -/
abbrev ParallelInv (s : State) : Prop :=
  (∀ c, s.ctr = some c → s.hwctr = c % 2 ^ s.cfg.ctrBits) ∧ s.hwctr < 2 ^ s.cfg.ctrBits ∧
    (s.phase = .uninit → LinesUndriven s) ∧ (s.phase = .ready → LinesBetween s) ∧
    s.bus = .idle ∧ s.txstate = .idle

/-- The I2C side between operations (rule R29): idle without a burst; held with one, in one of the two states. -/
abbrev I2cInv (s : State) : Prop :=
  (s.burst = .none → s.bus = .idle ∧ s.txstate = .idle) ∧
    (s.burst = .opened → s.bus = .held ∧ (s.txstate = .slaveAddrReadAck ∨ s.txstate = .dataByteAck)) ∧
    LinesUndriven s

/-! ## What the statements expect, written out from the rules -/

/-- The power-on values the spec gives to block and device (rules R40, R60, R300, R304). -/
abbrev PoweredOn (s : State) : Prop :=
  s.phase = .uninit ∧ s.ctr = none ∧ s.status = none ∧ s.wdelay = s.cfg.writeDelayInit ∧ s.burst = .none ∧ LinesUndriven s ∧
    s.bus = .idle ∧ s.txstate = .idle ∧ s.trace = [] ∧ s.mark = .none ∧ DeviceIdle s ∧ s.dev.latch = s.cfg.sdpLatchInit

/-- A state with a mark set and nothing else changed: what a fault or a refusal leaves (rules R280, R281). The result channel
is emptied because no reply is sent (rule R251). -/
def marked (s : State) (m : Mark) : State := { s with mark := m, result := none }

/-- The byte a memory address holds. -/
abbrev memAt (s : State) (a : Nat) : Byte := memRead s.dev.mem a

/-- The trace of FRAME() at counter value a when every step matches (rules R193, R201). -/
def frameEvents (c : Config) (a : Nat) : List Event :=
  [.iStart c.expStart .start,
   .iTx .slaW (c.devAddr7 ++ 0#1) c.expSlaWAck .slaveAddrAck,
   .iTx .addrHi (BitVec.ofNat 8 (a / 256)) c.expTxAck .hiAddrByteAck,
   .iTx .addrLo (BitVec.ofNat 8 (a % 256)) c.expTxAck .loAddrByteAck]

/-- The trace of START_SEQ_READ on I2C when every step matches (rule R204). -/
def readFrameEvents (c : Config) (a : Nat) : List Event :=
  frameEvents c a ++ [.iRepStart c.expRepStart .repeatedStart, .iTx .slaR (c.devAddr7 ++ 1#1) c.expSlaRAck .slaveAddrReadAck]

/-- The steps of START_SEQ_READ on I2C at counter value a: the code each expects and the event it leaves with the code it got
(rules R195, R196, R198, R201, R204). -/
def readSteps (c : Config) (a : Nat) : List (Byte × (Byte → Event)) :=
  [(c.expStart, fun x => .iStart x .start),
   (c.expSlaWAck, fun x => .iTx .slaW (c.devAddr7 ++ 0#1) x .slaveAddrAck),
   (c.expTxAck, fun x => .iTx .addrHi (BitVec.ofNat 8 (a / 256)) x .hiAddrByteAck),
   (c.expTxAck, fun x => .iTx .addrLo (BitVec.ofNat 8 (a % 256)) x .loAddrByteAck),
   (c.expRepStart, fun x => .iRepStart x .repeatedStart),
   (c.expSlaRAck, fun x => .iTx .slaR (c.devAddr7 ++ 1#1) x .slaveAddrReadAck)]

/-- The steps of WRITE_BYTE v on I2C at counter value a: the frame, which START_SEQ_READ shares, and the data byte (rule R206). -/
def writeByteSteps (c : Config) (a : Nat) (v : Byte) : List (Byte × (Byte → Event)) :=
  (readSteps c a).take 4 ++ [(c.expTxAck, fun x => .iTx .data v x .dataByteAck)]

/-- The acknowledged data bytes of a write transaction (rule R207). -/
def dataEvents (c : Config) (bytes : List Byte) : List Event := bytes.map fun b => .iTx .data b c.expTxAck .dataByteAck

/-- The strobes and pulses of a parallel page write (rule R162). -/
def pageEvents : List Byte → List Event
  | [] => []
  | b :: l => .pWriteStrobe b :: .pClkPulse :: pageEvents l

/-- The steps of an SDP sequence (rule R170). -/
def sdpEvents : List (Nat × Byte) → List Event
  | [] => []
  | p :: l => .pRstPulse :: (List.replicate p.1 .pClkPulse ++ .pWriteStrobe p.2 :: sdpEvents l)

/-- The byte of a page at an offset. -/
def pageByte (page : List Byte) (i : Nat) : Byte := page.getD i 0

/-- What holds between operations, whatever the caller asks for and the bus answers: the parameters meet their constraints;
the caller issues the requests; the counter is at most CAPACITY (rule R103) and, like a burst, needs READY; the device's memory is
in canonical form within the device, nothing is pending and the pointer is within the device; and the backend's own side. -/
structure Inv (s : State) : Prop where
  config : configOk s.cfg = true
  origin : s.origin = .caller
  ctrBound : ∀ c, s.ctr = some c → c ≤ s.cfg.capacity
  uninit : s.phase = .uninit → s.ctr = none ∧ s.burst = .none
  memWf : Memory.wf s.dev.mem = true
  memBelow : ∀ c ∈ s.dev.mem, c.1 < s.cfg.capacity
  pending : s.dev.pending = []
  ptr : s.dev.ptr < s.cfg.capacity
  parallel : s.cfg.backend = .parallel → ParallelInv s
  i2c : s.cfg.backend = .i2c → I2cInv s

end Sys2Proof
end

