-- ==== Sys2Proof/Certificates/Slice0/Obligations.lean ====
section
/-! DEFINITION. The statements for the provers, from the spec's numbered rules. Each docstring names the rule it formalises. -/

open Sys2Proof Sys2Proof.Machine

/-! ## Requests, decoding and the step -/

/-- R80 to R82, R92: decoding an encoded well-formed instruction gives it back with every operand, and leaves the bytes after it. -/
def Obligations.DecodeOfEncode : Prop :=
  ∀ (i : Instr) (rest : List Byte), i.wellFormed = true → decode (encode i ++ rest) = (.ok i, rest)

/-- R89, R91: what decodes is the encoding of the instruction, and that instruction is well formed; so no reserved word
decodes. -/
def Obligations.DecodedBytesAreTheEncoding : Prop :=
  ∀ (bytes rest : List Byte) (i : Instr), decode bytes = (.ok i, rest) → bytes = encode i ++ rest ∧ i.wellFormed = true

/-- R95: the worked encodings. The spec marks rule R95 as its own inference. -/
def Obligations.WorkedEncodings : Prop :=
  decode [0x01, 0x00, 0x00, 0x00] = (.ok .reset, []) ∧
  decode [0x02, 0x00, 0x00, 0x0A] = (.ok (.advance 10), []) ∧
  decode [0x14, 0x00, 0x00, 0x5A] = (.ok (.writeByte 0x5A), []) ∧
  decode [0x13, 0x00, 0x00, 0x01] = (.ok (.nextByte true), []) ∧
  decode [0x63, 0x00, 0x00, 0xA0] = (.ok (.iTx .slaW 0xA0), []) ∧
  decode [0x63, 0x00, 0x02, 0x40] = (.ok (.iTx .addrLo 0x40), []) ∧
  decode [0x70, 0x00, 0x00, 0x0A] = (.ok (.delay 10), []) ∧
  decode [0x17, 0x00, 0x00, 0x0A] = (.ok (.setWriteDelay 10), []) ∧
  decode [0x13, 0x00, 0x00, 0x02] = (.error .reservedBits, [])

/-- R16: a step is the next request of the stream run to completion: the meaning of the decoded instruction at the state
whose stream has moved past the request. A micro-operation runs so when the block's own rules issue it. That the stream is
bytes and that the block may issue a request is the model's choice (log 3, log 4). -/
def Obligations.StepRunsTheDecodedInstruction : Prop :=
  ∀ (s : State) (i : Instr) (rest : List Byte), decode s.stream = (.ok i, rest) →
    (s.origin = .block ∨ i.isMicro = false) → step s = exec i { s with stream := rest }

/-- R88, R281: a caller's request with an opcode of 0x40 to 0x7F is refused with REFUSE_INTERNAL. That its four bytes are consumed
(log 17) and that the result channel is emptied (log 6) is the model's choice. -/
def Obligations.CallerCannotIssueMicroOperations : Prop :=
  ∀ (s : State) (op b2 b1 b0 : Byte) (rest : List Byte), s.stream = op :: b2 :: b1 :: b0 :: rest → s.origin = .caller →
    0x40 ≤ op.toNat → op.toNat ≤ 0x7F → step s = .next (marked { s with stream := rest } (.refused .internal))

/-- R89, R91, R92: a caller's request that does not decode and is no micro-operation is refused with REFUSE_RESERVED, whatever
the reason; the bytes after it stay in the stream, and a WRITE_PAGE takes its operand block with it. That a refused request is
consumed, and which reason is named, is the model's choice (log 17, log 18). -/
def Obligations.UndecodableRequestIsRefused : Prop :=
  ∀ (s : State) (op b2 b1 b0 : Byte) (rest rest' : List Byte) (e : Invalid), s.stream = op :: b2 :: b1 :: b0 :: rest →
    ¬ (0x40 ≤ op.toNat ∧ op.toNat ≤ 0x7F) → decode s.stream = (.error e, rest') →
    step s = .next (marked { s with stream := rest' } (.refused (.reserved e))) ∧
      rest' = (if op = 0x15 then rest.drop 64 else rest)

/-! ## Power-on and gating -/

/-- R40, R295, R300: the power-on values the spec gives, for every configuration and whatever the device holds, which it keeps;
and the same after power is cycled. The unknown values stay free (log 9). That a power cycle keeps the parameters, and what it does
to a device that is not idle, which rule R304 leaves out, is log 37. -/
def Obligations.PowerOnState : Prop :=
  (∀ (c : Config) (m : Memory) (n : Nat),
    PoweredOn (State.powerOn c m n) ∧ (State.powerOn c m n).cfg = c ∧ (State.powerOn c m n).dev.mem = m) ∧
  (∀ s : State, PoweredOn s.powerCycle ∧ s.powerCycle.cfg = s.cfg ∧ s.powerCycle.dev.mem = s.dev.mem)

/-- R121: phase gating, for every operation. -/
def Obligations.PhaseGating : Prop :=
  (∀ s : State, s.phase = .uninit →
    (∀ i ∈ [Instr.reset, .resetMemory, .startSeqRead], exec i s = .next (marked s (.fault .uninit))) ∧
    (∀ n, exec (.advance n) s = .next (marked s (.fault .uninit))) ∧
    (∀ l, exec (.nextByte l) s = .next (marked s (.fault .uninit))) ∧
    (∀ v, exec (.writeByte v) s = .next (marked s (.fault .uninit))) ∧
    (∀ page, page.length = 64 → exec (.writePage page) s = .next (marked s (.fault .uninit))) ∧
    (s.cfg.backend = .parallel → s.cfg.sdpPresent = true →
      ∀ i ∈ [Instr.sdpEnable, .sdpDisable], exec i s = .next (marked s (.fault .uninit)))) ∧
  (∀ s : State, s.phase = .ready → exec .init s = .next (marked s (.fault .reinit))) ∧
  (∀ (s t : State) (i : Instr), i ∈ [Instr.init, .lastFailure, .getcount] ∨ (∃ d, i = .setWriteDelay d) →
    s.phase = .uninit → exec i s = .next t → t ≠ marked s (.fault .uninit) ∧ t ≠ marked s (.fault .reinit)) ∧
  (∀ (s t : State) (i : Instr), i ≠ .init → s.phase = .ready → exec i s = .next t →
    t ≠ marked s (.fault .uninit) ∧ t ≠ marked s (.fault .reinit))

/-- R122: burst gating in the READY phase, and the six operations that are allowed in both burst states. -/
def Obligations.BurstGating : Prop :=
  (∀ s : State, s.phase = .ready → s.burst = .opened →
    exec .startSeqRead s = .next (marked s (.fault .burst)) ∧
    (∀ v, exec (.writeByte v) s = .next (marked s (.fault .burst))) ∧
    (∀ page, page.length = 64 → exec (.writePage page) s = .next (marked s (.fault .burst))) ∧
    (s.cfg.backend = .parallel → s.cfg.sdpPresent = true →
      ∀ i ∈ [Instr.sdpEnable, .sdpDisable], exec i s = .next (marked s (.fault .burst)))) ∧
  (∀ s : State, s.phase = .ready → s.burst = .none → ∀ l, exec (.nextByte l) s = .next (marked s (.fault .burst))) ∧
  (∀ (s t : State) (i : Instr), i ∈ [Instr.reset, .getcount, .lastFailure, .resetMemory] ∨ (∃ n, i = .advance n) ∨
      (∃ d, i = .setWriteDelay d) → exec i s = .next t → t ≠ marked s (.fault .burst)) ∧
  (∀ s t : State, s.phase = .ready → exec .resetMemory s = .next t → t.burst = .none)

/-! ## The address counter -/

/-- R101: RESET. -/
def Obligations.ResetSetsTheCounterToZero : Prop :=
  encode .reset = [0x01, 0x00, 0x00, 0x00] ∧
  (∀ s : State, s.phase = .uninit → exec .reset s = .next (marked s (.fault .uninit))) ∧
  (∀ s : State, s.phase = .ready → s.cfg.backend = .parallel → exec .reset s = .next
    { s with lines := { s.lines with rst := .deasserted }, hwctr := 0, ctr := some 0, trace := s.trace ++ [.pRstPulse],
             result := some .unit }) ∧
  (∀ s : State, s.phase = .ready → s.cfg.backend = .i2c → exec .reset s = .next
    { s with ctr := some 0, result := some .unit })

/-- R102: ADVANCE n, with n clock pulses on PARALLEL. -/
def Obligations.AdvanceAddsToTheCounter : Prop :=
  (∀ n : BitVec 24, encode (.advance n) = [0x02, n.extractLsb' 16 8, n.extractLsb' 8 8, n.extractLsb' 0 8]) ∧
  (∀ (s : State) (n : BitVec 24), s.phase = .uninit → exec (.advance n) s = .next (marked s (.fault .uninit))) ∧
  (∀ (s : State) (n : BitVec 24), s.phase = .ready → s.ctr = none →
    exec (.advance n) s = .next (marked s (.fault .counterUnset))) ∧
  (∀ (s : State) (n : BitVec 24) (c : Nat), s.phase = .ready → s.ctr = some c → s.cfg.capacity < c + n.toNat →
    exec (.advance n) s = .next (marked s (.fault (.overflow c n.toNat)))) ∧
  (∀ (s : State) (n : BitVec 24) (c : Nat), s.phase = .ready → s.ctr = some c → c + n.toNat ≤ s.cfg.capacity →
    s.cfg.backend = .parallel → exec (.advance n) s = .next
      { s with ctr := some (c + n.toNat),
               hwctr := if n.toNat = 0 then s.hwctr else (s.hwctr + n.toNat) % 2 ^ s.cfg.ctrBits,
               lines := if n.toNat = 0 then s.lines else { s.lines with clk := .deasserted },
               trace := s.trace ++ List.replicate n.toNat .pClkPulse, result := some .unit }) ∧
  (∀ (s : State) (n : BitVec 24) (c : Nat), s.phase = .ready → s.ctr = some c → c + n.toNat ≤ s.cfg.capacity →
    s.cfg.backend = .i2c → exec (.advance n) s = .next { s with ctr := some (c + n.toNat), result := some .unit })

/-- R104: GETCOUNT. -/
def Obligations.GetcountReturnsTheCounter : Prop :=
  encode .getcount = [0x03, 0x00, 0x00, 0x00] ∧
  (∀ s : State, s.ctr = none → exec .getcount s = .next (marked s (.fault .counterUnset))) ∧
  (∀ (s : State) (c : Nat), s.ctr = some c → exec .getcount s = .next { s with result := some (.count c) })

/-- R105: only RESET and the SDP sequences lower the counter. The spec marks rule R105 as its own inference. -/
def Obligations.CounterIsMonotone : Prop :=
  ∀ (s t : State) (i : Instr) (c : Nat), i ≠ .reset → i ≠ .sdpEnable → i ≠ .sdpDisable → s.ctr = some c →
    exec i s = .next t → ∃ c', t.ctr = some c' ∧ c ≤ c'

/-- R103, R128 to R130, R158, R280: a device access needs a counter that is set and below CAPACITY: write_byte,
start_sequential_read, a PARALLEL next_byte, and a write_page, which checks its alignment before CAPACITY. -/
def Obligations.AccessNeedsACounterBelowCapacity : Prop :=
  (∀ (s : State) (c : Nat), AtCounter s c → s.cfg.capacity ≤ c →
    exec .startSeqRead s = .next (marked s (.fault (.overflow c 0))) ∧
    (∀ v, exec (.writeByte v) s = .next (marked s (.fault (.overflow c 0)))) ∧
    (∀ page, page.length = 64 → c % 64 = 0 → exec (.writePage page) s = .next (marked s (.fault (.overflow c 64))))) ∧
  (∀ (s : State) (c : Nat) (l : Bool), s.cfg.backend = .parallel → s.phase = .ready → s.burst = .opened → s.ctr = some c →
    s.cfg.capacity ≤ c → exec (.nextByte l) s = .next (marked s (.fault (.overflow c 0)))) ∧
  (∀ s : State, s.phase = .ready → s.burst = .none → s.ctr = none →
    exec .startSeqRead s = .next (marked s (.fault .counterUnset)) ∧
    (∀ v, exec (.writeByte v) s = .next (marked s (.fault .counterUnset))) ∧
    (∀ page, page.length = 64 → exec (.writePage page) s = .next (marked s (.fault .counterUnset)))) ∧
  (∀ (s : State) (l : Bool), s.cfg.backend = .parallel → s.phase = .ready → s.burst = .opened → s.ctr = none →
    exec (.nextByte l) s = .next (marked s (.fault .counterUnset)))

/-! ## Control operations of the contract -/

/-- R133, R150, R203: INIT. -/
def Obligations.InitMakesTheBlockReady : Prop :=
  encode .init = [0x10, 0x00, 0x00, 0x00] ∧
  (∀ s : State, s.phase = .ready → exec .init s = .next (marked s (.fault .reinit))) ∧
  (∀ s : State, s.phase = .uninit → s.cfg.backend = .parallel → exec .init s = .next
    { s with phase := .ready, burst := .none, dbusDir := .input, trace := s.trace ++ [.pIdle], result := some .unit,
             lines := ⟨.deasserted, .deasserted, .deasserted, .deasserted, .deasserted⟩ }) ∧
  (∀ s : State, s.phase = .uninit → s.cfg.backend = .i2c → exec .init s = .next
    { s with phase := .ready, burst := .none, bus := .idle, txstate := .idle, result := some .unit })

/-- R131, R160, R208: RESET_MEMORY. The device's side of the STOP matters only where writes are pending (R65). -/
def Obligations.ResetMemoryIdlesLinesAndBus : Prop :=
  encode .resetMemory = [0x11, 0x00, 0x00, 0x00] ∧
  (∀ s : State, s.phase = .uninit → exec .resetMemory s = .next (marked s (.fault .uninit))) ∧
  (∀ s : State, s.phase = .ready → s.cfg.backend = .parallel → exec .resetMemory s = .next
    { s with burst := .none, dbusDir := .input, trace := s.trace ++ [.pIdle], result := some .unit,
             lines := ⟨.deasserted, .deasserted, .deasserted, .deasserted, .deasserted⟩ }) ∧
  (∀ s : State, s.phase = .ready → s.cfg.backend = .i2c → s.dev.pending = [] → exec .resetMemory s = .next
    { s with burst := .none, bus := .idle, txstate := .idle, trace := s.trace ++ [.iStop .stop], result := some .unit })

/-- R132: LAST_FAILURE returns the status; an unset status returns a value chosen by no rule. The free value stands for
draw() (log 7). -/
def Obligations.LastFailureReturnsTheStatus : Prop :=
  encode .lastFailure = [0x16, 0x00, 0x00, 0x00] ∧
  (∀ (s : State) (b : Byte), s.status = some b → exec .lastFailure s = .next { s with result := some (.byte b) }) ∧
  (∀ s : State, s.status = none →
    exec .lastFailure s = .next { s with draws := s.draws + 1, result := some (.byte (Config.freeByte s.draws)) })

/-- R134: SET_WRITE_DELAY. -/
def Obligations.SetWriteDelaySetsTheDelay : Prop :=
  (∀ d : BitVec 24, encode (.setWriteDelay d) = [0x17, d.extractLsb' 16 8, d.extractLsb' 8 8, d.extractLsb' 0 8]) ∧
  (∀ (s : State) (d : BitVec 24), exec (.setWriteDelay d) s = .next { s with wdelay := d.toNat, result := some .unit })

/-- R138: DELAY changes nothing of the block; its device side is rule R63: with the device idle, nothing; with a good delay the
write cycle ends; with a short one the pending bytes become free values and the device stays busy. The predicate is a least good
delay (log 19). -/
def Obligations.DelayActsOnTheDeviceOnly : Prop :=
  (∀ d : BitVec 24, encode (.delay d) = [0x70, d.extractLsb' 16 8, d.extractLsb' 8 8, d.extractLsb' 0 8]) ∧
  (∀ (s : State) (d : BitVec 24), ∃ t, exec (.delay d) s = .next t ∧
    t = { s with dev := t.dev, draws := t.draws, trace := s.trace ++ [.delay d.toNat], result := some .unit } ∧
    (DeviceIdle s → t.dev = s.dev ∧ t.draws = s.draws) ∧
    (¬ DeviceIdle s → t.dev.pending = [] ∧ t.dev.busy = !writeDelayOk s.cfg d.toNat ∧ t.dev.ptr = s.dev.ptr ∧
      (∀ a, (∀ c ∈ s.dev.pending, c.1 ≠ a) → memAt t a = memAt s a) ∧
      (writeDelayOk s.cfg d.toNat = false → ∀ c ∈ s.dev.pending, ∃ n, s.draws ≤ n ∧ memAt t c.1 = Config.freeByte n)))

/-! ## Reading -/

/-- R130, R159: START_SEQ_READ on PARALLEL. The status is a free value (log 7). -/
def Obligations.ParallelReadBurstOpens : Prop :=
  ∀ (s : State) (c : Nat), AtCounter s c → c < s.cfg.capacity → s.cfg.backend = .parallel → exec .startSeqRead s = .next
    { s with lines := { s.lines with we := .deasserted, ce := .asserted }, dbusDir := .input, burst := .opened,
             trace := s.trace ++ [.pSelect true], status := some (Config.freeByte s.draws), draws := s.draws + 1,
             result := some (.flag true) }

/-- R130, R204, R66: START_SEQ_READ on I2C with every expected status. The frame's device side rests on log 11. -/
def Obligations.I2cReadBurstOpens : Prop :=
  ∀ (s : State) (c : Nat), configOk s.cfg = true → AtCounter s c → c < s.cfg.capacity → s.cfg.backend = .i2c →
    Cooperative s → ∃ t, exec .startSeqRead s = .next t ∧ t =
      { s with bus := .held, txstate := .slaveAddrReadAck, burst := .opened, status := some s.cfg.expSlaRAck,
               trace := s.trace ++ readFrameEvents s.cfg c, oracle := t.oracle, dev := t.dev, result := some (.flag true) } ∧
      Cooperative t ∧ t.dev = { s.dev with ptr := c, addrHi := t.dev.addrHi }

/-- R202, R215, R124: a step whose code does not match stops the bus, whichever step of START_SEQ_READ, of WRITE_BYTE or of
WRITE_PAGE's frame it is: the operation returns false, the status holds the code, the trace ends with that step and STOP, no DELAY
follows and the counter is as it was. With the second step of START_SEQ_READ (the slave does not answer its address) nothing of the
device changes; a data byte that is refused makes the addressed byte a free value and leaves the device busy (R68). Stated where no
device write is pending. The spec marks rule R215 as its own inference. The device's side of the frame rests on log 11 and log 12,
and that the STOP of an aborted frame leaves busy as it was on log 24. -/
def Obligations.MismatchStopsTheBus : Prop :=
  (∀ (s : State) (c : Nat) (raw : Byte) (l : List (Option Byte)), configOk s.cfg = true → AtCounter s c →
    c < s.cfg.capacity → s.cfg.backend = .i2c → s.dev.pending = [] → s.oracle.script = none :: some raw :: l →
    raw &&& s.cfg.statusMask ≠ s.cfg.expSlaWAck → exec .startSeqRead s = .next
      { s with bus := .idle, txstate := .idle, burst := .none, status := some (raw &&& s.cfg.statusMask),
               oracle := { s.oracle with script := l }, result := some (.flag false),
               trace := s.trace ++ [.iStart s.cfg.expStart .start,
                 .iTx .slaW (s.cfg.devAddr7 ++ 0#1) (raw &&& s.cfg.statusMask) .slaveAddrAck, .iStop .stop] }) ∧
  (∀ (s : State) (c k : Nat) (raw exp : Byte) (event : Byte → Event) (l : List (Option Byte)), configOk s.cfg = true →
    AtCounter s c → c < s.cfg.capacity → s.cfg.backend = .i2c → s.dev.pending = [] →
    s.oracle.script = List.replicate k none ++ some raw :: l → raw &&& s.cfg.statusMask ≠ exp →
    let code := raw &&& s.cfg.statusMask
    ((readSteps s.cfg c)[k]? = some (exp, event) → ∃ t, exec .startSeqRead s = .next t ∧ t =
      { s with bus := .idle, txstate := .idle, burst := .none, status := some code, oracle := { s.oracle with script := l },
               trace := s.trace ++ (readFrameEvents s.cfg c).take k ++ [event code, .iStop .stop],
               dev := { s.dev with ptr := t.dev.ptr, addrHi := t.dev.addrHi }, result := some (.flag false) }) ∧
    (∀ v, (writeByteSteps s.cfg c v)[k]? = some (exp, event) → ∃ t, exec (.writeByte v) s = .next t ∧ t =
      { s with bus := .idle, txstate := .idle, status := some code, oracle := { s.oracle with script := l }, dev := t.dev,
               trace := s.trace ++ (frameEvents s.cfg c).take k ++ [event code, .iStop .stop], draws := t.draws,
               result := some (.flag false) } ∧
      (k < 4 → t.dev = { s.dev with ptr := t.dev.ptr, addrHi := t.dev.addrHi } ∧ t.draws = s.draws) ∧
      (k = 4 → t.dev.pending = [] ∧ t.dev.busy = true ∧ t.dev.latch = s.dev.latch ∧
        (∃ n, s.draws ≤ n ∧ memAt t c = Config.freeByte n) ∧ ∀ x, x ≠ c → memAt t x = memAt s x)) ∧
    (∀ page : List Byte, page.length = 64 → c % 64 = 0 → k < 4 → (readSteps s.cfg c)[k]? = some (exp, event) →
      ∃ t, exec (.writePage page) s = .next t ∧ t =
        { s with bus := .idle, txstate := .idle, status := some code, oracle := { s.oracle with script := l },
                 trace := s.trace ++ (frameEvents s.cfg c).take k ++ [event code, .iStop .stop],
                 dev := { s.dev with ptr := t.dev.ptr, addrHi := t.dev.addrHi }, result := some (.flag false) }))

/-- R158, R61: NEXT_BYTE on PARALLEL reads the byte at the address the hardware counter gives, and does not move it; a busy
device, pending writes or a bad hold make the byte a free value, and the read completes all the same. The order of the draws
is the model's (log 7). -/
def Obligations.ParallelNextByteReadsMemory : Prop :=
  ∀ (s : State) (c : Nat) (l : Bool), s.phase = .ready → s.burst = .opened → s.ctr = some c → c < s.cfg.capacity →
    s.cfg.backend = .parallel → LinesBetween s →
    let b := memAt s (s.hwctr % s.cfg.capacity)
    let d := Config.freeByte s.draws
    (DeviceIdle s → s.cfg.holdOk = true → exec (.nextByte l) s = .next
      { s with lines := ⟨if l then .deasserted else .asserted, .deasserted, .deasserted, .deasserted, .deasserted⟩,
               burst := if l then .none else .opened, status := some (Config.freeByte s.draws), draws := s.draws + 1,
               trace := s.trace ++ (if l then [.pReadStrobe b, .pSelect false] else [.pReadStrobe b]),
               result := some (.byteFlag b true) }) ∧
    (¬ DeviceIdle s ∨ s.cfg.holdOk = false → exec (.nextByte l) s = .next
      { s with lines := ⟨if l then .deasserted else .asserted, .deasserted, .deasserted, .deasserted, .deasserted⟩,
               burst := if l then .none else .opened, status := some (Config.freeByte (s.draws + 1)), draws := s.draws + 2,
               trace := s.trace ++ (if l then [.pReadStrobe d, .pSelect false] else [.pReadStrobe d]),
               result := some (.byteFlag d true) })

/-- R205, R67, R214: NEXT_BYTE on I2C with the expected status: an ACK keeps the bus held, a NACK is followed by STOP; the
byte is the device's at its own pointer, which steps with the wrap of R78. -/
def Obligations.I2cNextByteReadsMemory : Prop :=
  ∀ (s : State) (l : Bool), configOk s.cfg = true → s.phase = .ready → s.burst = .opened → s.cfg.backend = .i2c →
    Cooperative s → DeviceIdle s → ∃ t, exec (.nextByte l) s = .next t ∧ Cooperative t ∧ t =
      { s with oracle := t.oracle, dev := { s.dev with ptr := (s.dev.ptr + 1) % s.cfg.capacity },
               bus := if l then .idle else s.bus, txstate := if l then .idle else .dataByteAck,
               burst := if l then .none else .opened, status := some (if l then s.cfg.expRxNack else s.cfg.expRxAck),
               trace := s.trace ++ (if l then [.iRxNack (memAt s s.dev.ptr) s.cfg.expRxNack .dataByteNack, .iStop .stop]
                 else [.iRxAck (memAt s s.dev.ptr) s.cfg.expRxAck .dataByteAck]),
               result := some (.byteFlag (memAt s s.dev.ptr) true) }

/-- R127, R202: a read step with a code that does not match aborts: the call returns a free byte and false, the burst is
closed, the bus stopped, the status holds the code, and memory is as it was. The device's pointer has stepped all the same (R59,
R67). The returned byte is a fresh draw (log 22); that the STOP leaves the device busy only where writes are pending is log 24. -/
def Obligations.I2cNextByteMismatchAborts : Prop :=
  ∀ (s : State) (l : Bool) (raw : Byte) (r : List (Option Byte)), s.phase = .ready → s.burst = .opened →
    s.cfg.backend = .i2c → s.oracle.script = some raw :: r →
    raw &&& s.cfg.statusMask ≠ (if l then s.cfg.expRxNack else s.cfg.expRxAck) →
    ∃ b b' n, exec (.nextByte l) s = .next
      { s with burst := .none, bus := .idle, txstate := .idle, status := some (raw &&& s.cfg.statusMask),
               oracle := { s.oracle with script := r }, draws := n,
               trace := s.trace ++ [if l then .iRxNack b' (raw &&& s.cfg.statusMask) .dataByteNack
                 else .iRxAck b' (raw &&& s.cfg.statusMask) .dataByteAck, .iStop .stop],
               dev := { s.dev with ptr := (s.dev.ptr + 1) % s.cfg.capacity, busy := s.dev.busy || !s.dev.pending.isEmpty },
               result := some (.byteFlag b false) } ∧
      ∃ k, b = Config.freeByte k

/-! ## Writing -/

/-- R125: a misaligned page write fails with 0xFF and does nothing else, on both backends and whatever the bus answers. -/
def Obligations.MisalignedPageWriteFails : Prop :=
  ∀ (s : State) (c : Nat) (page : List Byte), AtCounter s c → page.length = 64 → c % 64 ≠ 0 →
    exec (.writePage page) s = .next { s with status := some 0xFF, result := some (.flag false) }

/-- R128, R161, R62 to R64: WRITE_BYTE on PARALLEL, with good holds, an idle unlocked device and a good delay. -/
def Obligations.ParallelWriteByteStores : Prop :=
  ∀ (s : State) (c : Nat) (v : Byte), configOk s.cfg = true → AtCounter s c → c < s.cfg.capacity →
    s.cfg.backend = .parallel → DeviceIdle s → Unlocked s → s.cfg.holdOk = true → writeDelayOk s.cfg s.wdelay = true →
    exec (.writeByte v) s = .next
      { s with lines := { s.lines with ce := .deasserted, oe := .deasserted, we := .deasserted }, dbusDir := .input,
               dbusOut := v, dev := { s.dev with mem := memWrite s.dev.mem (s.hwctr % s.cfg.capacity) v },
               trace := s.trace ++ [.pWriteStrobe v, .delay s.wdelay], status := some (Config.freeByte s.draws),
               draws := s.draws + 1, result := some (.flag true) }

/-- R128, R206, R65: WRITE_BYTE on I2C, with every expected status, an idle device and a good delay. The pointer and the
address-high byte are left open here (log 11). -/
def Obligations.I2cWriteByteStores : Prop :=
  ∀ (s : State) (c : Nat) (v : Byte), configOk s.cfg = true → AtCounter s c → c < s.cfg.capacity →
    s.cfg.backend = .i2c → Cooperative s → DeviceIdle s → writeDelayOk s.cfg s.wdelay = true →
    ∃ t, exec (.writeByte v) s = .next t ∧ Cooperative t ∧ t =
      { s with bus := .idle, txstate := .idle, status := some s.cfg.expTxAck, oracle := t.oracle,
               dev := { s.dev with mem := memWrite s.dev.mem c v, ptr := t.dev.ptr, addrHi := t.dev.addrHi },
               trace := s.trace ++ frameEvents s.cfg c ++
                 [.iTx .data v s.cfg.expTxAck .dataByteAck, .iStop .stop, .delay s.wdelay],
               result := some (.flag true) }

/-- R124, R128, R68: the frame of WRITE_BYTE, for every answer of the bus, every delay and every device: only the addressed
byte of memory can change, and of the block only the lines, the data bus, the status, the bus state and the trace. -/
def Obligations.WriteByteFrame : Prop :=
  ∀ (s t : State) (c : Nat) (v : Byte), configOk s.cfg = true → AtCounter s c → c < s.cfg.capacity → s.dev.pending = [] →
    exec (.writeByte v) s = .next t →
    t = { s with lines := t.lines, dbusDir := t.dbusDir, dbusOut := t.dbusOut, status := t.status, bus := t.bus,
                 txstate := t.txstate, trace := t.trace, oracle := t.oracle, draws := t.draws, dev := t.dev,
                 result := t.result } ∧
    t.dev.pending = [] ∧ t.dev.latch = s.dev.latch ∧
    ∀ x, x ≠ (if s.cfg.backend = .parallel then s.hwctr % s.cfg.capacity else c) → memAt t x = memAt s x

/-- R129, R162: WRITE_PAGE on PARALLEL: 64 strobes and pulses, the counter one page further; with an idle unlocked device,
good holds and a good delay the page is in memory and nothing else is changed there. -/
def Obligations.ParallelWritePageStores : Prop :=
  ∀ (s : State) (c : Nat) (page : List Byte), configOk s.cfg = true → AtCounter s c → c < s.cfg.capacity → c % 64 = 0 →
    page.length = 64 → s.cfg.backend = .parallel → s.hwctr = c % 2 ^ s.cfg.ctrBits →
    ∃ t, exec (.writePage page) s = .next t ∧ t =
      { s with lines := ⟨.deasserted, .deasserted, .deasserted, .deasserted, s.lines.rst⟩, dbusDir := .input,
               dbusOut := t.dbusOut, ctr := some (c + 64), hwctr := (c + 64) % 2 ^ s.cfg.ctrBits,
               trace := s.trace ++ pageEvents page ++ [.delay s.wdelay], status := t.status, draws := t.draws, dev := t.dev,
               result := some (.flag true) } ∧
      t.status ≠ none ∧
      (DeviceIdle s → Unlocked s → s.cfg.holdOk = true → writeDelayOk s.cfg s.wdelay = true →
        DeviceIdle t ∧ (∀ i, i < 64 → memAt t (c + i) = pageByte page i) ∧
        (∀ x, x < c ∨ c + 64 ≤ x → memAt t x = memAt s x))

/-- R129, R207, R65: WRITE_PAGE on I2C with every expected status: frame, 64 data bytes, STOP, DELAY. -/
def Obligations.I2cWritePageStores : Prop :=
  ∀ (s : State) (c : Nat) (page : List Byte), configOk s.cfg = true → AtCounter s c → c < s.cfg.capacity → c % 64 = 0 →
    page.length = 64 → s.cfg.backend = .i2c → Cooperative s → DeviceIdle s → writeDelayOk s.cfg s.wdelay = true →
    ∃ t, exec (.writePage page) s = .next t ∧ Cooperative t ∧ t =
      { s with bus := .idle, txstate := .idle, ctr := some (c + 64), status := some s.cfg.expTxAck, oracle := t.oracle,
               dev := t.dev, result := some (.flag true),
               trace := s.trace ++ frameEvents s.cfg c ++ dataEvents s.cfg page ++ [.iStop .stop, .delay s.wdelay] } ∧
      DeviceIdle t ∧ t.dev.latch = s.dev.latch ∧ (∀ i, i < 64 → memAt t (c + i) = pageByte page i) ∧
      (∀ x, x < c ∨ c + 64 ≤ x → memAt t x = memAt s x)

/-- R126, R207, R202: a page write whose data byte k is not acknowledged leaves the counter at base + k, the code in the
status, the bus idle, no DELAY in the trace, and every address outside the page as it was. That an address-low mismatch does
not spoil is not used here (log 12). -/
def Obligations.PartialPageAdvance : Prop :=
  ∀ (s : State) (c k : Nat) (page : List Byte) (raw : Byte) (l : List (Option Byte)), configOk s.cfg = true →
    AtCounter s c → c < s.cfg.capacity → c % 64 = 0 → page.length = 64 → k < 64 → s.cfg.backend = .i2c → DeviceIdle s →
    s.oracle.script = List.replicate (4 + k) none ++ some raw :: l → raw &&& s.cfg.statusMask ≠ s.cfg.expTxAck →
    ∃ t, exec (.writePage page) s = .next t ∧ t =
      { s with ctr := some (c + k), status := some (raw &&& s.cfg.statusMask), bus := .idle, txstate := .idle,
               trace := s.trace ++ frameEvents s.cfg c ++ dataEvents s.cfg (page.take k) ++
                 [.iTx .data (pageByte page k) (raw &&& s.cfg.statusMask) .dataByteAck, .iStop .stop],
               oracle := t.oracle, draws := t.draws, dev := t.dev, result := some (.flag false) } ∧
      t.dev.pending = [] ∧ t.dev.busy = true ∧ t.dev.latch = s.dev.latch ∧
      (∀ x, x < c ∨ c + 64 ≤ x → memAt t x = memAt s x)

/-- R126, R135: any failing page write on I2C leaves the counter between base and base + 63, whatever the bus answers, and
touches no address outside the page. -/
def Obligations.PageWriteFrame : Prop :=
  ∀ (s t : State) (c : Nat) (page : List Byte), configOk s.cfg = true → AtCounter s c → c < s.cfg.capacity → c % 64 = 0 →
    page.length = 64 → s.dev.pending = [] → (s.cfg.backend = .parallel → s.hwctr = c % 2 ^ s.cfg.ctrBits) →
    exec (.writePage page) s = .next t →
    t = { s with lines := t.lines, dbusDir := t.dbusDir, dbusOut := t.dbusOut, ctr := t.ctr, hwctr := t.hwctr,
                 status := t.status, bus := t.bus, txstate := t.txstate, trace := t.trace, oracle := t.oracle,
                 draws := t.draws, dev := t.dev, result := t.result } ∧
      t.dev.pending = [] ∧ t.dev.latch = s.dev.latch ∧
      (∃ c', t.ctr = some c' ∧ c ≤ c' ∧ c' ≤ c + 64 ∧ (t.result = some (.flag true) → c' = c + 64) ∧
        (t.result = some (.flag false) → c' < c + 64)) ∧
      (t.result = some (.flag true) ∨ t.result = some (.flag false)) ∧
      ∀ x, x < c ∨ c + 64 ≤ x → memAt t x = memAt s x

/-- R63, R64, R173, R310: a parallel write that is lost returns true all the same: with a delay too short for the device the
byte becomes a free value and the device stays busy; with the latch LOCKED nothing of the device changes. The threshold form
of the predicate is log 19. -/
def Obligations.LostParallelWriteReturnsTrue : Prop :=
  ∀ (s : State) (c : Nat) (v : Byte), configOk s.cfg = true → AtCounter s c → c < s.cfg.capacity →
    s.cfg.backend = .parallel → DeviceIdle s → s.cfg.holdOk = true →
    (writeDelayOk s.cfg s.wdelay = false → ∃ t, exec (.writeByte v) s = .next t ∧ t.result = some (.flag true) ∧
      t.dev.busy = true ∧ t.dev.pending = [] ∧ memAt t (s.hwctr % s.cfg.capacity) = Config.freeByte s.draws ∧
      ∀ x, x ≠ s.hwctr % s.cfg.capacity → memAt t x = memAt s x) ∧
    (writeDelayOk s.cfg s.wdelay = true → s.cfg.devSdp = true → s.dev.latch = .locked →
      ∃ t, exec (.writeByte v) s = .next t ∧ t.result = some (.flag true) ∧ t.dev = s.dev)

/-- R65, R313: a busy device spoils the byte that arrives over I2C; the write returns true, and its good delay ends the cycle.
The reading of the busy case is log 32. -/
def Obligations.BusyDeviceSpoilsTheI2cByte : Prop :=
  ∀ (s : State) (c : Nat) (v : Byte), configOk s.cfg = true → AtCounter s c → c < s.cfg.capacity → s.cfg.backend = .i2c →
    Cooperative s → s.dev.busy = true → s.dev.pending = [] → writeDelayOk s.cfg s.wdelay = true →
    ∃ t, exec (.writeByte v) s = .next t ∧ t.result = some (.flag true) ∧ DeviceIdle t ∧
      memAt t c = Config.freeByte s.draws ∧ ∀ x, x ≠ c → memAt t x = memAt s x

/-- R79: the round-trip law. A page written at an aligned address, then RESET, ADVANCE to that address and a dump of 64 bytes
(START_SEQ_READ, then NEXT_BYTE and ADVANCE 1 for each byte, the last one marked) returns exactly the page. The spec marks
rule R79 as its own inference. -/
def Obligations.RoundTripLaw : Prop :=
  ∀ (s : State) (c : Nat) (page : List Byte), Inv s → AtCounter s c → c < s.cfg.capacity → c % 64 = 0 → c < 2 ^ 24 →
    page.length = 64 → (s.cfg.backend = .i2c → Cooperative s) → DeviceIdle s → Unlocked s → s.cfg.holdOk = true →
    writeDelayOk s.cfg s.wdelay = true →
    let t := issue (.writePage page) s
    let u := issue (.advance (BitVec.ofNat 24 c)) (issue .reset t)
    t.result = some (.flag true) ∧ t.ctr = some (c + 64) ∧
      (dump 64 u).bytes = page ∧ (dump 64 u).reply = .done ∧ (dump 64 u).state.ctr = some (c + 64) ∧
      (dump 64 u).state.burst = .none

/-! ## Software data protection -/

/-- R90, R170: SDP_ENABLE and SDP_DISABLE are refused on I2C and without SDP_PRESENT; with the feature, a sequence with an offset
at or above CAPACITY faults before any step. That of several such offsets the first is recorded is the model's choice (log 34). -/
def Obligations.SdpRefusalAndOffsetFault : Prop :=
  (∀ s : State, s.cfg.backend = .i2c ∨ s.cfg.sdpPresent = false →
    exec .sdpEnable s = .next (marked s (.refused .backend)) ∧ exec .sdpDisable s = .next (marked s (.refused .backend))) ∧
  (∀ (s : State) (pre post : List (Nat × Byte)) (o : Nat) (b : Byte), s.cfg.backend = .parallel → s.cfg.sdpPresent = true →
    s.phase = .ready → s.burst = .none → (∀ p ∈ pre, p.1 < s.cfg.capacity) → s.cfg.capacity ≤ o →
    (s.cfg.sdpEnableSeq = pre ++ (o, b) :: post → exec .sdpEnable s = .next (marked s (.fault (.overflow 0 o)))) ∧
    (s.cfg.sdpDisableSeq = pre ++ (o, b) :: post → exec .sdpDisable s = .next (marked s (.fault (.overflow 0 o)))))

/-- R170, R171, R64: SDP_ENABLE runs its six steps and one DELAY; the counter ends at the last offset, the status is unchanged;
a device with a latch is locked, and no address but the six offsets changes. That only a device with DEV_SDP has a latch is
log 13. -/
def Obligations.SdpEnableLocksTheLatch : Prop :=
  ∀ (s : State) (o : Nat) (b : Byte), configOk s.cfg = true → s.cfg.backend = .parallel → s.cfg.sdpPresent = true →
    s.phase = .ready → s.burst = .none → (∀ p ∈ s.cfg.sdpEnableSeq, p.1 < s.cfg.capacity) →
    s.cfg.sdpEnableSeq.getLast? = some (o, b) →
    ∃ t, exec .sdpEnable s = .next t ∧ t =
      { s with lines := t.lines, dbusDir := t.dbusDir, dbusOut := t.dbusOut, ctr := some o, hwctr := o,
               trace := s.trace ++ sdpEvents s.cfg.sdpEnableSeq ++ [.delay s.wdelay], draws := t.draws, dev := t.dev,
               result := some .unit } ∧
      t.dev.ptr = s.dev.ptr ∧ t.dev.addrHi = s.dev.addrHi ∧
      (DeviceIdle s → s.cfg.holdOk = true → writeDelayOk s.cfg s.wdelay = true → s.cfg.devSdp = true →
        t.dev.latch = .locked ∧ DeviceIdle t ∧
        ∀ x, (∀ p ∈ s.cfg.sdpEnableSeq, p.1 ≠ x) → memAt t x = memAt s x)

/-- R170, R172, R64: SDP_DISABLE, likewise; it unlocks a device with a latch where its sequence is not the enable sequence.
That only a device with DEV_SDP has a latch is log 13. -/
def Obligations.SdpDisableUnlocksTheLatch : Prop :=
  ∀ (s : State) (o : Nat) (b : Byte), configOk s.cfg = true → s.cfg.backend = .parallel → s.cfg.sdpPresent = true →
    s.phase = .ready → s.burst = .none → (∀ p ∈ s.cfg.sdpDisableSeq, p.1 < s.cfg.capacity) →
    s.cfg.sdpDisableSeq.getLast? = some (o, b) →
    ∃ t, exec .sdpDisable s = .next t ∧ t =
      { s with lines := t.lines, dbusDir := t.dbusDir, dbusOut := t.dbusOut, ctr := some o, hwctr := o,
               trace := s.trace ++ sdpEvents s.cfg.sdpDisableSeq ++ [.delay s.wdelay], draws := t.draws, dev := t.dev,
               result := some .unit } ∧
      t.dev.ptr = s.dev.ptr ∧ t.dev.addrHi = s.dev.addrHi ∧
      (DeviceIdle s → s.cfg.holdOk = true → writeDelayOk s.cfg s.wdelay = true → s.cfg.devSdp = true →
        s.cfg.sdpDisableSeq ≠ s.cfg.sdpEnableSeq →
        t.dev.latch = .unlocked ∧ DeviceIdle t ∧
        ∀ x, (∀ p ∈ s.cfg.sdpDisableSeq, p.1 ≠ x) → memAt t x = memAt s x)

/-! ## Micro-operations -/

/-- R151, R152, R154, R155: the parallel micro-operations without the device, on a PARALLEL instance. -/
def Obligations.ParallelLineMicroOperations : Prop :=
  ∀ s : State, s.cfg.backend = .parallel →
    exec .pRstPulse s = .next
      { s with lines := { s.lines with rst := .deasserted }, hwctr := 0, trace := s.trace ++ [.pRstPulse],
               result := some .unit } ∧
    exec .pClkPulse s = .next
      { s with lines := { s.lines with clk := .deasserted }, hwctr := (s.hwctr + 1) % 2 ^ s.cfg.ctrBits,
               trace := s.trace ++ [.pClkPulse], result := some .unit } ∧
    exec .pIdle s = .next
      { s with lines := ⟨.deasserted, .deasserted, .deasserted, .deasserted, .deasserted⟩, dbusDir := .input,
               trace := s.trace ++ [.pIdle], result := some .unit } ∧
    exec (.pSelect true) s = .next
      { s with lines := { s.lines with we := .deasserted, ce := .asserted }, dbusDir := .input,
               trace := s.trace ++ [.pSelect true], result := some .unit } ∧
    exec (.pSelect false) s = .next
      { s with lines := { s.lines with oe := .deasserted, ce := .deasserted }, trace := s.trace ++ [.pSelect false],
               result := some .unit }

/-- R156, R157, R61, R62: P_READ_STROBE under its entry invariant samples the device's byte, a free value where the device is
busy, has writes pending or the holds are bad. P_WRITE_STROBE leaves CE, OE and WE deasserted and the data bus an input, and adds
the byte (a free one where the holds are bad) to the device's pending writes; a busy device loses the addressed byte instead.
The free values are those of log 7. -/
def Obligations.ParallelStrobesReachTheDevice : Prop :=
  (∀ s : State, s.cfg.backend = .parallel → s.lines.ce = .asserted → s.lines.we = .deasserted → s.dbusDir = .input →
    (DeviceIdle s → s.cfg.holdOk = true → exec .pReadStrobe s = .next
      { s with lines := { s.lines with oe := .deasserted },
               trace := s.trace ++ [.pReadStrobe (memAt s (s.hwctr % s.cfg.capacity))],
               result := some (.byte (memAt s (s.hwctr % s.cfg.capacity))) }) ∧
    (¬ DeviceIdle s ∨ s.cfg.holdOk = false → exec .pReadStrobe s = .next
      { s with lines := { s.lines with oe := .deasserted }, draws := s.draws + 1,
               trace := s.trace ++ [.pReadStrobe (Config.freeByte s.draws)],
               result := some (.byte (Config.freeByte s.draws)) })) ∧
  (∀ (s : State) (v : Byte), s.cfg.backend = .parallel →
    let a := s.hwctr % s.cfg.capacity
    let d := Config.freeByte s.draws
    ∃ t, exec (.pWriteStrobe v) s = .next t ∧ t =
      { s with lines := { s.lines with ce := .deasserted, oe := .deasserted, we := .deasserted }, dbusDir := .input,
               dbusOut := v, trace := s.trace ++ [.pWriteStrobe v], result := some .unit, dev := t.dev, draws := t.draws } ∧
      (s.dev.busy = false → s.cfg.holdOk = true →
        t.dev = { s.dev with pending := s.dev.pending ++ [(a, v)] } ∧ t.draws = s.draws) ∧
      (s.dev.busy = false → s.cfg.holdOk = false →
        t.dev = { s.dev with pending := s.dev.pending ++ [(a, d)] } ∧ t.draws = s.draws + 1) ∧
      (s.dev.busy = true → t.dev = { s.dev with mem := memWrite s.dev.mem a d } ∧ t.draws = s.draws + 1))

/-- R195 to R197: I_START, I_REPSTART and I_STOP on an I2C instance, whatever raw status the bus answers; a scripted answer is the
raw status. The state an event holds is log 20; that STOP starts a cycle only for loaded data is log 24. -/
def Obligations.I2cConditionMicroOperations : Prop :=
  ∀ s : State, s.cfg.backend = .i2c →
    (∃ (raw : Byte) (o : BusOracle) (n : Nat), exec .iStart s = .next
        { s with bus := .held, oracle := o, draws := n,
                 txstate := if raw &&& s.cfg.statusMask = s.cfg.expStart then .start else s.txstate,
                 trace := s.trace ++ [.iStart (raw &&& s.cfg.statusMask) .start],
                 result := some (.byte (raw &&& s.cfg.statusMask)) } ∧
      ∀ r l, s.oracle.script = some r :: l → raw = r ∧ o = { s.oracle with script := l } ∧ n = s.draws) ∧
    (∃ (raw : Byte) (o : BusOracle) (n : Nat), exec .iRepStart s = .next
        { s with oracle := o, draws := n,
                 txstate := if raw &&& s.cfg.statusMask = s.cfg.expRepStart then .repeatedStart else s.txstate,
                 trace := s.trace ++ [.iRepStart (raw &&& s.cfg.statusMask) .repeatedStart],
                 result := some (.byte (raw &&& s.cfg.statusMask)) } ∧
      ∀ r l, s.oracle.script = some r :: l → raw = r ∧ o = { s.oracle with script := l } ∧ n = s.draws) ∧
    exec .iStop s = .next
      { s with bus := .idle, txstate := .idle, trace := s.trace ++ [.iStop .stop], result := some .unit,
               dev := { s.dev with busy := s.dev.busy || !s.dev.pending.isEmpty } }

/-- R198, R65: I_TX, for every role and whatever raw status the bus answers: the expected code and the state go by the role; the
device sees address bytes and data bytes, and a busy one loses the addressed byte to a free value. That the address-high byte is
kept for the address-low step, which forms the pointer, is log 11; that a byte the device does not acknowledge changes nothing of it
is log 12, the busy device's exception to that log 32; the state an event holds is log 20. -/
def Obligations.TransmitChecksTheRolesCode : Prop :=
  ∀ (s : State) (v : Byte), s.cfg.backend = .i2c →
    ∀ p ∈ [(Role.slaW, s.cfg.expSlaWAck, TxState.slaveAddrAck), (.addrHi, s.cfg.expTxAck, .hiAddrByteAck),
           (.addrLo, s.cfg.expTxAck, .loAddrByteAck), (.data, s.cfg.expTxAck, .dataByteAck),
           (.slaR, s.cfg.expSlaRAck, .slaveAddrReadAck)],
      ∃ (raw : Byte) (t : State),
        let c := raw &&& s.cfg.statusMask
        exec (.iTx p.1 v) s = .next t ∧ t =
          { s with oracle := t.oracle, txstate := if c = p.2.1 then p.2.2 else s.txstate,
                   trace := s.trace ++ [.iTx p.1 v c p.2.2], result := some (.byte c), dev := t.dev, draws := t.draws } ∧
        (∀ r l, s.oracle.script = some r :: l → raw = r ∧ t.oracle = { s.oracle with script := l }) ∧
        (p.1 = .slaW ∨ p.1 = .slaR → t.dev = s.dev) ∧
        (c ≠ p.2.1 → (p.1 = .data → s.dev.busy = false) → t.dev = s.dev) ∧
        (p.1 ≠ .data → t.dev.mem = s.dev.mem ∧ t.dev.pending = s.dev.pending ∧ t.dev.busy = s.dev.busy) ∧
        (p.1 = .addrHi → c = p.2.1 → t.dev = { s.dev with addrHi := v }) ∧
        (p.1 = .addrLo → c = p.2.1 → t.dev = { s.dev with ptr := (s.dev.addrHi.toNat * 256 + v.toNat) % s.cfg.capacity }) ∧
        (p.1 = .data → s.dev.busy = false → c = p.2.1 → t.dev =
          { s.dev with pending := s.dev.pending ++ [(s.dev.ptr, v)],
                       ptr := s.dev.ptr / 64 * 64 + (s.dev.ptr + 1) % 64 }) ∧
        (p.1 = .data → s.dev.busy = true → t.dev.pending = s.dev.pending ∧ t.dev.busy = true ∧
          t.dev.ptr = s.dev.ptr / 64 * 64 + (s.dev.ptr + 1) % 64 ∧
          (∃ n, s.draws ≤ n ∧ memAt t s.dev.ptr = Config.freeByte n) ∧ ∀ x, x ≠ s.dev.ptr → memAt t x = memAt s x)

/-- R199, R200, R59, R67: I_RX_ACK and I_RX_NACK, whatever raw status the bus answers: the device's pointer steps; a match
returns the device's byte (a free one where the device is busy or has writes pending), a mismatch a free byte. The state an event
holds is log 20; that a declined byte steps the pointer too is log 25. -/
def Obligations.ReceiveReturnsByteAndCode : Prop :=
  ∀ s : State, s.cfg.backend = .i2c →
    let next := { s.dev with ptr := (s.dev.ptr + 1) % s.cfg.capacity }
    (∃ (raw b : Byte) (t : State),
      let c := raw &&& s.cfg.statusMask
      exec .iRxAck s = .next t ∧ t =
        { s with oracle := t.oracle, draws := t.draws, txstate := if c = s.cfg.expRxAck then .dataByteAck else s.txstate,
                 dev := next,
                 trace := s.trace ++ [.iRxAck b c .dataByteAck], result := some (.byteCode b c) } ∧
      (c = s.cfg.expRxAck → DeviceIdle s → b = memAt s s.dev.ptr) ∧
      (c ≠ s.cfg.expRxAck ∨ ¬ DeviceIdle s → ∃ n, s.draws ≤ n ∧ b = Config.freeByte n) ∧
      ∀ r l, s.oracle.script = some r :: l → raw = r ∧ t.oracle = { s.oracle with script := l }) ∧
    (∃ (raw b : Byte) (t : State),
      let c := raw &&& s.cfg.statusMask
      exec .iRxNack s = .next t ∧ t =
        { s with oracle := t.oracle, draws := t.draws, txstate := if c = s.cfg.expRxNack then .dataByteNack else s.txstate,
                 dev := next,
                 trace := s.trace ++ [.iRxNack b c .dataByteNack], result := some (.byteCode b c) } ∧
      (c = s.cfg.expRxNack → DeviceIdle s → b = memAt s s.dev.ptr) ∧
      (c ≠ s.cfg.expRxNack ∨ ¬ DeviceIdle s → ∃ n, s.draws ≤ n ∧ b = Config.freeByte n) ∧
      ∀ r l, s.oracle.script = some r :: l → raw = r ∧ t.oracle = { s.oracle with script := l })

/-- R27, R153: each of the five lines is at its own POL_L where it is asserted, at the other level where it is deasserted, and at
none before INIT; so INIT puts every line of a PARALLEL instance at its inactive level, and a read burst puts CE at POL_CE. -/
def Obligations.LineLevelsFollowPolarity : Prop :=
  (∀ s : State, ∀ p ∈ [(LineName.ce, s.lines.ce, s.cfg.polCe), (.oe, s.lines.oe, s.cfg.polOe), (.we, s.lines.we, s.cfg.polWe),
      (.clk, s.lines.clk, s.cfg.polClk), (.rst, s.lines.rst, s.cfg.polRst)],
    (p.2.1 = .asserted → lineLevel s p.1 = some p.2.2) ∧
    (p.2.1 = .deasserted → ∃ level, lineLevel s p.1 = some level ∧ level ≠ p.2.2) ∧
    (p.2.1 = .undriven → lineLevel s p.1 = none)) ∧
  (∀ s : State, s.phase = .uninit → s.cfg.backend = .parallel → ∃ t, exec .init s = .next t ∧
    ∀ p ∈ [(LineName.ce, s.cfg.polCe), (.oe, s.cfg.polOe), (.we, s.cfg.polWe), (.clk, s.cfg.polClk), (.rst, s.cfg.polRst)],
      ∃ level, lineLevel t p.1 = some level ∧ level ≠ p.2) ∧
  (∀ (s : State) (c : Nat), AtCounter s c → c < s.cfg.capacity → s.cfg.backend = .parallel →
    ∃ t, exec .startSeqRead s = .next t ∧ lineLevel t .ce = some s.cfg.polCe)

/-! ## The whole machine -/

/-- R282: every instruction has an enabled step in every state. -/
def Obligations.EveryInstructionAnswers : Prop :=
  ∀ (s : State) (i : Instr), ∃ t, exec i s = .next t

/-- R284: a faulted or refused operation leaves the state it found, apart from the mark. The spec marks rule R284 as its own
inference. That a marked state is a next state with an empty result channel is log 5 and log 6. -/
def Obligations.FaultsAndRefusalsArePrecise : Prop :=
  ∀ (s t : State) (i : Instr), exec i s = .next t → t.result = none → t = marked s t.mark ∧ t.mark ≠ .none

/-- R3, R30, R31: no step changes the configuration, drops an event of the trace or clears the mark, and a step that returns a
result leaves the mark as it was. -/
def Obligations.StepKeepsConfigurationTraceAndMark : Prop :=
  ∀ s t : State, step s = .next t → t.cfg = s.cfg ∧ t.origin = s.origin ∧ s.trace <+: t.trace ∧
    (s.mark ≠ .none → t.mark ≠ .none) ∧ (t.mark ≠ s.mark → t.result = none)

/-- R21, R24, R26, R124: which instructions may write the status, the counter, the write delay and the phase; and, from R61 to
R67 and R170, which may change the device's memory, latch or pending writes. -/
def Obligations.RegistersHaveTheirWriters : Prop :=
  ∀ (s t : State) (i : Instr), exec i s = .next t →
    (i ≠ .startSeqRead → (∀ l, i ≠ .nextByte l) → (∀ v, i ≠ .writeByte v) → (∀ page, i ≠ .writePage page) →
      t.status = s.status) ∧
    (i ≠ .reset → (∀ n, i ≠ .advance n) → (∀ page, i ≠ .writePage page) → i ≠ .sdpEnable → i ≠ .sdpDisable →
      t.ctr = s.ctr) ∧
    ((∀ d, i ≠ .setWriteDelay d) → t.wdelay = s.wdelay) ∧
    (i ≠ .init → t.phase = s.phase) ∧
    ((∀ v, i ≠ .writeByte v) → (∀ page, i ≠ .writePage page) → i ≠ .sdpEnable → i ≠ .sdpDisable → (∀ v, i ≠ .pWriteStrobe v) →
      (∀ role v, i ≠ .iTx role v) → (∀ d, i ≠ .delay d) →
      t.dev.mem = s.dev.mem ∧ t.dev.latch = s.dev.latch ∧ t.dev.pending = s.dev.pending)

/-- R163: a PARALLEL contract operation returns false only for a page write at a misaligned counter, with status 0xFF. The spec marks
rule R163 as its own inference. -/
def Obligations.ParallelFailsOnlyMisaligned : Prop :=
  ∀ (s t : State) (i : Instr), s.cfg.backend = .parallel → exec i s = .next t →
    (∀ b, t.result ≠ some (.byteFlag b false)) ∧
    (t.result = some (.flag false) → t.status = some 0xFF ∧ t.dev = s.dev ∧ t.trace = s.trace ∧
      ∃ page c, i = .writePage page ∧ s.ctr = some c ∧ c % 64 ≠ 0)

/-- R135: after an operation returns false the block is READY without a burst, the bus IDLE, and every later operation may
follow; from a state that meets the invariant. -/
def Obligations.FailureLeavesTheBusIdle : Prop :=
  ∀ (s t : State) (i : Instr), Inv s → i.isMicro = false → exec i s = .next t →
    (t.result = some (.flag false) ∨ ∃ b, t.result = some (.byteFlag b false)) →
    t.phase = .ready ∧ t.burst = .none ∧ t.bus = .idle ∧ t.txstate = .idle

/-- R192: with a mask that clears a bit, no I2C code stored in the status is the sentinel: a failing operation whose status is
0xFF is the misaligned page write. -/
def Obligations.SentinelIsNoBusCode : Prop :=
  ∀ (s t : State) (i : Instr), configOk s.cfg = true → s.cfg.backend = .i2c → exec i s = .next t → t.status = some 0xFF →
    s.status = some 0xFF ∨ ∃ page c, i = .writePage page ∧ s.ctr = some c ∧ c % 64 ≠ 0 ∧ t.dev = s.dev ∧ t.trace = s.trace

/-- R213: with a cooperative bus every I2C operation at the counter succeeds, with the expected code of its last step. The
spec marks rule R213 as its own inference. -/
def Obligations.CooperativeBusSucceeds : Prop :=
  ∀ (s : State), configOk s.cfg = true → s.cfg.backend = .i2c → Cooperative s →
    (∀ c, AtCounter s c → c < s.cfg.capacity →
      (∃ t, exec .startSeqRead s = .next t ∧ t.result = some (.flag true) ∧ t.status = some s.cfg.expSlaRAck) ∧
      (∀ v, ∃ t, exec (.writeByte v) s = .next t ∧ t.result = some (.flag true) ∧ t.status = some s.cfg.expTxAck) ∧
      (∀ page, page.length = 64 → c % 64 = 0 →
        ∃ t, exec (.writePage page) s = .next t ∧ t.result = some (.flag true) ∧ t.status = some s.cfg.expTxAck)) ∧
    (s.phase = .ready → s.burst = .opened → ∀ l, ∃ t b, exec (.nextByte l) s = .next t ∧
      t.result = some (.byteFlag b true) ∧ t.status = some (if l then s.cfg.expRxNack else s.cfg.expRxAck))

/-- The invariant of the operations (R22, R29, R103 and the canonical memory) is kept by every step, whatever the caller asks
for and the bus answers. The invariant is the model's own collection (rule R22 is the spec's own inference); its memory form
is log 10. -/
def Obligations.InvariantIsKept : Prop :=
  ∀ s t : State, Inv s → step s = .next t → Inv t

/-- The invariant holds at power-on of every configuration that meets its constraints, with any canonical contents of the device;
a power cycle keeps it; and it holds at reset. The reset configuration is log 2. -/
def Obligations.InvariantAtReset : Prop :=
  (∀ (c : Config) (m : Memory) (n : Nat), configOk c = true → Memory.wf m = true → (∀ x ∈ m, x.1 < c.capacity) →
    Inv (State.powerOn c m n)) ∧
  (∀ s : State, Inv s → Inv s.powerCycle) ∧ Inv State.reset

/-- R137: the two backends have the same external semantics on a page write: from states that agree on the counter and the
memory, under the premises of rule R137, both return true and leave the same counter and the same memory. The spec marks
rule R137 as its own inference. -/
def Obligations.BackendsAgreeOnPageWrite : Prop :=
  ∀ (p q : State) (c : Nat) (page : List Byte), Inv p → Inv q → p.cfg.backend = .parallel → q.cfg.backend = .i2c →
    p.cfg.capacity = q.cfg.capacity → p.dev.mem = q.dev.mem → AtCounter p c → AtCounter q c → c < p.cfg.capacity →
    c % 64 = 0 → page.length = 64 → DeviceIdle p → DeviceIdle q → Unlocked p → p.cfg.holdOk = true → Cooperative q →
    writeDelayOk p.cfg p.wdelay = true → writeDelayOk q.cfg q.wdelay = true →
    ∃ t u, exec (.writePage page) p = .next t ∧ exec (.writePage page) q = .next u ∧ t.result = u.result ∧
      t.ctr = u.ctr ∧ t.dev.mem = u.dev.mem

/-! ## Boot and the command layer -/

/-- R301: after boot the block is READY, the counter 0, no burst, the lines deasserted, the bus IDLE, the status unset. The
boot order is the spec's decision D30; boot is a function over the operations (log 3, log 26). -/
def Obligations.BootState : Prop :=
  ∀ (c : Config) (m : Memory) (n : Nat),
    let s := boot (State.powerOn c m n)
    s.phase = .ready ∧ s.ctr = some 0 ∧ s.burst = .none ∧ s.status = none ∧ s.bus = .idle ∧ s.txstate = .idle ∧
      s.mark = .none ∧ s.dev.mem = m ∧
      (c.backend = .parallel → s.hwctr = 0 ∧ LinesBetween s ∧ s.trace = [.pIdle, .pIdle, .pRstPulse]) ∧
      (c.backend = .i2c → s.trace = [.iStop .stop])

/-- R246: a dump of n bytes from the counter returns the n bytes of memory there, marks the last byte, and leaves the counter
n further, on both backends. The command layer's form is log 26. -/
def Obligations.DumpReturnsTheMemory : Prop :=
  ∀ (s : State) (c n : Nat), Inv s → AtCounter s c → 0 < n → c + n ≤ s.cfg.capacity →
    (s.cfg.backend = .i2c → Cooperative s) → DeviceIdle s → s.cfg.holdOk = true →
    (dump n s).bytes = (List.range n).map (fun i => memAt s (c + i)) ∧ (dump n s).reply = .done ∧
      (dump n s).state.ctr = some (c + n) ∧ (dump n s).state.burst = .none ∧ (dump n s).state.dev.mem = s.dev.mem

/-- R248, R251: `upblock 64` at a misaligned counter replies `Failed: FF` and leaves the counter. The command layer's form
is log 26. -/
def Obligations.MisalignedUpblockRepliesFailed : Prop :=
  ∀ (s : State) (c : Nat) (raw : List Byte), AtCounter s c → c % 64 ≠ 0 → raw.length = 64 →
    let e := runLine ['u', 'p', 'b', 'l', 'o', 'c', 'k', ' ', '6', '4', '\r'] raw s
    replyText e.reply = ['F', 'a', 'i', 'l', 'e', 'd', ':', ' ', 'F', 'F', '\r', '\n'] ∧ e.state.ctr = some c ∧
      e.state.dev = s.dev ∧ e.state.trace = s.trace

/-- R249, R250, R281: the commands without a meaning are refused with REFUSE_COMMAND and change nothing else. The command
layer's form is log 26. -/
def Obligations.MeaninglessCommandsAreRefused : Prop :=
  ∀ (s : State) (raw : List Byte) (n : Nat) (pattern : List Char),
    (runCommand (.testwrites n pattern) raw s).state = marked s (.refused .command) ∧
    (runCommand (.testreads n pattern) raw s).state = marked s (.refused .command) ∧
    (n ≠ 64 → (runCommand (.upblock n) raw s).state = marked s (.refused .command)) ∧
    (n ≠ 0 → (runCommand (.debug n) raw s).state = marked s (.refused .command) ∧
      (runCommand (.echo n) raw s).state = marked s (.refused .command)) ∧
    (runCommand (.debug 0) raw s).state = s ∧ (runCommand (.echo 0) raw s).state = s
end

