-- ==== Sys2Proof/Laws/Memory.lean ====
section
/-! SUPPORT. The laws of the device's memory: a read after a write, other addresses, and the canonical form. They hold for every
list of cells; only the canonical form needs `Memory.wf`. -/

namespace Sys2Proof.Machine

theorem memErase_cons_same {c : Host.Cell} {m : Memory} {a : Nat} (h : c.1 = a) : memErase (c :: m) a = memErase m a := by
  simp [memErase, h]

theorem memErase_cons_other {c : Host.Cell} {m : Memory} {a : Nat} (h : c.1 ≠ a) :
    memErase (c :: m) a = c :: memErase m a := by
  simp [memErase, h]

theorem memRead_erase (m : Memory) (a b : Nat) :
    memRead (memErase m a) b = if b = a then unlistedByte else memRead m b := by
  induction m with
  | nil => simp [memErase, memRead]
  | cons c m ih =>
    by_cases h : c.1 = a
    · rw [memErase_cons_same h, ih]
      by_cases hb : b = a
      · simp [hb]
      · have hcb : ¬ c.1 = b := by omega
        simp [hb, memRead, hcb]
    · rw [memErase_cons_other h, memRead, ih, memRead]
      by_cases hcb : c.1 = b
      · have hba : ¬ b = a := by omega
        simp [hcb, hba]
      · simp [hcb]

theorem memRead_insert (m : Memory) (x : Host.Cell) (b : Nat) (h : ∀ c ∈ m, c.1 ≠ x.1) :
    memRead (memInsert m x) b = if x.1 = b then x.2 else memRead m b := by
  induction m with
  | nil => simp [memInsert, memRead]
  | cons c m ih =>
    have hm : ∀ d ∈ m, d.1 ≠ x.1 := fun d hd => h d (List.mem_cons_of_mem _ hd)
    have hc : c.1 ≠ x.1 := h c (List.mem_cons_self ..)
    by_cases hlt : x.1 < c.1
    · simp [memInsert, hlt, memRead]
    · simp only [memInsert, hlt, if_false, memRead, ih hm]
      by_cases hb : c.1 = b
      · have : ¬ x.1 = b := by omega
        simp [hb, this]
      · simp [hb]

theorem mem_erase {m : Memory} {a : Nat} {c : Host.Cell} (h : c ∈ memErase m a) : c ∈ m ∧ c.1 ≠ a := by
  simpa [memErase] using h

theorem mem_insert {m : Memory} {x c : Host.Cell} (h : c ∈ memInsert m x) : c = x ∨ c ∈ m := by
  induction m with
  | nil => simpa [memInsert] using h
  | cons d m ih =>
    by_cases hlt : x.1 < d.1
    · simpa [memInsert, hlt] using h
    · simp only [memInsert, hlt, if_false, List.mem_cons] at h ⊢
      rcases h with h | h
      · exact .inr (.inl h)
      · exact (ih h).imp id .inr

/-- The byte at an address after a write. -/
theorem memRead_write (m : Memory) (a : Nat) (v : Byte) (b : Nat) :
    memRead (memWrite m a v) b = if b = a then v else memRead m b := by
  unfold memWrite
  split
  · next hv => rw [memRead_erase, hv]
  · rw [memRead_insert (memErase m a) (a, v) b fun c hc => (mem_erase hc).2, memRead_erase]
    by_cases hb : b = a
    · simp [hb]
    · have : ¬ a = b := fun h => hb h.symm
      simp [hb, this]

/-- A cell after a write is the cell written or one that was there. -/
theorem mem_write {m : Memory} {a : Nat} {v : Byte} {c : Host.Cell} (h : c ∈ memWrite m a v) : c = (a, v) ∨ c ∈ m := by
  unfold memWrite at h
  split at h
  · exact .inr (mem_erase h).1
  · exact (mem_insert h).imp id fun h => (mem_erase h).1

theorem wf_cons {c : Host.Cell} {m : Memory} :
    Memory.wf (c :: m) = true ↔ c.2 ≠ unlistedByte ∧ (∀ d ∈ m, c.1 < d.1) ∧ Memory.wf m = true := by
  simp [Memory.wf, and_assoc]

theorem wf_erase (m : Memory) (a : Nat) (h : Memory.wf m = true) : Memory.wf (memErase m a) = true := by
  induction m with
  | nil => rfl
  | cons c m ih =>
    obtain ⟨h1, h2, h3⟩ := wf_cons.1 h
    by_cases hc : c.1 = a
    · rw [memErase_cons_same hc]; exact ih h3
    · rw [memErase_cons_other hc]
      exact wf_cons.2 ⟨h1, fun d hd => h2 d (mem_erase hd).1, ih h3⟩

theorem wf_insert (m : Memory) (x : Host.Cell) (hx : x.2 ≠ unlistedByte) (hne : ∀ c ∈ m, c.1 ≠ x.1)
    (h : Memory.wf m = true) : Memory.wf (memInsert m x) = true := by
  induction m with
  | nil => simp [memInsert, Memory.wf, hx]
  | cons c m ih =>
    obtain ⟨h1, h2, h3⟩ := wf_cons.1 h
    by_cases hlt : x.1 < c.1
    · rw [memInsert, if_pos hlt]
      refine wf_cons.2 ⟨hx, fun d hd => ?_, h⟩
      rcases List.mem_cons.1 hd with rfl | hd
      · exact hlt
      · exact Nat.lt_trans hlt (h2 d hd)
    · rw [memInsert, if_neg hlt]
      have hcx : c.1 < x.1 := by have := hne c (List.mem_cons_self ..); omega
      refine wf_cons.2 ⟨h1, fun d hd => ?_, ih (fun d hd => hne d (List.mem_cons_of_mem _ hd)) h3⟩
      rcases mem_insert hd with rfl | hd
      · exact hcx
      · exact h2 d hd

/-- A write keeps the canonical form. -/
theorem wf_write (m : Memory) (a : Nat) (v : Byte) (h : Memory.wf m = true) : Memory.wf (memWrite m a v) = true := by
  unfold memWrite
  split
  · exact wf_erase m a h
  · next hv => exact wf_insert _ _ hv (fun c hc => (mem_erase hc).2) (wf_erase m a h)

/-- A list of writes keeps the canonical form. -/
theorem wf_writeAll (cs : List Host.Cell) : ∀ m : Memory, Memory.wf m = true → Memory.wf (memWriteAll m cs) = true := by
  induction cs with
  | nil => exact fun m h => h
  | cons c cs ih => exact fun m h => ih _ (wf_write m c.1 c.2 h)

/-- A cell after a list of writes is one written or one that was there. -/
theorem mem_writeAll {cs : List Host.Cell} : ∀ {m : Memory} {c : Host.Cell}, c ∈ memWriteAll m cs → c ∈ cs ∨ c ∈ m := by
  induction cs with
  | nil => exact fun h => .inr h
  | cons x cs ih =>
    intro m c h
    rcases ih h with h | h
    · exact .inl (List.mem_cons_of_mem _ h)
    · rcases mem_write h with rfl | h
      · exact .inl (List.mem_cons_self ..)
      · exact .inr h

/-- An address that no write names reads as before. -/
theorem memRead_writeAll_other {cs : List Host.Cell} {b : Nat} :
    ∀ m : Memory, (∀ c ∈ cs, c.1 ≠ b) → memRead (memWriteAll m cs) b = memRead m b := by
  induction cs with
  | nil => exact fun m _ => rfl
  | cons c cs ih =>
    intro m h
    have hc : ¬ b = c.1 := fun e => h c (List.mem_cons_self ..) e.symm
    rw [memWriteAll, ih _ fun d hd => h d (List.mem_cons_of_mem _ hd), memRead_write, if_neg hc]

end Sys2Proof.Machine
end

