-- ==== Sys2Proof/Laws/State.lean ====
section
/-! SUPPORT. One lemma per field per update of State, true by rfl; then what the primitives and the device's updates are in
terms of these updates. -/

namespace Sys2Proof.Machine

/-! ## State.setStream -/

@[simp] theorem State.setStream_cfg (s : State) (v : List Byte) : (s.setStream v).cfg = s.cfg := rfl
@[simp] theorem State.setStream_stream (s : State) (v : List Byte) : (s.setStream v).stream = v := rfl
@[simp] theorem State.setStream_origin (s : State) (v : List Byte) : (s.setStream v).origin = s.origin := rfl
@[simp] theorem State.setStream_phase (s : State) (v : List Byte) : (s.setStream v).phase = s.phase := rfl
@[simp] theorem State.setStream_ctr (s : State) (v : List Byte) : (s.setStream v).ctr = s.ctr := rfl
@[simp] theorem State.setStream_hwctr (s : State) (v : List Byte) : (s.setStream v).hwctr = s.hwctr := rfl
@[simp] theorem State.setStream_status (s : State) (v : List Byte) : (s.setStream v).status = s.status := rfl
@[simp] theorem State.setStream_wdelay (s : State) (v : List Byte) : (s.setStream v).wdelay = s.wdelay := rfl
@[simp] theorem State.setStream_burst (s : State) (v : List Byte) : (s.setStream v).burst = s.burst := rfl
@[simp] theorem State.setStream_lines (s : State) (v : List Byte) : (s.setStream v).lines = s.lines := rfl
@[simp] theorem State.setStream_dbusDir (s : State) (v : List Byte) : (s.setStream v).dbusDir = s.dbusDir := rfl
@[simp] theorem State.setStream_dbusOut (s : State) (v : List Byte) : (s.setStream v).dbusOut = s.dbusOut := rfl
@[simp] theorem State.setStream_bus (s : State) (v : List Byte) : (s.setStream v).bus = s.bus := rfl
@[simp] theorem State.setStream_txstate (s : State) (v : List Byte) : (s.setStream v).txstate = s.txstate := rfl
@[simp] theorem State.setStream_trace (s : State) (v : List Byte) : (s.setStream v).trace = s.trace := rfl
@[simp] theorem State.setStream_mark (s : State) (v : List Byte) : (s.setStream v).mark = s.mark := rfl
@[simp] theorem State.setStream_result (s : State) (v : List Byte) : (s.setStream v).result = s.result := rfl
@[simp] theorem State.setStream_dev (s : State) (v : List Byte) : (s.setStream v).dev = s.dev := rfl
@[simp] theorem State.setStream_oracle (s : State) (v : List Byte) : (s.setStream v).oracle = s.oracle := rfl
@[simp] theorem State.setStream_draws (s : State) (v : List Byte) : (s.setStream v).draws = s.draws := rfl

/-! ## State.setOrigin -/

@[simp] theorem State.setOrigin_cfg (s : State) (v : Issuer) : (s.setOrigin v).cfg = s.cfg := rfl
@[simp] theorem State.setOrigin_stream (s : State) (v : Issuer) : (s.setOrigin v).stream = s.stream := rfl
@[simp] theorem State.setOrigin_origin (s : State) (v : Issuer) : (s.setOrigin v).origin = v := rfl
@[simp] theorem State.setOrigin_phase (s : State) (v : Issuer) : (s.setOrigin v).phase = s.phase := rfl
@[simp] theorem State.setOrigin_ctr (s : State) (v : Issuer) : (s.setOrigin v).ctr = s.ctr := rfl
@[simp] theorem State.setOrigin_hwctr (s : State) (v : Issuer) : (s.setOrigin v).hwctr = s.hwctr := rfl
@[simp] theorem State.setOrigin_status (s : State) (v : Issuer) : (s.setOrigin v).status = s.status := rfl
@[simp] theorem State.setOrigin_wdelay (s : State) (v : Issuer) : (s.setOrigin v).wdelay = s.wdelay := rfl
@[simp] theorem State.setOrigin_burst (s : State) (v : Issuer) : (s.setOrigin v).burst = s.burst := rfl
@[simp] theorem State.setOrigin_lines (s : State) (v : Issuer) : (s.setOrigin v).lines = s.lines := rfl
@[simp] theorem State.setOrigin_dbusDir (s : State) (v : Issuer) : (s.setOrigin v).dbusDir = s.dbusDir := rfl
@[simp] theorem State.setOrigin_dbusOut (s : State) (v : Issuer) : (s.setOrigin v).dbusOut = s.dbusOut := rfl
@[simp] theorem State.setOrigin_bus (s : State) (v : Issuer) : (s.setOrigin v).bus = s.bus := rfl
@[simp] theorem State.setOrigin_txstate (s : State) (v : Issuer) : (s.setOrigin v).txstate = s.txstate := rfl
@[simp] theorem State.setOrigin_trace (s : State) (v : Issuer) : (s.setOrigin v).trace = s.trace := rfl
@[simp] theorem State.setOrigin_mark (s : State) (v : Issuer) : (s.setOrigin v).mark = s.mark := rfl
@[simp] theorem State.setOrigin_result (s : State) (v : Issuer) : (s.setOrigin v).result = s.result := rfl
@[simp] theorem State.setOrigin_dev (s : State) (v : Issuer) : (s.setOrigin v).dev = s.dev := rfl
@[simp] theorem State.setOrigin_oracle (s : State) (v : Issuer) : (s.setOrigin v).oracle = s.oracle := rfl
@[simp] theorem State.setOrigin_draws (s : State) (v : Issuer) : (s.setOrigin v).draws = s.draws := rfl

/-! ## State.setPhase -/

@[simp] theorem State.setPhase_cfg (s : State) (v : Phase) : (s.setPhase v).cfg = s.cfg := rfl
@[simp] theorem State.setPhase_stream (s : State) (v : Phase) : (s.setPhase v).stream = s.stream := rfl
@[simp] theorem State.setPhase_origin (s : State) (v : Phase) : (s.setPhase v).origin = s.origin := rfl
@[simp] theorem State.setPhase_phase (s : State) (v : Phase) : (s.setPhase v).phase = v := rfl
@[simp] theorem State.setPhase_ctr (s : State) (v : Phase) : (s.setPhase v).ctr = s.ctr := rfl
@[simp] theorem State.setPhase_hwctr (s : State) (v : Phase) : (s.setPhase v).hwctr = s.hwctr := rfl
@[simp] theorem State.setPhase_status (s : State) (v : Phase) : (s.setPhase v).status = s.status := rfl
@[simp] theorem State.setPhase_wdelay (s : State) (v : Phase) : (s.setPhase v).wdelay = s.wdelay := rfl
@[simp] theorem State.setPhase_burst (s : State) (v : Phase) : (s.setPhase v).burst = s.burst := rfl
@[simp] theorem State.setPhase_lines (s : State) (v : Phase) : (s.setPhase v).lines = s.lines := rfl
@[simp] theorem State.setPhase_dbusDir (s : State) (v : Phase) : (s.setPhase v).dbusDir = s.dbusDir := rfl
@[simp] theorem State.setPhase_dbusOut (s : State) (v : Phase) : (s.setPhase v).dbusOut = s.dbusOut := rfl
@[simp] theorem State.setPhase_bus (s : State) (v : Phase) : (s.setPhase v).bus = s.bus := rfl
@[simp] theorem State.setPhase_txstate (s : State) (v : Phase) : (s.setPhase v).txstate = s.txstate := rfl
@[simp] theorem State.setPhase_trace (s : State) (v : Phase) : (s.setPhase v).trace = s.trace := rfl
@[simp] theorem State.setPhase_mark (s : State) (v : Phase) : (s.setPhase v).mark = s.mark := rfl
@[simp] theorem State.setPhase_result (s : State) (v : Phase) : (s.setPhase v).result = s.result := rfl
@[simp] theorem State.setPhase_dev (s : State) (v : Phase) : (s.setPhase v).dev = s.dev := rfl
@[simp] theorem State.setPhase_oracle (s : State) (v : Phase) : (s.setPhase v).oracle = s.oracle := rfl
@[simp] theorem State.setPhase_draws (s : State) (v : Phase) : (s.setPhase v).draws = s.draws := rfl

/-! ## State.setCtr -/

@[simp] theorem State.setCtr_cfg (s : State) (v : Option Nat) : (s.setCtr v).cfg = s.cfg := rfl
@[simp] theorem State.setCtr_stream (s : State) (v : Option Nat) : (s.setCtr v).stream = s.stream := rfl
@[simp] theorem State.setCtr_origin (s : State) (v : Option Nat) : (s.setCtr v).origin = s.origin := rfl
@[simp] theorem State.setCtr_phase (s : State) (v : Option Nat) : (s.setCtr v).phase = s.phase := rfl
@[simp] theorem State.setCtr_ctr (s : State) (v : Option Nat) : (s.setCtr v).ctr = v := rfl
@[simp] theorem State.setCtr_hwctr (s : State) (v : Option Nat) : (s.setCtr v).hwctr = s.hwctr := rfl
@[simp] theorem State.setCtr_status (s : State) (v : Option Nat) : (s.setCtr v).status = s.status := rfl
@[simp] theorem State.setCtr_wdelay (s : State) (v : Option Nat) : (s.setCtr v).wdelay = s.wdelay := rfl
@[simp] theorem State.setCtr_burst (s : State) (v : Option Nat) : (s.setCtr v).burst = s.burst := rfl
@[simp] theorem State.setCtr_lines (s : State) (v : Option Nat) : (s.setCtr v).lines = s.lines := rfl
@[simp] theorem State.setCtr_dbusDir (s : State) (v : Option Nat) : (s.setCtr v).dbusDir = s.dbusDir := rfl
@[simp] theorem State.setCtr_dbusOut (s : State) (v : Option Nat) : (s.setCtr v).dbusOut = s.dbusOut := rfl
@[simp] theorem State.setCtr_bus (s : State) (v : Option Nat) : (s.setCtr v).bus = s.bus := rfl
@[simp] theorem State.setCtr_txstate (s : State) (v : Option Nat) : (s.setCtr v).txstate = s.txstate := rfl
@[simp] theorem State.setCtr_trace (s : State) (v : Option Nat) : (s.setCtr v).trace = s.trace := rfl
@[simp] theorem State.setCtr_mark (s : State) (v : Option Nat) : (s.setCtr v).mark = s.mark := rfl
@[simp] theorem State.setCtr_result (s : State) (v : Option Nat) : (s.setCtr v).result = s.result := rfl
@[simp] theorem State.setCtr_dev (s : State) (v : Option Nat) : (s.setCtr v).dev = s.dev := rfl
@[simp] theorem State.setCtr_oracle (s : State) (v : Option Nat) : (s.setCtr v).oracle = s.oracle := rfl
@[simp] theorem State.setCtr_draws (s : State) (v : Option Nat) : (s.setCtr v).draws = s.draws := rfl

/-! ## State.setHwctr -/

@[simp] theorem State.setHwctr_cfg (s : State) (v : Nat) : (s.setHwctr v).cfg = s.cfg := rfl
@[simp] theorem State.setHwctr_stream (s : State) (v : Nat) : (s.setHwctr v).stream = s.stream := rfl
@[simp] theorem State.setHwctr_origin (s : State) (v : Nat) : (s.setHwctr v).origin = s.origin := rfl
@[simp] theorem State.setHwctr_phase (s : State) (v : Nat) : (s.setHwctr v).phase = s.phase := rfl
@[simp] theorem State.setHwctr_ctr (s : State) (v : Nat) : (s.setHwctr v).ctr = s.ctr := rfl
@[simp] theorem State.setHwctr_hwctr (s : State) (v : Nat) : (s.setHwctr v).hwctr = v := rfl
@[simp] theorem State.setHwctr_status (s : State) (v : Nat) : (s.setHwctr v).status = s.status := rfl
@[simp] theorem State.setHwctr_wdelay (s : State) (v : Nat) : (s.setHwctr v).wdelay = s.wdelay := rfl
@[simp] theorem State.setHwctr_burst (s : State) (v : Nat) : (s.setHwctr v).burst = s.burst := rfl
@[simp] theorem State.setHwctr_lines (s : State) (v : Nat) : (s.setHwctr v).lines = s.lines := rfl
@[simp] theorem State.setHwctr_dbusDir (s : State) (v : Nat) : (s.setHwctr v).dbusDir = s.dbusDir := rfl
@[simp] theorem State.setHwctr_dbusOut (s : State) (v : Nat) : (s.setHwctr v).dbusOut = s.dbusOut := rfl
@[simp] theorem State.setHwctr_bus (s : State) (v : Nat) : (s.setHwctr v).bus = s.bus := rfl
@[simp] theorem State.setHwctr_txstate (s : State) (v : Nat) : (s.setHwctr v).txstate = s.txstate := rfl
@[simp] theorem State.setHwctr_trace (s : State) (v : Nat) : (s.setHwctr v).trace = s.trace := rfl
@[simp] theorem State.setHwctr_mark (s : State) (v : Nat) : (s.setHwctr v).mark = s.mark := rfl
@[simp] theorem State.setHwctr_result (s : State) (v : Nat) : (s.setHwctr v).result = s.result := rfl
@[simp] theorem State.setHwctr_dev (s : State) (v : Nat) : (s.setHwctr v).dev = s.dev := rfl
@[simp] theorem State.setHwctr_oracle (s : State) (v : Nat) : (s.setHwctr v).oracle = s.oracle := rfl
@[simp] theorem State.setHwctr_draws (s : State) (v : Nat) : (s.setHwctr v).draws = s.draws := rfl

/-! ## State.setStatus -/

@[simp] theorem State.setStatus_cfg (s : State) (v : Option Byte) : (s.setStatus v).cfg = s.cfg := rfl
@[simp] theorem State.setStatus_stream (s : State) (v : Option Byte) : (s.setStatus v).stream = s.stream := rfl
@[simp] theorem State.setStatus_origin (s : State) (v : Option Byte) : (s.setStatus v).origin = s.origin := rfl
@[simp] theorem State.setStatus_phase (s : State) (v : Option Byte) : (s.setStatus v).phase = s.phase := rfl
@[simp] theorem State.setStatus_ctr (s : State) (v : Option Byte) : (s.setStatus v).ctr = s.ctr := rfl
@[simp] theorem State.setStatus_hwctr (s : State) (v : Option Byte) : (s.setStatus v).hwctr = s.hwctr := rfl
@[simp] theorem State.setStatus_status (s : State) (v : Option Byte) : (s.setStatus v).status = v := rfl
@[simp] theorem State.setStatus_wdelay (s : State) (v : Option Byte) : (s.setStatus v).wdelay = s.wdelay := rfl
@[simp] theorem State.setStatus_burst (s : State) (v : Option Byte) : (s.setStatus v).burst = s.burst := rfl
@[simp] theorem State.setStatus_lines (s : State) (v : Option Byte) : (s.setStatus v).lines = s.lines := rfl
@[simp] theorem State.setStatus_dbusDir (s : State) (v : Option Byte) : (s.setStatus v).dbusDir = s.dbusDir := rfl
@[simp] theorem State.setStatus_dbusOut (s : State) (v : Option Byte) : (s.setStatus v).dbusOut = s.dbusOut := rfl
@[simp] theorem State.setStatus_bus (s : State) (v : Option Byte) : (s.setStatus v).bus = s.bus := rfl
@[simp] theorem State.setStatus_txstate (s : State) (v : Option Byte) : (s.setStatus v).txstate = s.txstate := rfl
@[simp] theorem State.setStatus_trace (s : State) (v : Option Byte) : (s.setStatus v).trace = s.trace := rfl
@[simp] theorem State.setStatus_mark (s : State) (v : Option Byte) : (s.setStatus v).mark = s.mark := rfl
@[simp] theorem State.setStatus_result (s : State) (v : Option Byte) : (s.setStatus v).result = s.result := rfl
@[simp] theorem State.setStatus_dev (s : State) (v : Option Byte) : (s.setStatus v).dev = s.dev := rfl
@[simp] theorem State.setStatus_oracle (s : State) (v : Option Byte) : (s.setStatus v).oracle = s.oracle := rfl
@[simp] theorem State.setStatus_draws (s : State) (v : Option Byte) : (s.setStatus v).draws = s.draws := rfl

/-! ## State.setWdelay -/

@[simp] theorem State.setWdelay_cfg (s : State) (v : Nat) : (s.setWdelay v).cfg = s.cfg := rfl
@[simp] theorem State.setWdelay_stream (s : State) (v : Nat) : (s.setWdelay v).stream = s.stream := rfl
@[simp] theorem State.setWdelay_origin (s : State) (v : Nat) : (s.setWdelay v).origin = s.origin := rfl
@[simp] theorem State.setWdelay_phase (s : State) (v : Nat) : (s.setWdelay v).phase = s.phase := rfl
@[simp] theorem State.setWdelay_ctr (s : State) (v : Nat) : (s.setWdelay v).ctr = s.ctr := rfl
@[simp] theorem State.setWdelay_hwctr (s : State) (v : Nat) : (s.setWdelay v).hwctr = s.hwctr := rfl
@[simp] theorem State.setWdelay_status (s : State) (v : Nat) : (s.setWdelay v).status = s.status := rfl
@[simp] theorem State.setWdelay_wdelay (s : State) (v : Nat) : (s.setWdelay v).wdelay = v := rfl
@[simp] theorem State.setWdelay_burst (s : State) (v : Nat) : (s.setWdelay v).burst = s.burst := rfl
@[simp] theorem State.setWdelay_lines (s : State) (v : Nat) : (s.setWdelay v).lines = s.lines := rfl
@[simp] theorem State.setWdelay_dbusDir (s : State) (v : Nat) : (s.setWdelay v).dbusDir = s.dbusDir := rfl
@[simp] theorem State.setWdelay_dbusOut (s : State) (v : Nat) : (s.setWdelay v).dbusOut = s.dbusOut := rfl
@[simp] theorem State.setWdelay_bus (s : State) (v : Nat) : (s.setWdelay v).bus = s.bus := rfl
@[simp] theorem State.setWdelay_txstate (s : State) (v : Nat) : (s.setWdelay v).txstate = s.txstate := rfl
@[simp] theorem State.setWdelay_trace (s : State) (v : Nat) : (s.setWdelay v).trace = s.trace := rfl
@[simp] theorem State.setWdelay_mark (s : State) (v : Nat) : (s.setWdelay v).mark = s.mark := rfl
@[simp] theorem State.setWdelay_result (s : State) (v : Nat) : (s.setWdelay v).result = s.result := rfl
@[simp] theorem State.setWdelay_dev (s : State) (v : Nat) : (s.setWdelay v).dev = s.dev := rfl
@[simp] theorem State.setWdelay_oracle (s : State) (v : Nat) : (s.setWdelay v).oracle = s.oracle := rfl
@[simp] theorem State.setWdelay_draws (s : State) (v : Nat) : (s.setWdelay v).draws = s.draws := rfl

/-! ## State.setBurst -/

@[simp] theorem State.setBurst_cfg (s : State) (v : Burst) : (s.setBurst v).cfg = s.cfg := rfl
@[simp] theorem State.setBurst_stream (s : State) (v : Burst) : (s.setBurst v).stream = s.stream := rfl
@[simp] theorem State.setBurst_origin (s : State) (v : Burst) : (s.setBurst v).origin = s.origin := rfl
@[simp] theorem State.setBurst_phase (s : State) (v : Burst) : (s.setBurst v).phase = s.phase := rfl
@[simp] theorem State.setBurst_ctr (s : State) (v : Burst) : (s.setBurst v).ctr = s.ctr := rfl
@[simp] theorem State.setBurst_hwctr (s : State) (v : Burst) : (s.setBurst v).hwctr = s.hwctr := rfl
@[simp] theorem State.setBurst_status (s : State) (v : Burst) : (s.setBurst v).status = s.status := rfl
@[simp] theorem State.setBurst_wdelay (s : State) (v : Burst) : (s.setBurst v).wdelay = s.wdelay := rfl
@[simp] theorem State.setBurst_burst (s : State) (v : Burst) : (s.setBurst v).burst = v := rfl
@[simp] theorem State.setBurst_lines (s : State) (v : Burst) : (s.setBurst v).lines = s.lines := rfl
@[simp] theorem State.setBurst_dbusDir (s : State) (v : Burst) : (s.setBurst v).dbusDir = s.dbusDir := rfl
@[simp] theorem State.setBurst_dbusOut (s : State) (v : Burst) : (s.setBurst v).dbusOut = s.dbusOut := rfl
@[simp] theorem State.setBurst_bus (s : State) (v : Burst) : (s.setBurst v).bus = s.bus := rfl
@[simp] theorem State.setBurst_txstate (s : State) (v : Burst) : (s.setBurst v).txstate = s.txstate := rfl
@[simp] theorem State.setBurst_trace (s : State) (v : Burst) : (s.setBurst v).trace = s.trace := rfl
@[simp] theorem State.setBurst_mark (s : State) (v : Burst) : (s.setBurst v).mark = s.mark := rfl
@[simp] theorem State.setBurst_result (s : State) (v : Burst) : (s.setBurst v).result = s.result := rfl
@[simp] theorem State.setBurst_dev (s : State) (v : Burst) : (s.setBurst v).dev = s.dev := rfl
@[simp] theorem State.setBurst_oracle (s : State) (v : Burst) : (s.setBurst v).oracle = s.oracle := rfl
@[simp] theorem State.setBurst_draws (s : State) (v : Burst) : (s.setBurst v).draws = s.draws := rfl

/-! ## State.setLines -/

@[simp] theorem State.setLines_cfg (s : State) (v : Lines) : (s.setLines v).cfg = s.cfg := rfl
@[simp] theorem State.setLines_stream (s : State) (v : Lines) : (s.setLines v).stream = s.stream := rfl
@[simp] theorem State.setLines_origin (s : State) (v : Lines) : (s.setLines v).origin = s.origin := rfl
@[simp] theorem State.setLines_phase (s : State) (v : Lines) : (s.setLines v).phase = s.phase := rfl
@[simp] theorem State.setLines_ctr (s : State) (v : Lines) : (s.setLines v).ctr = s.ctr := rfl
@[simp] theorem State.setLines_hwctr (s : State) (v : Lines) : (s.setLines v).hwctr = s.hwctr := rfl
@[simp] theorem State.setLines_status (s : State) (v : Lines) : (s.setLines v).status = s.status := rfl
@[simp] theorem State.setLines_wdelay (s : State) (v : Lines) : (s.setLines v).wdelay = s.wdelay := rfl
@[simp] theorem State.setLines_burst (s : State) (v : Lines) : (s.setLines v).burst = s.burst := rfl
@[simp] theorem State.setLines_lines (s : State) (v : Lines) : (s.setLines v).lines = v := rfl
@[simp] theorem State.setLines_dbusDir (s : State) (v : Lines) : (s.setLines v).dbusDir = s.dbusDir := rfl
@[simp] theorem State.setLines_dbusOut (s : State) (v : Lines) : (s.setLines v).dbusOut = s.dbusOut := rfl
@[simp] theorem State.setLines_bus (s : State) (v : Lines) : (s.setLines v).bus = s.bus := rfl
@[simp] theorem State.setLines_txstate (s : State) (v : Lines) : (s.setLines v).txstate = s.txstate := rfl
@[simp] theorem State.setLines_trace (s : State) (v : Lines) : (s.setLines v).trace = s.trace := rfl
@[simp] theorem State.setLines_mark (s : State) (v : Lines) : (s.setLines v).mark = s.mark := rfl
@[simp] theorem State.setLines_result (s : State) (v : Lines) : (s.setLines v).result = s.result := rfl
@[simp] theorem State.setLines_dev (s : State) (v : Lines) : (s.setLines v).dev = s.dev := rfl
@[simp] theorem State.setLines_oracle (s : State) (v : Lines) : (s.setLines v).oracle = s.oracle := rfl
@[simp] theorem State.setLines_draws (s : State) (v : Lines) : (s.setLines v).draws = s.draws := rfl

/-! ## State.setDbusDir -/

@[simp] theorem State.setDbusDir_cfg (s : State) (v : BusDir) : (s.setDbusDir v).cfg = s.cfg := rfl
@[simp] theorem State.setDbusDir_stream (s : State) (v : BusDir) : (s.setDbusDir v).stream = s.stream := rfl
@[simp] theorem State.setDbusDir_origin (s : State) (v : BusDir) : (s.setDbusDir v).origin = s.origin := rfl
@[simp] theorem State.setDbusDir_phase (s : State) (v : BusDir) : (s.setDbusDir v).phase = s.phase := rfl
@[simp] theorem State.setDbusDir_ctr (s : State) (v : BusDir) : (s.setDbusDir v).ctr = s.ctr := rfl
@[simp] theorem State.setDbusDir_hwctr (s : State) (v : BusDir) : (s.setDbusDir v).hwctr = s.hwctr := rfl
@[simp] theorem State.setDbusDir_status (s : State) (v : BusDir) : (s.setDbusDir v).status = s.status := rfl
@[simp] theorem State.setDbusDir_wdelay (s : State) (v : BusDir) : (s.setDbusDir v).wdelay = s.wdelay := rfl
@[simp] theorem State.setDbusDir_burst (s : State) (v : BusDir) : (s.setDbusDir v).burst = s.burst := rfl
@[simp] theorem State.setDbusDir_lines (s : State) (v : BusDir) : (s.setDbusDir v).lines = s.lines := rfl
@[simp] theorem State.setDbusDir_dbusDir (s : State) (v : BusDir) : (s.setDbusDir v).dbusDir = v := rfl
@[simp] theorem State.setDbusDir_dbusOut (s : State) (v : BusDir) : (s.setDbusDir v).dbusOut = s.dbusOut := rfl
@[simp] theorem State.setDbusDir_bus (s : State) (v : BusDir) : (s.setDbusDir v).bus = s.bus := rfl
@[simp] theorem State.setDbusDir_txstate (s : State) (v : BusDir) : (s.setDbusDir v).txstate = s.txstate := rfl
@[simp] theorem State.setDbusDir_trace (s : State) (v : BusDir) : (s.setDbusDir v).trace = s.trace := rfl
@[simp] theorem State.setDbusDir_mark (s : State) (v : BusDir) : (s.setDbusDir v).mark = s.mark := rfl
@[simp] theorem State.setDbusDir_result (s : State) (v : BusDir) : (s.setDbusDir v).result = s.result := rfl
@[simp] theorem State.setDbusDir_dev (s : State) (v : BusDir) : (s.setDbusDir v).dev = s.dev := rfl
@[simp] theorem State.setDbusDir_oracle (s : State) (v : BusDir) : (s.setDbusDir v).oracle = s.oracle := rfl
@[simp] theorem State.setDbusDir_draws (s : State) (v : BusDir) : (s.setDbusDir v).draws = s.draws := rfl

/-! ## State.setDbusOut -/

@[simp] theorem State.setDbusOut_cfg (s : State) (v : Byte) : (s.setDbusOut v).cfg = s.cfg := rfl
@[simp] theorem State.setDbusOut_stream (s : State) (v : Byte) : (s.setDbusOut v).stream = s.stream := rfl
@[simp] theorem State.setDbusOut_origin (s : State) (v : Byte) : (s.setDbusOut v).origin = s.origin := rfl
@[simp] theorem State.setDbusOut_phase (s : State) (v : Byte) : (s.setDbusOut v).phase = s.phase := rfl
@[simp] theorem State.setDbusOut_ctr (s : State) (v : Byte) : (s.setDbusOut v).ctr = s.ctr := rfl
@[simp] theorem State.setDbusOut_hwctr (s : State) (v : Byte) : (s.setDbusOut v).hwctr = s.hwctr := rfl
@[simp] theorem State.setDbusOut_status (s : State) (v : Byte) : (s.setDbusOut v).status = s.status := rfl
@[simp] theorem State.setDbusOut_wdelay (s : State) (v : Byte) : (s.setDbusOut v).wdelay = s.wdelay := rfl
@[simp] theorem State.setDbusOut_burst (s : State) (v : Byte) : (s.setDbusOut v).burst = s.burst := rfl
@[simp] theorem State.setDbusOut_lines (s : State) (v : Byte) : (s.setDbusOut v).lines = s.lines := rfl
@[simp] theorem State.setDbusOut_dbusDir (s : State) (v : Byte) : (s.setDbusOut v).dbusDir = s.dbusDir := rfl
@[simp] theorem State.setDbusOut_dbusOut (s : State) (v : Byte) : (s.setDbusOut v).dbusOut = v := rfl
@[simp] theorem State.setDbusOut_bus (s : State) (v : Byte) : (s.setDbusOut v).bus = s.bus := rfl
@[simp] theorem State.setDbusOut_txstate (s : State) (v : Byte) : (s.setDbusOut v).txstate = s.txstate := rfl
@[simp] theorem State.setDbusOut_trace (s : State) (v : Byte) : (s.setDbusOut v).trace = s.trace := rfl
@[simp] theorem State.setDbusOut_mark (s : State) (v : Byte) : (s.setDbusOut v).mark = s.mark := rfl
@[simp] theorem State.setDbusOut_result (s : State) (v : Byte) : (s.setDbusOut v).result = s.result := rfl
@[simp] theorem State.setDbusOut_dev (s : State) (v : Byte) : (s.setDbusOut v).dev = s.dev := rfl
@[simp] theorem State.setDbusOut_oracle (s : State) (v : Byte) : (s.setDbusOut v).oracle = s.oracle := rfl
@[simp] theorem State.setDbusOut_draws (s : State) (v : Byte) : (s.setDbusOut v).draws = s.draws := rfl

/-! ## State.setBus -/

@[simp] theorem State.setBus_cfg (s : State) (v : BusState) : (s.setBus v).cfg = s.cfg := rfl
@[simp] theorem State.setBus_stream (s : State) (v : BusState) : (s.setBus v).stream = s.stream := rfl
@[simp] theorem State.setBus_origin (s : State) (v : BusState) : (s.setBus v).origin = s.origin := rfl
@[simp] theorem State.setBus_phase (s : State) (v : BusState) : (s.setBus v).phase = s.phase := rfl
@[simp] theorem State.setBus_ctr (s : State) (v : BusState) : (s.setBus v).ctr = s.ctr := rfl
@[simp] theorem State.setBus_hwctr (s : State) (v : BusState) : (s.setBus v).hwctr = s.hwctr := rfl
@[simp] theorem State.setBus_status (s : State) (v : BusState) : (s.setBus v).status = s.status := rfl
@[simp] theorem State.setBus_wdelay (s : State) (v : BusState) : (s.setBus v).wdelay = s.wdelay := rfl
@[simp] theorem State.setBus_burst (s : State) (v : BusState) : (s.setBus v).burst = s.burst := rfl
@[simp] theorem State.setBus_lines (s : State) (v : BusState) : (s.setBus v).lines = s.lines := rfl
@[simp] theorem State.setBus_dbusDir (s : State) (v : BusState) : (s.setBus v).dbusDir = s.dbusDir := rfl
@[simp] theorem State.setBus_dbusOut (s : State) (v : BusState) : (s.setBus v).dbusOut = s.dbusOut := rfl
@[simp] theorem State.setBus_bus (s : State) (v : BusState) : (s.setBus v).bus = v := rfl
@[simp] theorem State.setBus_txstate (s : State) (v : BusState) : (s.setBus v).txstate = s.txstate := rfl
@[simp] theorem State.setBus_trace (s : State) (v : BusState) : (s.setBus v).trace = s.trace := rfl
@[simp] theorem State.setBus_mark (s : State) (v : BusState) : (s.setBus v).mark = s.mark := rfl
@[simp] theorem State.setBus_result (s : State) (v : BusState) : (s.setBus v).result = s.result := rfl
@[simp] theorem State.setBus_dev (s : State) (v : BusState) : (s.setBus v).dev = s.dev := rfl
@[simp] theorem State.setBus_oracle (s : State) (v : BusState) : (s.setBus v).oracle = s.oracle := rfl
@[simp] theorem State.setBus_draws (s : State) (v : BusState) : (s.setBus v).draws = s.draws := rfl

/-! ## State.setTxstate -/

@[simp] theorem State.setTxstate_cfg (s : State) (v : TxState) : (s.setTxstate v).cfg = s.cfg := rfl
@[simp] theorem State.setTxstate_stream (s : State) (v : TxState) : (s.setTxstate v).stream = s.stream := rfl
@[simp] theorem State.setTxstate_origin (s : State) (v : TxState) : (s.setTxstate v).origin = s.origin := rfl
@[simp] theorem State.setTxstate_phase (s : State) (v : TxState) : (s.setTxstate v).phase = s.phase := rfl
@[simp] theorem State.setTxstate_ctr (s : State) (v : TxState) : (s.setTxstate v).ctr = s.ctr := rfl
@[simp] theorem State.setTxstate_hwctr (s : State) (v : TxState) : (s.setTxstate v).hwctr = s.hwctr := rfl
@[simp] theorem State.setTxstate_status (s : State) (v : TxState) : (s.setTxstate v).status = s.status := rfl
@[simp] theorem State.setTxstate_wdelay (s : State) (v : TxState) : (s.setTxstate v).wdelay = s.wdelay := rfl
@[simp] theorem State.setTxstate_burst (s : State) (v : TxState) : (s.setTxstate v).burst = s.burst := rfl
@[simp] theorem State.setTxstate_lines (s : State) (v : TxState) : (s.setTxstate v).lines = s.lines := rfl
@[simp] theorem State.setTxstate_dbusDir (s : State) (v : TxState) : (s.setTxstate v).dbusDir = s.dbusDir := rfl
@[simp] theorem State.setTxstate_dbusOut (s : State) (v : TxState) : (s.setTxstate v).dbusOut = s.dbusOut := rfl
@[simp] theorem State.setTxstate_bus (s : State) (v : TxState) : (s.setTxstate v).bus = s.bus := rfl
@[simp] theorem State.setTxstate_txstate (s : State) (v : TxState) : (s.setTxstate v).txstate = v := rfl
@[simp] theorem State.setTxstate_trace (s : State) (v : TxState) : (s.setTxstate v).trace = s.trace := rfl
@[simp] theorem State.setTxstate_mark (s : State) (v : TxState) : (s.setTxstate v).mark = s.mark := rfl
@[simp] theorem State.setTxstate_result (s : State) (v : TxState) : (s.setTxstate v).result = s.result := rfl
@[simp] theorem State.setTxstate_dev (s : State) (v : TxState) : (s.setTxstate v).dev = s.dev := rfl
@[simp] theorem State.setTxstate_oracle (s : State) (v : TxState) : (s.setTxstate v).oracle = s.oracle := rfl
@[simp] theorem State.setTxstate_draws (s : State) (v : TxState) : (s.setTxstate v).draws = s.draws := rfl

/-! ## State.setTrace -/

@[simp] theorem State.setTrace_cfg (s : State) (v : List Event) : (s.setTrace v).cfg = s.cfg := rfl
@[simp] theorem State.setTrace_stream (s : State) (v : List Event) : (s.setTrace v).stream = s.stream := rfl
@[simp] theorem State.setTrace_origin (s : State) (v : List Event) : (s.setTrace v).origin = s.origin := rfl
@[simp] theorem State.setTrace_phase (s : State) (v : List Event) : (s.setTrace v).phase = s.phase := rfl
@[simp] theorem State.setTrace_ctr (s : State) (v : List Event) : (s.setTrace v).ctr = s.ctr := rfl
@[simp] theorem State.setTrace_hwctr (s : State) (v : List Event) : (s.setTrace v).hwctr = s.hwctr := rfl
@[simp] theorem State.setTrace_status (s : State) (v : List Event) : (s.setTrace v).status = s.status := rfl
@[simp] theorem State.setTrace_wdelay (s : State) (v : List Event) : (s.setTrace v).wdelay = s.wdelay := rfl
@[simp] theorem State.setTrace_burst (s : State) (v : List Event) : (s.setTrace v).burst = s.burst := rfl
@[simp] theorem State.setTrace_lines (s : State) (v : List Event) : (s.setTrace v).lines = s.lines := rfl
@[simp] theorem State.setTrace_dbusDir (s : State) (v : List Event) : (s.setTrace v).dbusDir = s.dbusDir := rfl
@[simp] theorem State.setTrace_dbusOut (s : State) (v : List Event) : (s.setTrace v).dbusOut = s.dbusOut := rfl
@[simp] theorem State.setTrace_bus (s : State) (v : List Event) : (s.setTrace v).bus = s.bus := rfl
@[simp] theorem State.setTrace_txstate (s : State) (v : List Event) : (s.setTrace v).txstate = s.txstate := rfl
@[simp] theorem State.setTrace_trace (s : State) (v : List Event) : (s.setTrace v).trace = v := rfl
@[simp] theorem State.setTrace_mark (s : State) (v : List Event) : (s.setTrace v).mark = s.mark := rfl
@[simp] theorem State.setTrace_result (s : State) (v : List Event) : (s.setTrace v).result = s.result := rfl
@[simp] theorem State.setTrace_dev (s : State) (v : List Event) : (s.setTrace v).dev = s.dev := rfl
@[simp] theorem State.setTrace_oracle (s : State) (v : List Event) : (s.setTrace v).oracle = s.oracle := rfl
@[simp] theorem State.setTrace_draws (s : State) (v : List Event) : (s.setTrace v).draws = s.draws := rfl

/-! ## State.setMark -/

@[simp] theorem State.setMark_cfg (s : State) (v : Mark) : (s.setMark v).cfg = s.cfg := rfl
@[simp] theorem State.setMark_stream (s : State) (v : Mark) : (s.setMark v).stream = s.stream := rfl
@[simp] theorem State.setMark_origin (s : State) (v : Mark) : (s.setMark v).origin = s.origin := rfl
@[simp] theorem State.setMark_phase (s : State) (v : Mark) : (s.setMark v).phase = s.phase := rfl
@[simp] theorem State.setMark_ctr (s : State) (v : Mark) : (s.setMark v).ctr = s.ctr := rfl
@[simp] theorem State.setMark_hwctr (s : State) (v : Mark) : (s.setMark v).hwctr = s.hwctr := rfl
@[simp] theorem State.setMark_status (s : State) (v : Mark) : (s.setMark v).status = s.status := rfl
@[simp] theorem State.setMark_wdelay (s : State) (v : Mark) : (s.setMark v).wdelay = s.wdelay := rfl
@[simp] theorem State.setMark_burst (s : State) (v : Mark) : (s.setMark v).burst = s.burst := rfl
@[simp] theorem State.setMark_lines (s : State) (v : Mark) : (s.setMark v).lines = s.lines := rfl
@[simp] theorem State.setMark_dbusDir (s : State) (v : Mark) : (s.setMark v).dbusDir = s.dbusDir := rfl
@[simp] theorem State.setMark_dbusOut (s : State) (v : Mark) : (s.setMark v).dbusOut = s.dbusOut := rfl
@[simp] theorem State.setMark_bus (s : State) (v : Mark) : (s.setMark v).bus = s.bus := rfl
@[simp] theorem State.setMark_txstate (s : State) (v : Mark) : (s.setMark v).txstate = s.txstate := rfl
@[simp] theorem State.setMark_trace (s : State) (v : Mark) : (s.setMark v).trace = s.trace := rfl
@[simp] theorem State.setMark_mark (s : State) (v : Mark) : (s.setMark v).mark = v := rfl
@[simp] theorem State.setMark_result (s : State) (v : Mark) : (s.setMark v).result = s.result := rfl
@[simp] theorem State.setMark_dev (s : State) (v : Mark) : (s.setMark v).dev = s.dev := rfl
@[simp] theorem State.setMark_oracle (s : State) (v : Mark) : (s.setMark v).oracle = s.oracle := rfl
@[simp] theorem State.setMark_draws (s : State) (v : Mark) : (s.setMark v).draws = s.draws := rfl

/-! ## State.setResult -/

@[simp] theorem State.setResult_cfg (s : State) (v : Option OpResult) : (s.setResult v).cfg = s.cfg := rfl
@[simp] theorem State.setResult_stream (s : State) (v : Option OpResult) : (s.setResult v).stream = s.stream := rfl
@[simp] theorem State.setResult_origin (s : State) (v : Option OpResult) : (s.setResult v).origin = s.origin := rfl
@[simp] theorem State.setResult_phase (s : State) (v : Option OpResult) : (s.setResult v).phase = s.phase := rfl
@[simp] theorem State.setResult_ctr (s : State) (v : Option OpResult) : (s.setResult v).ctr = s.ctr := rfl
@[simp] theorem State.setResult_hwctr (s : State) (v : Option OpResult) : (s.setResult v).hwctr = s.hwctr := rfl
@[simp] theorem State.setResult_status (s : State) (v : Option OpResult) : (s.setResult v).status = s.status := rfl
@[simp] theorem State.setResult_wdelay (s : State) (v : Option OpResult) : (s.setResult v).wdelay = s.wdelay := rfl
@[simp] theorem State.setResult_burst (s : State) (v : Option OpResult) : (s.setResult v).burst = s.burst := rfl
@[simp] theorem State.setResult_lines (s : State) (v : Option OpResult) : (s.setResult v).lines = s.lines := rfl
@[simp] theorem State.setResult_dbusDir (s : State) (v : Option OpResult) : (s.setResult v).dbusDir = s.dbusDir := rfl
@[simp] theorem State.setResult_dbusOut (s : State) (v : Option OpResult) : (s.setResult v).dbusOut = s.dbusOut := rfl
@[simp] theorem State.setResult_bus (s : State) (v : Option OpResult) : (s.setResult v).bus = s.bus := rfl
@[simp] theorem State.setResult_txstate (s : State) (v : Option OpResult) : (s.setResult v).txstate = s.txstate := rfl
@[simp] theorem State.setResult_trace (s : State) (v : Option OpResult) : (s.setResult v).trace = s.trace := rfl
@[simp] theorem State.setResult_mark (s : State) (v : Option OpResult) : (s.setResult v).mark = s.mark := rfl
@[simp] theorem State.setResult_result (s : State) (v : Option OpResult) : (s.setResult v).result = v := rfl
@[simp] theorem State.setResult_dev (s : State) (v : Option OpResult) : (s.setResult v).dev = s.dev := rfl
@[simp] theorem State.setResult_oracle (s : State) (v : Option OpResult) : (s.setResult v).oracle = s.oracle := rfl
@[simp] theorem State.setResult_draws (s : State) (v : Option OpResult) : (s.setResult v).draws = s.draws := rfl

/-! ## State.setDev -/

@[simp] theorem State.setDev_cfg (s : State) (v : Device) : (s.setDev v).cfg = s.cfg := rfl
@[simp] theorem State.setDev_stream (s : State) (v : Device) : (s.setDev v).stream = s.stream := rfl
@[simp] theorem State.setDev_origin (s : State) (v : Device) : (s.setDev v).origin = s.origin := rfl
@[simp] theorem State.setDev_phase (s : State) (v : Device) : (s.setDev v).phase = s.phase := rfl
@[simp] theorem State.setDev_ctr (s : State) (v : Device) : (s.setDev v).ctr = s.ctr := rfl
@[simp] theorem State.setDev_hwctr (s : State) (v : Device) : (s.setDev v).hwctr = s.hwctr := rfl
@[simp] theorem State.setDev_status (s : State) (v : Device) : (s.setDev v).status = s.status := rfl
@[simp] theorem State.setDev_wdelay (s : State) (v : Device) : (s.setDev v).wdelay = s.wdelay := rfl
@[simp] theorem State.setDev_burst (s : State) (v : Device) : (s.setDev v).burst = s.burst := rfl
@[simp] theorem State.setDev_lines (s : State) (v : Device) : (s.setDev v).lines = s.lines := rfl
@[simp] theorem State.setDev_dbusDir (s : State) (v : Device) : (s.setDev v).dbusDir = s.dbusDir := rfl
@[simp] theorem State.setDev_dbusOut (s : State) (v : Device) : (s.setDev v).dbusOut = s.dbusOut := rfl
@[simp] theorem State.setDev_bus (s : State) (v : Device) : (s.setDev v).bus = s.bus := rfl
@[simp] theorem State.setDev_txstate (s : State) (v : Device) : (s.setDev v).txstate = s.txstate := rfl
@[simp] theorem State.setDev_trace (s : State) (v : Device) : (s.setDev v).trace = s.trace := rfl
@[simp] theorem State.setDev_mark (s : State) (v : Device) : (s.setDev v).mark = s.mark := rfl
@[simp] theorem State.setDev_result (s : State) (v : Device) : (s.setDev v).result = s.result := rfl
@[simp] theorem State.setDev_dev (s : State) (v : Device) : (s.setDev v).dev = v := rfl
@[simp] theorem State.setDev_oracle (s : State) (v : Device) : (s.setDev v).oracle = s.oracle := rfl
@[simp] theorem State.setDev_draws (s : State) (v : Device) : (s.setDev v).draws = s.draws := rfl

/-! ## State.setOracle -/

@[simp] theorem State.setOracle_cfg (s : State) (v : BusOracle) : (s.setOracle v).cfg = s.cfg := rfl
@[simp] theorem State.setOracle_stream (s : State) (v : BusOracle) : (s.setOracle v).stream = s.stream := rfl
@[simp] theorem State.setOracle_origin (s : State) (v : BusOracle) : (s.setOracle v).origin = s.origin := rfl
@[simp] theorem State.setOracle_phase (s : State) (v : BusOracle) : (s.setOracle v).phase = s.phase := rfl
@[simp] theorem State.setOracle_ctr (s : State) (v : BusOracle) : (s.setOracle v).ctr = s.ctr := rfl
@[simp] theorem State.setOracle_hwctr (s : State) (v : BusOracle) : (s.setOracle v).hwctr = s.hwctr := rfl
@[simp] theorem State.setOracle_status (s : State) (v : BusOracle) : (s.setOracle v).status = s.status := rfl
@[simp] theorem State.setOracle_wdelay (s : State) (v : BusOracle) : (s.setOracle v).wdelay = s.wdelay := rfl
@[simp] theorem State.setOracle_burst (s : State) (v : BusOracle) : (s.setOracle v).burst = s.burst := rfl
@[simp] theorem State.setOracle_lines (s : State) (v : BusOracle) : (s.setOracle v).lines = s.lines := rfl
@[simp] theorem State.setOracle_dbusDir (s : State) (v : BusOracle) : (s.setOracle v).dbusDir = s.dbusDir := rfl
@[simp] theorem State.setOracle_dbusOut (s : State) (v : BusOracle) : (s.setOracle v).dbusOut = s.dbusOut := rfl
@[simp] theorem State.setOracle_bus (s : State) (v : BusOracle) : (s.setOracle v).bus = s.bus := rfl
@[simp] theorem State.setOracle_txstate (s : State) (v : BusOracle) : (s.setOracle v).txstate = s.txstate := rfl
@[simp] theorem State.setOracle_trace (s : State) (v : BusOracle) : (s.setOracle v).trace = s.trace := rfl
@[simp] theorem State.setOracle_mark (s : State) (v : BusOracle) : (s.setOracle v).mark = s.mark := rfl
@[simp] theorem State.setOracle_result (s : State) (v : BusOracle) : (s.setOracle v).result = s.result := rfl
@[simp] theorem State.setOracle_dev (s : State) (v : BusOracle) : (s.setOracle v).dev = s.dev := rfl
@[simp] theorem State.setOracle_oracle (s : State) (v : BusOracle) : (s.setOracle v).oracle = v := rfl
@[simp] theorem State.setOracle_draws (s : State) (v : BusOracle) : (s.setOracle v).draws = s.draws := rfl

/-! ## State.setDraws -/

@[simp] theorem State.setDraws_cfg (s : State) (v : Nat) : (s.setDraws v).cfg = s.cfg := rfl
@[simp] theorem State.setDraws_stream (s : State) (v : Nat) : (s.setDraws v).stream = s.stream := rfl
@[simp] theorem State.setDraws_origin (s : State) (v : Nat) : (s.setDraws v).origin = s.origin := rfl
@[simp] theorem State.setDraws_phase (s : State) (v : Nat) : (s.setDraws v).phase = s.phase := rfl
@[simp] theorem State.setDraws_ctr (s : State) (v : Nat) : (s.setDraws v).ctr = s.ctr := rfl
@[simp] theorem State.setDraws_hwctr (s : State) (v : Nat) : (s.setDraws v).hwctr = s.hwctr := rfl
@[simp] theorem State.setDraws_status (s : State) (v : Nat) : (s.setDraws v).status = s.status := rfl
@[simp] theorem State.setDraws_wdelay (s : State) (v : Nat) : (s.setDraws v).wdelay = s.wdelay := rfl
@[simp] theorem State.setDraws_burst (s : State) (v : Nat) : (s.setDraws v).burst = s.burst := rfl
@[simp] theorem State.setDraws_lines (s : State) (v : Nat) : (s.setDraws v).lines = s.lines := rfl
@[simp] theorem State.setDraws_dbusDir (s : State) (v : Nat) : (s.setDraws v).dbusDir = s.dbusDir := rfl
@[simp] theorem State.setDraws_dbusOut (s : State) (v : Nat) : (s.setDraws v).dbusOut = s.dbusOut := rfl
@[simp] theorem State.setDraws_bus (s : State) (v : Nat) : (s.setDraws v).bus = s.bus := rfl
@[simp] theorem State.setDraws_txstate (s : State) (v : Nat) : (s.setDraws v).txstate = s.txstate := rfl
@[simp] theorem State.setDraws_trace (s : State) (v : Nat) : (s.setDraws v).trace = s.trace := rfl
@[simp] theorem State.setDraws_mark (s : State) (v : Nat) : (s.setDraws v).mark = s.mark := rfl
@[simp] theorem State.setDraws_result (s : State) (v : Nat) : (s.setDraws v).result = s.result := rfl
@[simp] theorem State.setDraws_dev (s : State) (v : Nat) : (s.setDraws v).dev = s.dev := rfl
@[simp] theorem State.setDraws_oracle (s : State) (v : Nat) : (s.setDraws v).oracle = s.oracle := rfl
@[simp] theorem State.setDraws_draws (s : State) (v : Nat) : (s.setDraws v).draws = v := rfl

/-! ## The same field updated twice -/

@[simp] theorem State.setStream_setStream (s : State) (v w : List Byte) : (s.setStream v).setStream w = s.setStream w := rfl
@[simp] theorem State.setOrigin_setOrigin (s : State) (v w : Issuer) : (s.setOrigin v).setOrigin w = s.setOrigin w := rfl
@[simp] theorem State.setPhase_setPhase (s : State) (v w : Phase) : (s.setPhase v).setPhase w = s.setPhase w := rfl
@[simp] theorem State.setCtr_setCtr (s : State) (v w : Option Nat) : (s.setCtr v).setCtr w = s.setCtr w := rfl
@[simp] theorem State.setHwctr_setHwctr (s : State) (v w : Nat) : (s.setHwctr v).setHwctr w = s.setHwctr w := rfl
@[simp] theorem State.setStatus_setStatus (s : State) (v w : Option Byte) : (s.setStatus v).setStatus w = s.setStatus w := rfl
@[simp] theorem State.setWdelay_setWdelay (s : State) (v w : Nat) : (s.setWdelay v).setWdelay w = s.setWdelay w := rfl
@[simp] theorem State.setBurst_setBurst (s : State) (v w : Burst) : (s.setBurst v).setBurst w = s.setBurst w := rfl
@[simp] theorem State.setLines_setLines (s : State) (v w : Lines) : (s.setLines v).setLines w = s.setLines w := rfl
@[simp] theorem State.setDbusDir_setDbusDir (s : State) (v w : BusDir) : (s.setDbusDir v).setDbusDir w = s.setDbusDir w := rfl
@[simp] theorem State.setDbusOut_setDbusOut (s : State) (v w : Byte) : (s.setDbusOut v).setDbusOut w = s.setDbusOut w := rfl
@[simp] theorem State.setBus_setBus (s : State) (v w : BusState) : (s.setBus v).setBus w = s.setBus w := rfl
@[simp] theorem State.setTxstate_setTxstate (s : State) (v w : TxState) : (s.setTxstate v).setTxstate w = s.setTxstate w := rfl
@[simp] theorem State.setTrace_setTrace (s : State) (v w : List Event) : (s.setTrace v).setTrace w = s.setTrace w := rfl
@[simp] theorem State.setMark_setMark (s : State) (v w : Mark) : (s.setMark v).setMark w = s.setMark w := rfl
@[simp] theorem State.setResult_setResult (s : State) (v w : Option OpResult) : (s.setResult v).setResult w = s.setResult w := rfl
@[simp] theorem State.setDev_setDev (s : State) (v w : Device) : (s.setDev v).setDev w = s.setDev w := rfl
@[simp] theorem State.setOracle_setOracle (s : State) (v w : BusOracle) : (s.setOracle v).setOracle w = s.setOracle w := rfl
@[simp] theorem State.setDraws_setDraws (s : State) (v w : Nat) : (s.setDraws v).setDraws w = s.setDraws w := rfl

/-! ## Primitives as updates -/

@[simp] theorem emit_eq (s : State) (e : Event) : s.emit e = s.setTrace (s.trace ++ [e]) := rfl
@[simp] theorem draw_fst (s : State) : (draw s).1 = Config.freeByte s.draws := rfl
@[simp] theorem draw_snd (s : State) : (draw s).2 = s.setDraws (s.draws + 1) := rfl
@[simp] theorem drawStatus_eq (s : State) :
    drawStatus s = (s.setDraws (s.draws + 1)).setStatus (some (Config.freeByte s.draws)) := rfl
@[simp] theorem driveCe_eq (s : State) (v : LineState) : driveCe v s = s.setLines { s.lines with ce := v } := rfl
@[simp] theorem driveOe_eq (s : State) (v : LineState) : driveOe v s = s.setLines { s.lines with oe := v } := rfl
@[simp] theorem driveWe_eq (s : State) (v : LineState) : driveWe v s = s.setLines { s.lines with we := v } := rfl
@[simp] theorem driveClk_eq (s : State) (v : LineState) : driveClk v s = s.setLines { s.lines with clk := v } := rfl
@[simp] theorem driveRst_eq (s : State) (v : LineState) : driveRst v s = s.setLines { s.lines with rst := v } := rfl
@[simp] theorem returns_eq (s : State) (v : OpResult) : s.returns v = .next (s.setResult (some v)) := rfl
@[simp] theorem takeFault_eq (r : Fault) (s : State) : takeFault r s = (s.setMark (.fault r)).setResult none := rfl
@[simp] theorem takeRefusal_eq (r : Refusal) (s : State) : takeRefusal r s = (s.setMark (.refused r)).setResult none := rfl
@[simp] theorem faults_eq (r : Fault) (s : State) : faults r s = .next (takeFault r s) := rfl
@[simp] theorem refuses_eq (r : Refusal) (s : State) : refuses r s = .next (takeRefusal r s) := rfl

/-! ## Power -/

@[simp] theorem State.powerOn_cfg (c : Config) (m : Memory) (n : Nat) : (State.powerOn c m n).cfg = c := rfl
@[simp] theorem State.powerOn_mem (c : Config) (m : Memory) (n : Nat) : (State.powerOn c m n).dev.mem = m := rfl
@[simp] theorem State.powerCycle_cfg (s : State) : s.powerCycle.cfg = s.cfg := rfl
@[simp] theorem State.powerCycle_mem (s : State) : s.powerCycle.dev.mem = s.dev.mem := rfl
@[simp] theorem State.powerCycle_oracle (s : State) : s.powerCycle.oracle = s.oracle := rfl

/-! ## The device's updates as updates of `dev` -/

@[simp] theorem setMem_eq (s : State) (m : Memory) : s.setMem m = s.setDev { s.dev with mem := m } := rfl
@[simp] theorem setPending_eq (s : State) (p : List Host.Cell) : s.setPending p = s.setDev { s.dev with pending := p } := rfl
@[simp] theorem setBusy_eq (s : State) (b : Bool) : s.setBusy b = s.setDev { s.dev with busy := b } := rfl
@[simp] theorem setPtr_eq (s : State) (a : Nat) : s.setPtr a = s.setDev { s.dev with ptr := a } := rfl
@[simp] theorem setLatch_eq (s : State) (l : Latch) : s.setLatch l = s.setDev { s.dev with latch := l } := rfl
@[simp] theorem setAddrHi_eq (s : State) (b : Byte) : s.setAddrHi b = s.setDev { s.dev with addrHi := b } := rfl

end Sys2Proof.Machine
end

