-- ==== Sys2Proof/Laws/Device.lean ====
section
/-! SUPPORT. What the device's operations can do: each is a list of writes at known addresses, and one lemma says so for each. -/

namespace Sys2Proof.Machine

/-! ## Writes at the addresses of a set -/

/-- m' is m after writes at addresses of A only. -/
def WritesIn (A : Nat → Prop) (m m' : Memory) : Prop := ∃ cs : List Host.Cell, m' = memWriteAll m cs ∧ ∀ c ∈ cs, A c.1

theorem memWriteAll_append (cs ds : List Host.Cell) :
    ∀ m : Memory, memWriteAll m (cs ++ ds) = memWriteAll (memWriteAll m cs) ds := by
  induction cs with
  | nil => exact fun m => rfl
  | cons c cs ih => exact fun m => ih _

theorem WritesIn.refl (A : Nat → Prop) (m : Memory) : WritesIn A m m := ⟨[], rfl, by simp⟩

theorem WritesIn.mono {A B : Nat → Prop} {m m' : Memory} (h : WritesIn A m m') (hAB : ∀ a, A a → B a) : WritesIn B m m' := by
  obtain ⟨cs, h1, h2⟩ := h
  exact ⟨cs, h1, fun c hc => hAB _ (h2 c hc)⟩

theorem WritesIn.trans {A : Nat → Prop} {m m' m'' : Memory} (h : WritesIn A m m') (h' : WritesIn A m' m'') :
    WritesIn A m m'' := by
  obtain ⟨cs, h1, h2⟩ := h
  obtain ⟨ds, h3, h4⟩ := h'
  refine ⟨cs ++ ds, by rw [memWriteAll_append, ← h1, h3], fun c hc => ?_⟩
  rcases List.mem_append.1 hc with hc | hc
  · exact h2 c hc
  · exact h4 c hc

/-- An address outside A reads as before. -/
theorem WritesIn.read {A : Nat → Prop} {m m' : Memory} (h : WritesIn A m m') {a : Nat} (ha : ¬ A a) :
    memRead m' a = memRead m a := by
  obtain ⟨cs, h1, h2⟩ := h
  rw [h1]
  exact memRead_writeAll_other m fun c hc e => ha (e ▸ h2 c hc)

/-- The canonical form is kept. -/
theorem WritesIn.wf {A : Nat → Prop} {m m' : Memory} (h : WritesIn A m m') (hm : Memory.wf m = true) :
    Memory.wf m' = true := by
  obtain ⟨cs, h1, -⟩ := h
  exact h1 ▸ wf_writeAll cs m hm

/-- Cells below a bound stay below it. -/
theorem WritesIn.below {A : Nat → Prop} {m m' : Memory} {n : Nat} (h : WritesIn A m m') (hA : ∀ a, A a → a < n)
    (hm : ∀ c ∈ m, c.1 < n) : ∀ c ∈ m', c.1 < n := by
  obtain ⟨cs, h1, h2⟩ := h
  intro c hc
  rcases mem_writeAll (h1 ▸ hc) with hc | hc
  · exact hA _ (h2 c hc)
  · exact hm c hc

theorem WritesIn.one {A : Nat → Prop} (m : Memory) {a : Nat} (b : Byte) (h : A a) : WritesIn A m (memWrite m a b) :=
  ⟨[(a, b)], rfl, by simp [h]⟩

/-! ## Spoiling -/

/-- The cells that spoiling a list of addresses writes, from the n-th draw on. -/
def drawnCells : List Nat → Nat → List Host.Cell
  | [], _ => []
  | a :: l, n => (a, Config.freeByte n) :: drawnCells l (n + 1)

theorem drawnCells_fst (l : List Nat) : ∀ n, (drawnCells l n).map (·.1) = l := by
  induction l with
  | nil => exact fun _ => rfl
  | cons a l ih => exact fun n => by simp [drawnCells, ih]

theorem spoil_eq (a : Nat) (s : State) : spoil a s =
    { s with dev := { s.dev with mem := memWrite s.dev.mem a (Config.freeByte s.draws) }, draws := s.draws + 1 } := rfl

/-- Spoiling is a list of writes of drawn bytes. -/
theorem spoilAll_eq (l : List Nat) : ∀ s : State, spoilAll l s =
    { s with dev := { s.dev with mem := memWriteAll s.dev.mem (drawnCells l s.draws) }, draws := s.draws + l.length } := by
  induction l with
  | nil => exact fun s => rfl
  | cons a l ih =>
    intro s
    rw [spoilAll, ih, spoil_eq]
    simp [drawnCells, memWriteAll, Nat.add_assoc, Nat.add_comm 1]

theorem writesIn_drawn (l : List Nat) (n : Nat) (m : Memory) : WritesIn (· ∈ l) m (memWriteAll m (drawnCells l n)) :=
  ⟨_, rfl, fun c hc => by rw [← drawnCells_fst l n]; exact List.mem_map_of_mem hc⟩

/-- A spoiled address reads as one of the drawn bytes. -/
theorem memRead_drawn {l : List Nat} {a : Nat} (h : a ∈ l) : ∀ (n : Nat) (m : Memory),
    ∃ k, n ≤ k ∧ memRead (memWriteAll m (drawnCells l n)) a = Config.freeByte k := by
  induction l with
  | nil => cases h
  | cons b l ih =>
    intro n m
    by_cases hl : a ∈ l
    · obtain ⟨k, hk, e⟩ := ih hl (n + 1) (memWrite m b (Config.freeByte n))
      exact ⟨k, by omega, e⟩
    · obtain rfl : a = b := by simpa [hl] using h
      refine ⟨n, Nat.le_refl n, ?_⟩
      rw [drawnCells, memWriteAll, (writesIn_drawn l (n + 1) _).read hl, memRead_write, if_pos rfl]

/-! ## The write strobe, the commit and the delay -/

/-- What a write strobe does to the device. -/
theorem devWrite_eq (a : Nat) (b : Byte) (s : State) : devWrite a b s =
    if s.dev.busy then
      { s with dev := { s.dev with mem := memWrite s.dev.mem a (Config.freeByte s.draws) }, draws := s.draws + 1 }
    else if s.cfg.holdOk then { s with dev := { s.dev with pending := s.dev.pending ++ [(a, b)] } }
    else { s with dev := { s.dev with pending := s.dev.pending ++ [(a, Config.freeByte s.draws)] }, draws := s.draws + 1 } := by
  unfold devWrite
  split
  · rfl
  · split <;> rfl

/-- A commit writes at pending addresses, and may set the latch. -/
theorem commit_spec (s : State) : ∃ m l n, commit s = { s with dev := { s.dev with mem := m, latch := l }, draws := n } ∧
    WritesIn (· ∈ s.dev.pending.map (·.1)) s.dev.mem m := by
  have all : WritesIn (· ∈ s.dev.pending.map (·.1)) s.dev.mem (memWriteAll s.dev.mem s.dev.pending) :=
    ⟨_, rfl, fun c hc => List.mem_map_of_mem hc⟩
  have spoiled := writesIn_drawn (s.dev.pending.map (·.1)) s.draws s.dev.mem
  unfold commit
  split
  · unfold commitParallel
    simp only [spoilAll_eq]
    repeat' split
    · exact ⟨_, _, _, rfl, spoiled⟩
    · exact ⟨_, _, _, rfl, spoiled⟩
    · exact ⟨s.dev.mem, s.dev.latch, s.draws, rfl, WritesIn.refl _ _⟩
    · exact ⟨_, s.dev.latch, s.draws, rfl, all⟩
    · exact ⟨_, s.dev.latch, _, rfl, spoiled⟩
  · exact ⟨_, s.dev.latch, s.draws, rfl, all⟩

/-- What a delay does to the device: writes at pending addresses, nothing pending after, busy when the delay was too short. -/
theorem devDelay_spec (d : Nat) (s : State) : ∃ m l n, devDelay d s =
      { s with dev := { s.dev with mem := m, latch := l, pending := [], busy := devOccupied s && !writeDelayOk s.cfg d },
               draws := n } ∧
    WritesIn (· ∈ s.dev.pending.map (·.1)) s.dev.mem m := by
  unfold devDelay
  split
  · next h =>
    split
    · next hd =>
      obtain ⟨m, l, n, h1, h2⟩ := commit_spec s
      exact ⟨m, l, n, by rw [h1, h, hd]; rfl, h2⟩
    · next hd =>
      have hd : writeDelayOk s.cfg d = false := by simpa using hd
      refine ⟨_, s.dev.latch, s.draws + (s.dev.pending.map (·.1)).length, ?_,
        writesIn_drawn (s.dev.pending.map (·.1)) s.draws s.dev.mem⟩
      rw [spoilAll_eq, h, hd]
      rfl
  · next h =>
    obtain ⟨h1, h2⟩ : s.dev.busy = false ∧ s.dev.pending = [] := by simpa [devOccupied] using h
    refine ⟨s.dev.mem, s.dev.latch, s.draws, ?_, WritesIn.refl _ _⟩
    cases s with
    | mk cfg stream origin phase ctr hwctr status wdelay burst lines dbusDir dbusOut bus txstate trace mark result dev =>
      cases dev
      simp_all [devOccupied]

/-- An idle device does nothing in a delay. -/
theorem devDelay_idle {s : State} (d : Nat) (h : s.dev.busy = false) (hp : s.dev.pending = []) : devDelay d s = s := by
  simp [devDelay, devOccupied, h, hp]

/-- The latch stays as it is where the pending writes are no SDP sequence. -/
theorem devDelay_latch {s : State} (d : Nat)
    (h : s.cfg.backend = .i2c ∨ (s.dev.pending ≠ s.cfg.sdpEnableSeq ∧ s.dev.pending ≠ s.cfg.sdpDisableSeq)) :
    (devDelay d s).dev.latch = s.dev.latch := by
  unfold devDelay
  split
  · split
    · show (commit s).dev.latch = _
      unfold commit
      split
      · next hb =>
        obtain ⟨h1, h2⟩ : s.dev.pending ≠ s.cfg.sdpEnableSeq ∧ s.dev.pending ≠ s.cfg.sdpDisableSeq :=
          h.resolve_left (by rw [hb]; nofun)
        simp only [commitParallel, spoilAll_eq, beq_eq_false_iff_ne.2 h1, beq_eq_false_iff_ne.2 h2, Bool.and_false,
          Bool.false_eq_true, if_false]
        repeat' (first | rfl | split)
      · rfl
    · rw [spoilAll_eq]; rfl
  · rfl

/-- A good delay commits and ends the write cycle. -/
theorem devDelay_good {s : State} {d : Nat} (h : devOccupied s = true) (hd : writeDelayOk s.cfg d = true) :
    devDelay d s = ((commit s).setPending []).setBusy false := by
  simp [devDelay, h, hd]

/-- An aborted write: the target range is spoiled and the device is busy. -/
theorem devAbort_eq (l : List Nat) (s : State) : devAbort l s =
    { s with dev := { s.dev with mem := memWriteAll s.dev.mem (drawnCells l s.draws), pending := [], busy := true },
             draws := s.draws + l.length } := by
  rw [devAbort, spoilAll_eq]; rfl

/-! ## The I2C side -/

/-- What the device does with a byte of a frame or of data. -/
theorem devTx_eq (role : Role) (v : Byte) (acked : Bool) (s : State) : devTx role v acked s =
    match role with
    | .slaW => s
    | .slaR => s
    | .addrHi => if acked then { s with dev := { s.dev with addrHi := v } } else s
    | .addrLo => if acked then { s with dev := { s.dev with ptr := (s.dev.addrHi.toNat * 256 + v.toNat) % s.cfg.capacity } } else s
    | .data =>
      if s.dev.busy then
        { s with dev := { s.dev with mem := memWrite s.dev.mem s.dev.ptr (Config.freeByte s.draws), ptr := nextInPage s.dev.ptr },
                 draws := s.draws + 1 }
      else if acked then
        { s with dev := { s.dev with pending := s.dev.pending ++ [(s.dev.ptr, v)], ptr := nextInPage s.dev.ptr } }
      else s := by
  cases role <;> simp only [devTx, devFrameByte, devDataByte] <;> repeat' (first | rfl | split)

end Sys2Proof.Machine
end

