-- ==== Sys2Proof/Laws/Encoding.lean ====
section
/-! SUPPORT. The words, bytes and fields of the encoding, both ways: what each format reads from a word that was put together,
and how a word that a format accepts was put together. -/

namespace Sys2Proof

/-! ## Words and bytes -/

theorem opField_append (a : Byte) (b : BitVec 24) : opField (a ++ b) = a := by
  show BitVec.extractLsb' 24 8 (a ++ b : BitVec (8 + 24)) = a
  apply BitVec.eq_of_getLsbD_eq
  intro j hj
  rw [BitVec.getLsbD_extractLsb', BitVec.getLsbD_append]
  simp [hj]

theorem immField_append (a : Byte) (b : BitVec 24) : immField (a ++ b) = b := by
  show BitVec.extractLsb' 0 24 (a ++ b : BitVec (8 + 24)) = b
  apply BitVec.eq_of_getLsbD_eq
  intro j hj
  rw [BitVec.getLsbD_extractLsb', BitVec.getLsbD_append]
  simp [hj]

theorem opField_encodeWord (i : Instr) : opField (encodeWord i) = i.opcode := opField_append _ _

theorem immField_encodeWord (i : Instr) : immField (encodeWord i) = i.imm := immField_append _ _

/-- A word is its opcode and its operand field. -/
theorem opField_append_immField (w : Word) : opField w ++ immField w = w := by
  show (BitVec.extractLsb' 24 8 w ++ BitVec.extractLsb' 0 24 w : BitVec (8 + 24)) = w
  apply BitVec.eq_of_getLsbD_eq
  intro j hj
  rw [BitVec.getLsbD_append, BitVec.getLsbD_extractLsb', BitVec.getLsbD_extractLsb']
  split
  · simp [*]
  · rw [show 24 + (j - 24) = j by omega]; simp; intro _; omega

/-- The bytes of a word, most significant first, give it back. -/
theorem wordOfBytes_bytesOfWord (w : Word) :
    wordOfBytes (w.extractLsb' 24 8) (w.extractLsb' 16 8) (w.extractLsb' 8 8) (w.extractLsb' 0 8) = w := by
  show (((w.extractLsb' 24 8 ++ w.extractLsb' 16 8 : BitVec (8 + 8)) ++ w.extractLsb' 8 8 : BitVec (8 + 8 + 8)) ++
    w.extractLsb' 0 8 : BitVec (8 + 8 + 8 + 8)) = w
  apply BitVec.eq_of_getLsbD_eq
  intro j hj
  simp only [BitVec.getLsbD_append, BitVec.getLsbD_extractLsb']
  split
  · simp [*]
  split
  · rw [show 8 + (j - 8) = j by omega]; simp; intro _; omega
  split
  · rw [show 16 + (j - 8 - 8) = j by omega]; simp; intro _; omega
  · rw [show 24 + (j - 8 - 8 - 8) = j by omega]; simp; intro _; omega

/-- Four bytes put together and taken apart again. -/
theorem bytesOfWord_wordOfBytes (b3 b2 b1 b0 : Byte) : bytesOfWord (wordOfBytes b3 b2 b1 b0) = [b3, b2, b1, b0] := by
  have h (k j : Nat) (hj : j < 8) : (BitVec.extractLsb' k 8
      (((b3 ++ b2 : BitVec (8 + 8)) ++ b1 : BitVec (8 + 8 + 8)) ++ b0 : BitVec (8 + 8 + 8 + 8))).getLsbD j =
      (if k + j < 8 then b0.getLsbD (k + j) else if k + j - 8 < 8 then b1.getLsbD (k + j - 8)
        else if k + j - 8 - 8 < 8 then b2.getLsbD (k + j - 8 - 8) else b3.getLsbD (k + j - 8 - 8 - 8)) := by
    simp only [BitVec.getLsbD_append, BitVec.getLsbD_extractLsb', hj, decide_true, Bool.true_and]
  unfold bytesOfWord
  congr 1
  · apply BitVec.eq_of_getLsbD_eq
    intro j hj
    refine (h _ _ hj).trans ?_
    simp (disch := omega) only [if_neg]
    congr 1; omega
  congr 1
  · apply BitVec.eq_of_getLsbD_eq
    intro j hj
    refine (h _ _ hj).trans ?_
    simp (disch := omega) only [if_neg, if_pos]
    congr 1; omega
  congr 1
  · apply BitVec.eq_of_getLsbD_eq
    intro j hj
    refine (h _ _ hj).trans ?_
    simp (disch := omega) only [if_neg, if_pos]
    congr 1; omega
  congr 1
  · apply BitVec.eq_of_getLsbD_eq
    intro j hj
    refine (h _ _ hj).trans ?_
    simp (disch := omega) only [if_neg, if_pos]
    congr 1; omega

theorem opField_wordOfBytes (b3 b2 b1 b0 : Byte) : opField (wordOfBytes b3 b2 b1 b0) = b3 :=
  (List.cons.inj (bytesOfWord_wordOfBytes b3 b2 b1 b0)).1

/-! ## Fields of the operand -/

/-- A field that starts at bit k of the operand field. -/
theorem field_of_imm (w : Word) (k n : Nat) (h : k + n ≤ 24) : w.extractLsb' k n = (immField w).extractLsb' k n := by
  unfold immField
  apply BitVec.eq_of_getLsbD_eq
  intro j hj
  simp only [BitVec.getLsbD_extractLsb', hj]
  simp
  omega

theorem flag_of_imm (w : Word) : flagField w = (immField w).getLsbD 0 := by
  simp [flagField, immField]

/-- An operand field that is a byte with zeros above it. -/
theorem byteOperand_iff (x : BitVec 24) : x.extractLsb' 8 16 = 0 ↔ x = (0#16 ++ x.extractLsb' 0 8 : BitVec (16 + 8)) := by
  constructor
  · intro h
    apply BitVec.eq_of_getLsbD_eq
    intro j hj
    rw [BitVec.getLsbD_append, BitVec.getLsbD_extractLsb']
    split
    · simp [*]
    · have := congrArg (fun y : BitVec 16 => y.getLsbD (j - 8)) h
      simp only [BitVec.getLsbD_extractLsb', show 8 + (j - 8) = j by omega, show j - 8 < 16 by omega] at this
      simpa using this
  · intro h
    rw [h]
    apply BitVec.eq_of_getLsbD_eq
    intro j hj
    rw [BitVec.getLsbD_extractLsb', BitVec.getLsbD_append]
    simp

/-- An operand field that is a flag with zeros above it. -/
theorem flagOperand_iff (x : BitVec 24) : x.extractLsb' 1 23 = 0 ↔
    x = (0#23 ++ BitVec.ofBool (x.getLsbD 0) : BitVec (23 + 1)) := by
  constructor
  · intro h
    apply BitVec.eq_of_getLsbD_eq
    intro j hj
    rw [BitVec.getLsbD_append]
    split
    · next h0 => obtain rfl : j = 0 := by omega
                 simp
    · have := congrArg (fun y : BitVec 23 => y.getLsbD (j - 1)) h
      simp only [BitVec.getLsbD_extractLsb', show 1 + (j - 1) = j by omega, show j - 1 < 23 by omega] at this
      simpa using this
  · intro h
    rw [h]
    apply BitVec.eq_of_getLsbD_eq
    intro j hj
    rw [BitVec.getLsbD_extractLsb', BitVec.getLsbD_append]
    simp

/-- An operand field that is a role and a byte with zeros above them. -/
theorem transferOperand_iff (x : BitVec 24) : x.extractLsb' 11 13 = 0 ↔
    x = ((0#13 ++ x.extractLsb' 8 3 : BitVec (13 + 3)) ++ x.extractLsb' 0 8 : BitVec (13 + 3 + 8)) := by
  constructor
  · intro h
    apply BitVec.eq_of_getLsbD_eq
    intro j hj
    rw [BitVec.getLsbD_append, BitVec.getLsbD_append, BitVec.getLsbD_extractLsb', BitVec.getLsbD_extractLsb']
    split
    · simp [*]
    split
    · rw [show 8 + (j - 8) = j by omega]; simp [*]
    · have := congrArg (fun y : BitVec 13 => y.getLsbD (j - 11)) h
      simp only [BitVec.getLsbD_extractLsb', show 11 + (j - 11) = j by omega, show j - 11 < 13 by omega] at this
      simpa using this
  · intro h
    rw [h]
    apply BitVec.eq_of_getLsbD_eq
    intro j hj
    rw [BitVec.getLsbD_extractLsb', BitVec.getLsbD_append, BitVec.getLsbD_append, if_neg (by omega)]
    simp
    omega

/-! ## The formats -/

theorem formatN_iff (i j : Instr) (w : Word) : formatN i w = .ok j ↔ immField w = 0 ∧ j = i := by
  unfold formatN
  by_cases h : immField w = 0
  · rw [if_pos h]
    exact ⟨fun e => ⟨h, by simpa using e.symm⟩, fun e => by rw [e.2]⟩
  · rw [if_neg h]
    exact ⟨nofun, fun e => absurd e.1 h⟩

theorem formatImm_iff (mk : BitVec 24 → Instr) (j : Instr) (w : Word) : formatImm mk w = .ok j ↔ j = mk (immField w) := by
  simp [formatImm, eq_comm]

theorem formatB_iff (mk : Byte → Instr) (j : Instr) (w : Word) :
    formatB mk w = .ok j ↔ immField w = (0#16 ++ byteField w : BitVec (16 + 8)) ∧ j = mk (byteField w) := by
  unfold formatB
  have hb : byteField w = (immField w).extractLsb' 0 8 := field_of_imm w 0 8 (by omega)
  rw [field_of_imm w 8 16 (by omega), hb]
  by_cases h : (immField w).extractLsb' 8 16 = 0
  · rw [if_pos h]
    exact ⟨fun e => ⟨(byteOperand_iff _).1 h, by injection e with e; exact e.symm⟩, fun e => by rw [e.2]⟩
  · rw [if_neg h]
    exact ⟨nofun, fun e => absurd ((byteOperand_iff _).2 e.1) h⟩

theorem formatL_iff (mk : Bool → Instr) (j : Instr) (w : Word) : formatL mk w = .ok j ↔
    immField w = (0#23 ++ BitVec.ofBool (flagField w) : BitVec (23 + 1)) ∧ j = mk (flagField w) := by
  unfold formatL
  rw [field_of_imm w 1 23 (by omega), flag_of_imm]
  by_cases h : (immField w).extractLsb' 1 23 = 0
  · rw [if_pos h]
    exact ⟨fun e => ⟨(flagOperand_iff _).1 h, by injection e with e; exact e.symm⟩, fun e => by rw [e.2]⟩
  · rw [if_neg h]
    exact ⟨nofun, fun e => absurd ((flagOperand_iff _).2 e.1) h⟩

theorem roleOfBits_iff (r : BitVec 3) (role : Role) : roleOfBits r = some role ↔ r = bitsOfRole role := by
  cases role <;> revert r <;> decide

theorem formatT_iff (j : Instr) (w : Word) : formatT w = .ok j ↔
    ∃ role, immField w = ((0#13 ++ bitsOfRole role : BitVec (13 + 3)) ++ byteField w : BitVec (13 + 3 + 8)) ∧
      j = .iTx role (byteField w) := by
  unfold formatT
  have hb : byteField w = (immField w).extractLsb' 0 8 := field_of_imm w 0 8 (by omega)
  have hr : roleField w = (immField w).extractLsb' 8 3 := field_of_imm w 8 3 (by omega)
  rw [field_of_imm w 11 13 (by omega)]
  constructor
  · intro h
    split at h
    · next h0 =>
      split at h
      · next role hrole =>
        refine ⟨role, ?_, by simpa using h.symm⟩
        rw [← (roleOfBits_iff _ _).1 hrole, hr, hb]
        exact (transferOperand_iff _).1 h0
      · cases h
    · cases h
  · rintro ⟨role, h1, rfl⟩
    have hf : (immField w).extractLsb' 8 3 = bitsOfRole role := by
      rw [h1]
      apply BitVec.eq_of_getLsbD_eq
      intro j hj
      rw [BitVec.getLsbD_extractLsb', BitVec.getLsbD_append, BitVec.getLsbD_append]
      simp [hj]
    have h0 : (immField w).extractLsb' 11 13 = 0 := by
      rw [h1]
      apply BitVec.eq_of_getLsbD_eq
      intro j hj
      rw [BitVec.getLsbD_extractLsb', BitVec.getLsbD_append, BitVec.getLsbD_append, if_neg (by omega)]
      simp
      omega
    rw [if_pos h0, hr, hf, (roleOfBits_iff _ _).2 rfl]

end Sys2Proof
end

