-- ==== Sys2Proof/Laws/Parallel.lean ====
section
/-! SUPPORT. What the parallel sequencer's operations do, one lemma each: the micro-operations as updates, the loops in closed form,
and the device's side of a page write and of an SDP sequence. -/

namespace Sys2Proof.Machine

/-! ## Micro-operations -/

theorem pRstPulse_eq (s : State) : pRstPulse s =
    { s with lines := { s.lines with rst := .deasserted }, hwctr := 0, trace := s.trace ++ [.pRstPulse] } := rfl

theorem pClkPulse_eq (s : State) : pClkPulse s =
    { s with lines := { s.lines with clk := .deasserted }, hwctr := (s.hwctr + 1) % 2 ^ s.cfg.ctrBits,
             trace := s.trace ++ [.pClkPulse] } := rfl

/-- n clock pulses: the hardware counter n further, modulo its width. -/
theorem clkPulses_eq (n : Nat) : ∀ s : State, clkPulses n s =
    { s with lines := if n = 0 then s.lines else { s.lines with clk := .deasserted },
             hwctr := if n = 0 then s.hwctr else (s.hwctr + n) % 2 ^ s.cfg.ctrBits,
             trace := s.trace ++ List.replicate n .pClkPulse } := by
  induction n with
  | zero => intro s; simp [clkPulses]
  | succ n ih =>
    intro s
    rw [clkPulses, ih, pClkPulse_eq]
    by_cases h : n = 0
    · subst h; simp
    · simp [h, List.replicate_succ, Nat.add_assoc, Nat.add_comm 1]

theorem pIdle_eq (s : State) : pIdle s =
    { s with lines := ⟨.deasserted, .deasserted, .deasserted, .deasserted, .deasserted⟩, dbusDir := .input,
             trace := s.trace ++ [.pIdle] } := by
  simp only [pIdle, driveOe_eq, driveWe_eq, driveCe_eq, driveClk_eq, driveRst_eq, State.setLines_lines, emit_eq, State.setLines_setLines,
    State.setDbusDir_trace, State.setLines_trace]
  rfl

theorem pSelect_true (s : State) : pSelect true s =
    { s with lines := { s.lines with we := .deasserted, ce := .asserted }, dbusDir := .input,
             trace := s.trace ++ [.pSelect true] } := rfl

theorem pSelect_false (s : State) : pSelect false s =
    { s with lines := { s.lines with oe := .deasserted, ce := .deasserted }, trace := s.trace ++ [.pSelect false] } := rfl

/-- A read strobe: its byte, one event, OE deasserted; at most one draw, and nothing else. -/
theorem pReadStrobe_spec (s : State) : ∃ n, (pReadStrobe s).2 =
    { s with lines := { s.lines with oe := .deasserted }, draws := n,
             trace := s.trace ++ [.pReadStrobe (pReadStrobe s).1] } := by
  unfold pReadStrobe sampleDbus devRead
  repeat' split
  · exact ⟨_, rfl⟩
  · exact ⟨s.draws, rfl⟩
  · exact ⟨_, rfl⟩

/-- Under the entry invariant of rule R156 with an idle device and good holds, the byte is the addressed one. -/
theorem pReadStrobe_good {s : State} (hce : s.lines.ce = .asserted) (hwe : s.lines.we = .deasserted)
    (hin : s.dbusDir = .input) (hd : devOccupied s = false) (hh : s.cfg.holdOk = true) : pReadStrobe s =
    (memRead s.dev.mem (s.hwctr % s.cfg.capacity),
      { s with lines := { s.lines with oe := .deasserted },
               trace := s.trace ++ [.pReadStrobe (memRead s.dev.mem (s.hwctr % s.cfg.capacity))] }) := by
  have hs : sampleDbus (driveOe .asserted s) = (memRead s.dev.mem (s.hwctr % s.cfg.capacity), driveOe .asserted s) := by
    have h1 : deviceDrivesBus (driveOe .asserted s) = true := by simp [deviceDrivesBus, hce, hwe, hin]
    have h2 : (devOccupied (driveOe .asserted s) || !(driveOe .asserted s).cfg.holdOk) = false := by
      have : devOccupied (driveOe .asserted s) = devOccupied s := rfl
      rw [this, hd]
      simp [hh]
    rw [sampleDbus, if_pos h1, devRead, h2]
    rfl
  unfold pReadStrobe
  rw [hs]
  rfl

/-- Otherwise it is a draw. -/
theorem pReadStrobe_draw {s : State} (h : devOccupied s = true ∨ s.cfg.holdOk = false) : pReadStrobe s =
    (Config.freeByte s.draws,
      { s with lines := { s.lines with oe := .deasserted }, draws := s.draws + 1,
               trace := s.trace ++ [.pReadStrobe (Config.freeByte s.draws)] }) := by
  have hc : (devOccupied (driveOe .asserted s) || !(driveOe .asserted s).cfg.holdOk) = true := by
    rcases h with h | h
    · have : devOccupied (driveOe .asserted s) = devOccupied s := rfl
      rw [this, h]; rfl
    · have : (driveOe .asserted s).cfg.holdOk = s.cfg.holdOk := rfl
      rw [this, h]; simp
  have hs : sampleDbus (driveOe .asserted s) = draw (driveOe .asserted s) := by
    unfold sampleDbus
    split
    · unfold devRead; rw [if_pos hc]
    · rfl
  unfold pReadStrobe
  rw [hs]
  rfl

/-- A write strobe: the device's side at the address of the hardware counter, and the lines and the bus after it. -/
theorem pWriteStrobe_eq (v : Byte) (s : State) : pWriteStrobe v s =
    { s with lines := { s.lines with ce := .deasserted, oe := .deasserted, we := .deasserted }, dbusDir := .input,
             dbusOut := v, trace := s.trace ++ [.pWriteStrobe v],
             dev := (devWrite (s.hwctr % s.cfg.capacity) v s).dev,
             draws := (devWrite (s.hwctr % s.cfg.capacity) v s).draws } := by
  simp only [pWriteStrobe, devWrite_eq, parallelAddress]
  by_cases h : s.dev.busy = true
  · simp [h]; rfl
  · by_cases h' : s.cfg.holdOk = true
    · simp [h, h']; rfl
    · simp [h, h']; rfl

theorem delay_eq (d : Nat) (s : State) : delay d s =
    { s with dev := (devDelay d s).dev, draws := (devDelay d s).draws, trace := s.trace ++ [.delay d] } := by
  obtain ⟨m, l, n, h, -⟩ := devDelay_spec d s
  rw [delay, h]
  rfl

/-! ## The device's side of a list of strobes -/

/-- d' is d after strobes at addresses of A: bytes spoiled there, and bytes added to the pending writes there. -/
def LoadsIn (A : Nat → Prop) (d d' : Device) : Prop :=
  ∃ m l, d' = { d with mem := m, pending := d.pending ++ l } ∧ WritesIn A d.mem m ∧ ∀ c ∈ l, A c.1

theorem LoadsIn.refl (A : Nat → Prop) (d : Device) : LoadsIn A d d :=
  ⟨d.mem, [], by simp, WritesIn.refl A _, by simp⟩

theorem LoadsIn.trans {A : Nat → Prop} {d d' d'' : Device} (h : LoadsIn A d d') (h' : LoadsIn A d' d'') : LoadsIn A d d'' := by
  obtain ⟨m, l, rfl, h1, h2⟩ := h
  obtain ⟨m', l', rfl, h3, h4⟩ := h'
  refine ⟨m', l ++ l', by simp, h1.trans h3, fun c hc => ?_⟩
  rcases List.mem_append.1 hc with hc | hc
  · exact h2 c hc
  · exact h4 c hc

theorem LoadsIn.mono {A B : Nat → Prop} {d d' : Device} (h : LoadsIn A d d') (hAB : ∀ a, A a → B a) : LoadsIn B d d' := by
  obtain ⟨m, l, h0, h1, h2⟩ := h
  exact ⟨m, l, h0, h1.mono hAB, fun c hc => hAB _ (h2 c hc)⟩

/-- The device's side of a strobe depends on the device, the draws and the parameters only. -/
theorem devWrite_congr {s t : State} (a : Nat) (b : Byte) (h1 : t.dev = s.dev) (h2 : t.draws = s.draws) (h3 : t.cfg = s.cfg) :
    (devWrite a b t).dev = (devWrite a b s).dev ∧ (devWrite a b t).draws = (devWrite a b s).draws := by
  rw [devWrite_eq, devWrite_eq, h1, h2, h3]
  constructor <;> repeat' (first | rfl | exact h2 | split)

theorem devWrite_loads (a : Nat) (b : Byte) (s : State) : LoadsIn (· = a) s.dev (devWrite a b s).dev := by
  rw [devWrite_eq]
  repeat' split
  · exact ⟨_, [], by rw [List.append_nil], WritesIn.one _ _ rfl, by simp⟩
  · exact ⟨s.dev.mem, [(a, b)], rfl, WritesIn.refl _ _, by simp⟩
  · exact ⟨s.dev.mem, _, rfl, WritesIn.refl _ _, by simp⟩

theorem devWrite_pending (a : Nat) (b : Byte) (s : State) : (devWrite a b s).dev.busy = s.dev.busy ∧
    (devWrite a b s).dev.pending.length = s.dev.pending.length + (if s.dev.busy then 0 else 1) := by
  rw [devWrite_eq]
  by_cases h : s.dev.busy = true
  · simp [h]
  · by_cases h' : s.cfg.holdOk = true <;> simp [h, h']

/-- After strobes and a delay the memory has been written at the strobes' addresses and at those pending before. -/
theorem LoadsIn.delayed {A : Nat → Prop} {d : Device} {s : State} (n : Nat) (h : LoadsIn A d s.dev) (hp : d.pending = []) :
    WritesIn A d.mem (devDelay n s).dev.mem ∧ (devDelay n s).dev.pending = [] ∧ (devDelay n s).dev.ptr = d.ptr ∧
      (devDelay n s).dev.addrHi = d.addrHi := by
  obtain ⟨m, l, h0, h1, h2⟩ := h
  obtain ⟨m', l', k, h3, h4⟩ := devDelay_spec n s
  rw [h0] at h4
  refine ⟨?_, by rw [h3], by rw [h3, h0], by rw [h3, h0]⟩
  rw [h3]
  refine h1.trans (h4.mono fun a ha => ?_)
  obtain ⟨c, hc, rfl⟩ := List.mem_map.1 ha
  rw [hp] at hc
  exact h2 c hc

/-! ## Consecutive addresses -/

/-- The cells of a list of bytes at consecutive addresses. -/
def consecutive : Nat → List Byte → List Host.Cell
  | _, [] => []
  | a, b :: l => (a, b) :: consecutive (a + 1) l

theorem mem_consecutive {l : List Byte} : ∀ {a : Nat} {c : Host.Cell}, c ∈ consecutive a l → a ≤ c.1 ∧ c.1 < a + l.length := by
  induction l with
  | nil => intro a c h; cases h
  | cons b l ih =>
    intro a c h
    rcases List.mem_cons.1 h with rfl | h
    · simp
    · have := ih h; simp only [List.length_cons]; omega

/-- Bytes written at consecutive addresses are read back. -/
theorem memRead_consecutive (l : List Byte) : ∀ (m : Memory) (a i : Nat), i < l.length →
    memRead (memWriteAll m (consecutive a l)) (a + i) = l.getD i 0 := by
  induction l with
  | nil => intro m a i h; cases h
  | cons b l ih =>
    intro m a i h
    rw [consecutive, memWriteAll]
    cases i with
    | zero =>
      rw [Nat.add_zero, memRead_writeAll_other _ fun c hc e => by have := mem_consecutive hc; omega, memRead_write]
      simp
    | succ i =>
      have := ih (memWrite m a b) (a + 1) i (by simpa using h)
      rw [show a + (i + 1) = a + 1 + i by omega, this]
      simp

theorem writesIn_consecutive (m : Memory) (a : Nat) (l : List Byte) :
    WritesIn (fun x => a ≤ x ∧ x < a + l.length) m (memWriteAll m (consecutive a l)) :=
  ⟨_, rfl, fun _ hc => mem_consecutive hc⟩

/-- The addresses of an aligned page lie in one page. -/
theorem inOnePage_consecutive {a : Nat} {l : List Byte} (ha : a % 64 = 0) (hl : l.length ≤ 64) :
    inOnePage (consecutive a l) = true := by
  cases l with
  | nil => rfl
  | cons b l =>
    simp only [consecutive, inOnePage, List.all_eq_true, beq_iff_eq]
    intro d hd
    have h := mem_consecutive hd
    simp only [List.length_cons] at hl
    simp only [pageOf, pageSize]
    omega

/-! ## The byte loop of a page write -/

/-- The byte loop of a parallel page write, whatever the device does: the counter and the hardware counter one further per
byte, and the device loaded within the addresses strobed. -/
theorem strobePage_spec (page : List Byte) : ∀ (s : State) (c : Nat), s.ctr = some c → s.hwctr = c % 2 ^ s.cfg.ctrBits →
    c + page.length ≤ s.cfg.capacity → s.cfg.capacity ≤ 2 ^ s.cfg.ctrBits → ∃ o d n, strobePage page s =
      { s with lines := if page = [] then s.lines else ⟨.deasserted, .deasserted, .deasserted, .deasserted, s.lines.rst⟩,
               dbusDir := if page = [] then s.dbusDir else .input, dbusOut := o, ctr := some (c + page.length),
               hwctr := (c + page.length) % 2 ^ s.cfg.ctrBits, trace := s.trace ++ pageEvents page, dev := d, draws := n } ∧
      LoadsIn (fun a => c ≤ a ∧ a < c + page.length) s.dev d ∧
      (d.busy = s.dev.busy ∧ d.pending.length = s.dev.pending.length + (if s.dev.busy then 0 else page.length)) ∧
      (s.dev.busy = false → s.cfg.holdOk = true → n = s.draws ∧
        d = { s.dev with pending := s.dev.pending ++ consecutive c page }) := by
  induction page with
  | nil =>
    intro s c hc hw hb hcap
    refine ⟨s.dbusOut, s.dev, s.draws, ?_, LoadsIn.refl _ _, ⟨rfl, by simp⟩, fun _ _ => ⟨rfl, by simp [consecutive]⟩⟩
    cases s
    simp_all [strobePage, pageEvents]
  | cons b l ih =>
    intro s c hc hw hroom hcap
    simp only [List.length_cons] at hroom
    have haddr : s.hwctr % s.cfg.capacity = c := by
      rw [hw, Nat.mod_eq_of_lt (by omega : c < 2 ^ s.cfg.ctrBits), Nat.mod_eq_of_lt (by omega)]
    have hstep : bumpCtr (pClkPulse (pWriteStrobe b s)) =
        { s with lines := ⟨.deasserted, .deasserted, .deasserted, .deasserted, s.lines.rst⟩, dbusDir := .input, dbusOut := b,
                 ctr := some (c + 1), hwctr := (c + 1) % 2 ^ s.cfg.ctrBits,
                 trace := s.trace ++ [.pWriteStrobe b, .pClkPulse], dev := (devWrite c b s).dev,
                 draws := (devWrite c b s).draws } := by
      rw [pWriteStrobe_eq, pClkPulse_eq, haddr, hw]
      simp [bumpCtr, State.setCtr, hc]
    obtain ⟨o, d, n, h1, h2, hb, h3⟩ := ih _ (c + 1) (congrArg State.ctr hstep) (by rw [hstep]) (by rw [hstep]; simp; omega)
      (by rw [hstep]; exact hcap)
    refine ⟨o, d, n, ?_, ?_, ?_, ?_⟩
    · rw [strobePage, h1, hstep]
      by_cases hl : l = []
      · subst hl; simp [pageEvents]
      · simp [hl, pageEvents, Nat.add_assoc, Nat.add_comm 1]
    · rw [hstep] at h2
      refine ((devWrite_loads c b s).mono ?_).trans (h2.mono ?_)
      · intro a ha; simp only [List.length_cons]; omega
      · intro a ha; simp only [List.length_cons]; omega
    · rw [hstep] at hb
      obtain ⟨h4, h5⟩ := devWrite_pending c b s
      simp only [h4, h5] at hb
      refine ⟨hb.1, hb.2.trans ?_⟩
      by_cases hbusy : s.dev.busy = true
      · simp [hbusy]
      · simp [hbusy]; omega
    · intro hbusy hhold
      have hdw : devWrite c b s = { s with dev := { s.dev with pending := s.dev.pending ++ [(c, b)] } } := by
        rw [devWrite_eq, hbusy, hhold]; rfl
      rw [hstep] at h3
      obtain ⟨h4, h5⟩ := h3 (by simp [hdw, hbusy]) hhold
      refine ⟨by rw [h4]; simp [hdw], ?_⟩
      rw [h5]
      simp [hdw, consecutive]

/-! ## The steps of an SDP sequence -/

/-- One step of an SDP sequence. -/
theorem sdpStep_eq {s : State} {a : Nat} (b : Byte) (ha : a < s.cfg.capacity) (hcap : s.cfg.capacity ≤ 2 ^ s.cfg.ctrBits) :
    pWriteStrobe b ((clkPulses a ((pRstPulse s).setCtr (some 0))).setCtr (some a)) =
      { s with lines := ⟨.deasserted, .deasserted, .deasserted, if a = 0 then s.lines.clk else .deasserted, .deasserted⟩,
               dbusDir := .input, dbusOut := b, ctr := some a, hwctr := a,
               trace := s.trace ++ (.pRstPulse :: (List.replicate a .pClkPulse ++ [.pWriteStrobe b])),
               dev := (devWrite a b s).dev, draws := (devWrite a b s).draws } := by
  have hw : (if a = 0 then 0 else a % 2 ^ s.cfg.ctrBits) = a := by
    split
    · next h => exact h.symm
    · exact Nat.mod_eq_of_lt (by omega)
  have hx : ∃ x, (clkPulses a ((pRstPulse s).setCtr (some 0))).setCtr (some a) = x ∧ x =
      { s with lines := { s.lines with clk := if a = 0 then s.lines.clk else .deasserted, rst := .deasserted },
               ctr := some a, hwctr := a, trace := s.trace ++ (.pRstPulse :: List.replicate a .pClkPulse) } := by
    refine ⟨_, rfl, ?_⟩
    rw [pRstPulse_eq, clkPulses_eq]
    simp only [State.setCtr, Nat.zero_add, hw]
    by_cases h : a = 0 <;> simp [h]
  obtain ⟨x, h1, h2⟩ := hx
  rw [h1, pWriteStrobe_eq]
  obtain ⟨h3, h4⟩ := devWrite_congr (s := s) (t := x) (x.hwctr % x.cfg.capacity) b (by rw [h2]) (by rw [h2]) (by rw [h2])
  rw [h3, h4, h2]
  simp [Nat.mod_eq_of_lt ha]

/-- The steps of an SDP sequence whose offsets are within the device, whatever the device does. -/
theorem sdpSteps_spec (seq : List (Nat × Byte)) : ∀ s : State, (∀ p ∈ seq, p.1 < s.cfg.capacity) →
    s.cfg.capacity ≤ 2 ^ s.cfg.ctrBits → ∃ L w o d n, sdpSteps seq s =
      { s with lines := L, dbusDir := w, dbusOut := o, ctr := (seq.getLast?.map (·.1)).or s.ctr,
               hwctr := (seq.getLast?.map (·.1)).getD s.hwctr, trace := s.trace ++ sdpEvents seq, dev := d, draws := n } ∧
      LoadsIn (· ∈ seq.map (·.1)) s.dev d ∧
      (seq ≠ [] → s.lines.clk = .deasserted →
        L = ⟨.deasserted, .deasserted, .deasserted, .deasserted, .deasserted⟩ ∧ w = .input) ∧
      (s.dev.busy = false → s.cfg.holdOk = true → n = s.draws ∧ d = { s.dev with pending := s.dev.pending ++ seq }) := by
  induction seq with
  | nil =>
    intro s _ _
    refine ⟨s.lines, s.dbusDir, s.dbusOut, s.dev, s.draws, ?_, LoadsIn.refl _ _, fun h => absurd rfl h,
      fun _ _ => ⟨rfl, by simp⟩⟩
    cases s
    simp [sdpSteps, sdpEvents]
  | cons p l ih =>
    intro s hlt hcap
    obtain ⟨a, b⟩ := p
    have ha : a < s.cfg.capacity := hlt (a, b) (by simp)
    have hstep := sdpStep_eq b ha hcap
    obtain ⟨L, w, o, d, n, h1, h2, h3, h4⟩ := ih
      (pWriteStrobe b ((clkPulses a ((pRstPulse s).setCtr (some 0))).setCtr (some a)))
      (by rw [hstep]; exact fun p hp => hlt p (List.mem_cons_of_mem _ hp))
      (by rw [hstep]; exact hcap)
    rw [hstep] at h1 h2 h3 h4
    refine ⟨L, w, o, d, n, ?_, ?_, ?_, ?_⟩
    · rw [sdpSteps, hstep, h1]
      cases l with
      | nil => simp [sdpEvents]
      | cons q l =>
        obtain ⟨x, hx⟩ : ∃ x, (q :: l).getLast? = some x := ⟨_, List.getLast?_eq_some_getLast (by simp)⟩
        rw [List.getLast?_cons_cons, hx]
        simp [sdpEvents]
    · exact ((devWrite_loads a b s).mono (by simp +contextual)).trans (h2.mono (by simp +contextual))
    · intro _ hclk
      by_cases hl : l = []
      · subst hl
        have := congrArg State.lines h1
        have := congrArg State.dbusDir h1
        simp_all [sdpSteps]
      · exact h3 hl (by simp [hclk])
    · intro hbusy hhold
      have hdw : devWrite a b s = { s with dev := { s.dev with pending := s.dev.pending ++ [(a, b)] } } := by
        rw [devWrite_eq, hbusy, hhold]; rfl
      rw [hdw] at h4
      obtain ⟨h5, h6⟩ := h4 hbusy hhold
      exact ⟨h5, by rw [h6]; simp⟩

end Sys2Proof.Machine
end

