-- ==== Sys2Proof/Laws/I2c.lean ====
section
/-! SUPPORT. What the I2C engine's operations do, one lemma each: for every answer of the bus, and for the expected answers. -/

namespace Sys2Proof.Machine

/-! ## The bus oracle -/

/-- The oracle after n answers. -/
def oracleAfter (n : Nat) (o : BusOracle) : BusOracle := { o with script := o.script.drop n }

/-- The next n answers are the expected ones. -/
def AnswersExpected (n : Nat) (o : BusOracle) : Prop :=
  ∀ i, i < n → o.script[i]? = some none ∨ (o.script[i]? = none ∧ o.rest = .cooperative)

theorem oracleAfter_add (m n : Nat) (o : BusOracle) : oracleAfter m (oracleAfter n o) = oracleAfter (n + m) o := by
  simp [oracleAfter]

theorem oracleAfter_zero (o : BusOracle) : oracleAfter 0 o = o := rfl

theorem AnswersExpected.mono {m n : Nat} {o : BusOracle} (h : AnswersExpected n o) (hm : m ≤ n) : AnswersExpected m o :=
  fun i hi => h i (by omega)

theorem AnswersExpected.after {m n : Nat} {o : BusOracle} (h : AnswersExpected (n + m) o) :
    AnswersExpected m (oracleAfter n o) := fun i hi => by
  simpa [oracleAfter] using h (n + i) (by omega)

/-- A cooperative bus gives the expected answer for ever. -/
theorem answersExpected_of_cooperative {s : State} (h : Cooperative s) (n : Nat) : AnswersExpected n s.oracle := by
  intro i _
  obtain ⟨h1, h2⟩ := h
  cases hi : s.oracle.script[i]? with
  | none => exact .inr ⟨rfl, h2⟩
  | some x =>
    obtain ⟨hlt, hx⟩ := List.getElem?_eq_some_iff.1 hi
    have := List.all_eq_true.1 h1 x (hx ▸ List.getElem_mem hlt)
    exact .inl (by simpa using this)

/-- A cooperative bus stays so. -/
theorem cooperative_after {s t : State} (h : Cooperative s) {n : Nat} (ht : t.oracle = oracleAfter n s.oracle) :
    Cooperative t := by
  obtain ⟨h1, h2⟩ := h
  refine ⟨?_, by rw [ht]; exact h2⟩
  rw [ht, List.all_eq_true]
  exact fun x hx => List.all_eq_true.1 h1 x (List.mem_of_mem_drop hx)

/-- A script of n expected answers. -/
theorem answersExpected_of_script {o : BusOracle} {n : Nat} {l : List (Option Byte)}
    (h : o.script = List.replicate n none ++ l) : AnswersExpected n o := by
  intro i hi
  rw [h, List.getElem?_append_left (by simpa using hi)]
  simp [hi]

/-- An answer of the bus: one entry of the script is used up, and at most one value is drawn; a scripted answer is given. -/
theorem busStatus_spec (exp : Byte) (s : State) : ∃ raw n, busStatus exp s =
      (raw, { s with oracle := oracleAfter 1 s.oracle, draws := n }) ∧ s.draws ≤ n ∧
    ∀ r l, s.oracle.script = some r :: l → raw = r ∧ n = s.draws := by
  unfold busStatus
  split
  · next raw l h =>
    refine ⟨raw, s.draws, ?_, Nat.le_refl _, fun r l' h' => ?_⟩
    · simp [oracleAfter, h, State.setOracle]
    · rw [h] at h'; simp_all
  · next l h =>
    refine ⟨exp, s.draws, ?_, Nat.le_refl _, fun r l' h' => ?_⟩
    · simp [oracleAfter, h, State.setOracle]
    · rw [h] at h'; simp at h'
  · next h =>
    have ho : oracleAfter 1 s.oracle = s.oracle := by cases ho : s.oracle; simp_all [oracleAfter]
    split
    · exact ⟨exp, s.draws, by rw [ho], Nat.le_refl _, fun r l' h' => by rw [h] at h'; simp at h'⟩
    · exact ⟨_, _, by rw [ho]; rfl, Nat.le_succ _, fun r l' h' => by rw [h] at h'; simp at h'⟩

theorem busStatus_expected {s : State} (exp : Byte) (h : AnswersExpected 1 s.oracle) :
    busStatus exp s = (exp, { s with oracle := oracleAfter 1 s.oracle }) := by
  have h0 := h 0 (by omega)
  unfold busStatus
  split
  · next raw l hs => rw [hs] at h0; simp at h0
  · next l hs => simp [oracleAfter, hs, State.setOracle]
  · next hs =>
    have ho : oracleAfter 1 s.oracle = s.oracle := by cases ho : s.oracle; simp_all [oracleAfter]
    rw [hs] at h0
    simp only [List.getElem?_nil, reduceCtorEq, false_or, true_and] at h0
    rw [h0, ho]

/-- A bus step: the masked code, and the state it names where the code is the expected one. -/
theorem busStep_spec (exp : Byte) (named : TxState) (s : State) : ∃ raw n, busStep exp named s =
      (raw &&& s.cfg.statusMask,
        { s with oracle := oracleAfter 1 s.oracle, draws := n,
                 txstate := if raw &&& s.cfg.statusMask = exp then named else s.txstate }) ∧ s.draws ≤ n ∧
    ∀ r l, s.oracle.script = some r :: l → raw = r ∧ n = s.draws := by
  obtain ⟨raw, n, h1, h2, h3⟩ := busStatus_spec exp s
  refine ⟨raw, n, ?_, h2, h3⟩
  by_cases h : raw &&& s.cfg.statusMask = exp
  · have h' : statusCode s.cfg raw = exp := h
    simp [busStep, h1, h', h, State.setTxstate]
  · have h' : statusCode s.cfg raw ≠ exp := h
    simp only [busStep, h1, h', h, if_false]
    rfl

theorem busStep_expected {s : State} {exp : Byte} (named : TxState) (h : AnswersExpected 1 s.oracle)
    (he : exp &&& s.cfg.statusMask = exp) : busStep exp named s =
      (exp, { s with oracle := oracleAfter 1 s.oracle, txstate := named }) := by
  have h' : statusCode s.cfg exp = exp := he
  simp [busStep, busStatus_expected exp h, h', State.setTxstate]

/-- The expected codes survive the mask (rule R192). -/
theorem masked_of_configOk {c : Config} (h : configOk c = true) :
    c.expStart &&& c.statusMask = c.expStart ∧ c.expRepStart &&& c.statusMask = c.expRepStart ∧
    (∀ r, txExpected c r &&& c.statusMask = txExpected c r) ∧ c.expRxAck &&& c.statusMask = c.expRxAck ∧
    c.expRxNack &&& c.statusMask = c.expRxNack ∧ c.expTxAck &&& c.statusMask = c.expTxAck ∧ c.statusMask ≠ 0xFF := by
  simp only [configOk, statusCodesOk, Bool.and_eq_true, List.all_cons, List.all_nil, beq_iff_eq, bne_iff_ne] at h
  obtain ⟨⟨-, h0, h1, h2, h3, h4, h5, h6, h7, -⟩, -⟩ := h
  exact ⟨h1, h2, fun r => by cases r <;> assumption, h6, h7, h4, h0⟩

/-- A masked code is not the sentinel (rule R192). -/
theorem masked_ne_sentinel {c m : Byte} (h : c &&& m = c) (hm : m ≠ 0xFF) : c ≠ 0xFF := by
  rintro rfl
  apply hm
  have ha : (0xFF : Byte) &&& m = m := BitVec.allOnes_and
  rw [ha] at h
  exact h

theorem masked_idem (raw m : Byte) : raw &&& m &&& m = raw &&& m := by rw [BitVec.and_assoc, BitVec.and_self]

/-! ## Steps -/

theorem iStop_eq (s : State) : iStop s =
    { s with bus := .idle, txstate := .idle, trace := s.trace ++ [.iStop .stop],
             dev := { s.dev with busy := s.dev.busy || !s.dev.pending.isEmpty } } := by
  unfold iStop devStop
  split
  · next h => simp [h, State.setTxstate, State.setBus, State.setTrace]
  · next h => simp [h, State.setTxstate, State.setBus, State.setTrace, State.setDev]

/-- STEP(I_START). -/
theorem stepStart_spec (s : State) : ∃ code n x, stepStart s = (code == s.cfg.expStart,
      { s with bus := .held, oracle := oracleAfter 1 s.oracle, draws := n, txstate := x, status := some code,
               trace := s.trace ++ [.iStart code .start] }) ∧ code &&& s.cfg.statusMask = code := by
  obtain ⟨raw, n, h1, -, -⟩ := busStep_spec s.cfg.expStart .start (s.setBus .held)
  exact ⟨_, n, _, by rw [stepStart, recordStep, iStart, h1]; rfl, masked_idem _ _⟩

/-- STEP(I_REPSTART). -/
theorem stepRepStart_spec (s : State) : ∃ code n x, stepRepStart s = (code == s.cfg.expRepStart,
      { s with oracle := oracleAfter 1 s.oracle, draws := n, txstate := x, status := some code,
               trace := s.trace ++ [.iRepStart code .repeatedStart] }) ∧ code &&& s.cfg.statusMask = code := by
  obtain ⟨raw, n, h1, -, -⟩ := busStep_spec s.cfg.expRepStart .repeatedStart s
  exact ⟨_, n, _, by rw [stepRepStart, recordStep, iRepStart, h1]; rfl, masked_idem _ _⟩

/-- I_TX: the code, the event, and the device's side. -/
theorem iTx_spec (role : Role) (v : Byte) (s : State) : ∃ raw n x,
    let code := raw &&& s.cfg.statusMask
    let t := devTx role v (code == txExpected s.cfg role) { s with draws := n }
    iTx role v s = (code, { s with oracle := oracleAfter 1 s.oracle, txstate := x, trace := s.trace ++ [.iTx role v code (txNamed role)],
                                   dev := t.dev, draws := t.draws }) ∧
      x = (if code = txExpected s.cfg role then txNamed role else s.txstate) ∧ s.draws ≤ n ∧
      ∀ r l, s.oracle.script = some r :: l → raw = r ∧ n = s.draws := by
  obtain ⟨raw, n, h1, h2, h3⟩ := busStep_spec (txExpected s.cfg role) (txNamed role) s
  refine ⟨raw, n, _, ?_, rfl, h2, h3⟩
  rw [iTx, h1]
  simp only [devTx_eq]
  cases role <;> simp only <;> repeat' (first | rfl | split)

/-- STEP(I_TX). -/
theorem stepTx_spec (role : Role) (v : Byte) (s : State) : ∃ code n x,
    let t := devTx role v (code == txExpected s.cfg role) { s with draws := n }
    stepTx role v s = (code == txExpected s.cfg role,
        { s with oracle := oracleAfter 1 s.oracle, txstate := x, status := some code, dev := t.dev, draws := t.draws,
                 trace := s.trace ++ [.iTx role v code (txNamed role)] }) ∧
      code &&& s.cfg.statusMask = code ∧ s.draws ≤ n ∧ (∀ r l, s.oracle.script = some r :: l →
        code = r &&& s.cfg.statusMask ∧ n = s.draws) := by
  obtain ⟨raw, n, x, h1, -, h2, h3⟩ := iTx_spec role v s
  refine ⟨_, n, x, by rw [stepTx, recordStep, h1]; rfl, masked_idem _ _, h2, fun r l h => ?_⟩
  obtain ⟨h4, h5⟩ := h3 r l h
  exact ⟨by rw [h4], h5⟩

theorem stepTx_expected {s : State} (role : Role) (v : Byte) (hc : configOk s.cfg = true) (h : AnswersExpected 1 s.oracle) :
    stepTx role v s = (true,
      { s with oracle := oracleAfter 1 s.oracle, txstate := txNamed role, status := some (txExpected s.cfg role),
               dev := (devTx role v true s).dev, draws := (devTx role v true s).draws,
               trace := s.trace ++ [.iTx role v (txExpected s.cfg role) (txNamed role)] }) := by
  have he := (masked_of_configOk hc).2.2.1 role
  rw [stepTx, recordStep, iTx, busStep_expected _ h he]
  simp only [devTx_eq, beq_self_eq_true]
  cases role <;> simp only <;> repeat' (first | rfl | split)

theorem stepStart_expected {s : State} (hc : configOk s.cfg = true) (h : AnswersExpected 1 s.oracle) :
    stepStart s = (true,
      { s with bus := .held, oracle := oracleAfter 1 s.oracle, txstate := .start, status := some s.cfg.expStart,
               trace := s.trace ++ [.iStart s.cfg.expStart .start] }) := by
  have hb := busStep_expected (s := s.setBus .held) .start h (masked_of_configOk hc).1
  simp only [State.setBus_cfg] at hb
  rw [stepStart, recordStep, iStart, hb]
  simp
  rfl

theorem stepRepStart_expected {s : State} (hc : configOk s.cfg = true) (h : AnswersExpected 1 s.oracle) :
    stepRepStart s = (true,
      { s with oracle := oracleAfter 1 s.oracle, txstate := .repeatedStart, status := some s.cfg.expRepStart,
               trace := s.trace ++ [.iRepStart s.cfg.expRepStart .repeatedStart] }) := by
  rw [stepRepStart, recordStep, iRepStart, busStep_expected .repeatedStart h (masked_of_configOk hc).2.1]
  simp
  rfl

/-! ## FRAME -/

/-- The two address bytes give the counter back. -/
theorem addressOfBytes {c : Nat} (hc : c < 65536) : (addrHiByte c).toNat * 256 + (addrLoByte c).toNat = c := by
  simp only [addrHiByte, addrLoByte, BitVec.toNat_ofNat]
  omega

theorem thenStep_true {s : State} {f : State → Bool × State} : thenStep (true, s) f = f s := rfl
theorem thenStep_false {s : State} {f : State → Bool × State} : thenStep (false, s) f = (false, s) := rfl

/-- FRAME() with the expected answers. -/
theorem frame_expected {s : State} {c : Nat} (hc : configOk s.cfg = true) (hlt : c < s.cfg.capacity) (h16 : c < 65536)
    (h : AnswersExpected 4 s.oracle) : frame c s = (true,
      { s with bus := .held, txstate := .loAddrByteAck, status := some s.cfg.expTxAck, oracle := oracleAfter 4 s.oracle,
               trace := s.trace ++ frameEvents s.cfg c, dev := { s.dev with ptr := c, addrHi := addrHiByte c } }) := by
  have hlo : BitVec.ofNat 8 (c % 256) = addrLoByte c := by
    apply BitVec.eq_of_toNat_eq; simp [addrLoByte]
  have ha : (c / 256 % 256 * 256 + (addrLoByte c).toNat) % s.cfg.capacity = c := by
    rw [show c / 256 % 256 * 256 + (addrLoByte c).toNat = c by simp only [addrLoByte, BitVec.toNat_ofNat]; omega,
      Nat.mod_eq_of_lt hlt]
  have h1 : AnswersExpected 1 s.oracle := h.mono (by omega)
  have h2 : AnswersExpected 1 (oracleAfter 1 s.oracle) := (h.mono (by omega : 1 + 1 ≤ 4)).after
  have h3 : AnswersExpected 1 (oracleAfter 2 s.oracle) := (h.mono (by omega : 2 + 1 ≤ 4)).after
  have h4 : AnswersExpected 1 (oracleAfter 3 s.oracle) := (h.mono (by omega : 3 + 1 ≤ 4)).after
  rw [frame, stepStart_expected hc h1, thenStep_true, stepTx_expected, thenStep_true, stepTx_expected, thenStep_true,
    stepTx_expected]
  rotate_left
  · exact hc
  · simpa only [oracleAfter_add] using h4
  · exact hc
  · simpa only [oracleAfter_add] using h3
  · exact hc
  · exact h2
  simp [devTx_eq, oracleAfter_add, ha, txNamed, txExpected, frameEvents, slaWByte, hlo,
    addrHiByte]

/-! ## Bus steps for every answer -/

/-- t is s after bus steps: the bus, the I2C states, the trace, the oracle, the draws and the device may have changed, and the
status holds a masked code. -/
structure BusMoves (s t : State) : Prop where
  eq : t = { s with bus := t.bus, txstate := t.txstate, status := t.status, trace := t.trace, oracle := t.oracle,
                    draws := t.draws, dev := t.dev }
  trace : s.trace <+: t.trace
  code : ∃ c, t.status = some c ∧ c &&& s.cfg.statusMask = c

theorem BusMoves.cfg {s t : State} (h : BusMoves s t) : t.cfg = s.cfg := by rw [h.eq]

theorem BusMoves.ctr {s t : State} (h : BusMoves s t) : t.ctr = s.ctr := by rw [h.eq]

theorem BusMoves.trans {s t u : State} (h : BusMoves s t) (h' : BusMoves t u) : BusMoves s u := by
  refine ⟨?_, h.trace.trans h'.trace, by rw [← h.cfg]; exact h'.code⟩
  have h1 := h.eq
  have h2 := h'.eq
  rw [h1] at h2
  exact h2

theorem BusMoves.setCtr {s t : State} (h : BusMoves s t) (x : Option Nat) :
    BusMoves { s with ctr := x } { t with ctr := x } :=
  ⟨by have := h.eq; rw [this], h.trace, h.code⟩

theorem stepStart_moves (s : State) : BusMoves s (stepStart s).2 ∧ (stepStart s).2.bus = .held ∧ (stepStart s).2.dev = s.dev := by
  obtain ⟨c, n, x, h, k⟩ := stepStart_spec s
  rw [h]
  exact ⟨⟨rfl, List.prefix_append _ _, c, rfl, k⟩, rfl, rfl⟩

theorem stepRepStart_moves (s : State) : BusMoves s (stepRepStart s).2 ∧ (stepRepStart s).2.bus = s.bus ∧
    (stepRepStart s).2.dev = s.dev := by
  obtain ⟨c, n, x, h, k⟩ := stepRepStart_spec s
  rw [h]
  exact ⟨⟨rfl, List.prefix_append _ _, c, rfl, k⟩, rfl, rfl⟩

theorem stepTx_moves (role : Role) (v : Byte) (s : State) : BusMoves s (stepTx role v s).2 ∧ (stepTx role v s).2.bus = s.bus ∧
    ∃ n, (stepTx role v s).2.dev = (devTx role v (stepTx role v s).1 { s with draws := n }).dev := by
  obtain ⟨c, n, x, h, k, -, -⟩ := stepTx_spec role v s
  rw [h]
  exact ⟨⟨rfl, List.prefix_append _ _, c, rfl, k⟩, rfl, n, rfl⟩

theorem thenStep_cases (p : Bool × State) (f : State → Bool × State) :
    (p.1 = false ∧ thenStep p f = (false, p.2)) ∨ (p.1 = true ∧ thenStep p f = f p.2) := by
  obtain ⟨b, s⟩ := p
  cases b
  · exact .inl ⟨rfl, rfl⟩
  · exact .inr ⟨rfl, rfl⟩

/-- FRAME() for every answer of the bus: the bus is held; the device's pointer is the counter after a whole frame, and as it was
otherwise. -/
theorem frame_spec {c : Nat} {s : State} (hlt : c < s.cfg.capacity) (h16 : c < 65536) :
    BusMoves s (frame c s).2 ∧ (frame c s).2.bus = .held ∧
      ∃ hi, (frame c s).2.dev = if (frame c s).1 then { s.dev with ptr := c, addrHi := hi } else { s.dev with addrHi := hi } := by
  obtain ⟨m1, b1, d1⟩ := stepStart_moves s
  rcases thenStep_cases (stepStart s) (fun t => stepTx .slaW (slaWByte t.cfg) t) with ⟨-, e1⟩ | ⟨-, e1⟩
  · simp only [frame, e1, thenStep_false]
    exact ⟨m1, b1, s.dev.addrHi, d1⟩
  obtain ⟨m2, b2, n2, d2⟩ := stepTx_moves .slaW (slaWByte (stepStart s).2.cfg) (stepStart s).2
  rw [← e1] at m2 b2 d2
  simp only [devTx_eq] at d2
  generalize hp : thenStep (stepStart s) (fun t => stepTx .slaW (slaWByte t.cfg) t) = p at *
  rcases thenStep_cases p (stepTx .addrHi (addrHiByte c)) with ⟨-, e2⟩ | ⟨-, e2⟩
  · simp only [frame, hp, e2, thenStep_false]
    exact ⟨m1.trans m2, b2.trans b1, s.dev.addrHi, d2.trans d1⟩
  obtain ⟨m3, b3, n3, d3⟩ := stepTx_moves .addrHi (addrHiByte c) p.2
  rw [← e2] at m3 b3 d3
  simp only [devTx_eq] at d3
  generalize hq : thenStep p (stepTx .addrHi (addrHiByte c)) = q at *
  rcases thenStep_cases q (stepTx .addrLo (addrLoByte c)) with ⟨hq1, e3⟩ | ⟨hq1, e3⟩
  · simp only [frame, hp, hq, e3]
    rw [hq1] at d3
    exact ⟨(m1.trans m2).trans m3, (b3.trans b2).trans b1, s.dev.addrHi, d3.trans (d2.trans d1)⟩
  obtain ⟨m4, b4, n4, d4⟩ := stepTx_moves .addrLo (addrLoByte c) q.2
  rw [← e3] at m4 b4 d4
  simp only [devTx_eq] at d4
  rw [hq1] at d3
  simp only [if_true, d2, d1] at d3
  have hcfg : q.2.cfg = s.cfg := ((m1.trans m2).trans m3).cfg
  rw [hcfg, d3] at d4
  simp only [addressOfBytes h16, Nat.mod_eq_of_lt hlt] at d4
  simp only [frame, hp, hq]
  exact ⟨((m1.trans m2).trans m3).trans m4, ((b4.trans b3).trans b2).trans b1, addrHiByte c, by
    rw [d4]; split <;> rfl⟩

/-! ## START_SEQ_READ -/

/-- The steps of a read burst's start with the expected answers. -/
theorem readFrame_expected {s : State} {c : Nat} (hc : configOk s.cfg = true) (hlt : c < s.cfg.capacity) (h16 : c < 65536)
    (h : AnswersExpected 6 s.oracle) : readFrame c s = (true,
      { s with bus := .held, txstate := .slaveAddrReadAck, status := some s.cfg.expSlaRAck, oracle := oracleAfter 6 s.oracle,
               trace := s.trace ++ readFrameEvents s.cfg c, dev := { s.dev with ptr := c, addrHi := addrHiByte c } }) := by
  have h5 : AnswersExpected 1 (oracleAfter 4 s.oracle) := (h.mono (by omega : 4 + 1 ≤ 6)).after
  have h6 : AnswersExpected 1 (oracleAfter 5 s.oracle) := (h.mono (by omega : 5 + 1 ≤ 6)).after
  rw [readFrame, frame_expected hc hlt h16 (h.mono (by omega)), thenStep_true, stepRepStart_expected, thenStep_true,
    stepTx_expected]
  rotate_left
  · exact hc
  · simpa only [oracleAfter_add] using h6
  · exact hc
  · exact h5
  simp [devTx_eq, oracleAfter_add, txNamed, txExpected, readFrameEvents, slaRByte]

/-- START_SEQ_READ on I2C for every answer of the bus: the bus is held after a success and stopped after a failure; nothing but
the pointer and the address byte of the device changes, if nothing was pending. -/
theorem startSeqReadI2c_spec {c : Nat} {s : State} (hlt : c < s.cfg.capacity) (h16 : c < 65536) (hp : s.dev.pending = []) :
    BusMoves s (startSeqReadI2c c s).2 ∧
      (∃ p hi, (startSeqReadI2c c s).2.dev = { s.dev with ptr := p, addrHi := hi } ∧ (p = c ∨ p = s.dev.ptr)) ∧
      ((startSeqReadI2c c s).1 = true → (startSeqReadI2c c s).2.bus = .held ∧ (startSeqReadI2c c s).2.txstate = .slaveAddrReadAck) ∧
      ((startSeqReadI2c c s).1 = false → (startSeqReadI2c c s).2.bus = .idle ∧ (startSeqReadI2c c s).2.txstate = .idle) := by
  obtain ⟨m1, b1, hi, d1⟩ := frame_spec hlt h16
  have hf : BusMoves s (readFrame c s).2 ∧ (readFrame c s).2.bus = .held ∧
      (∃ p, (readFrame c s).2.dev = { s.dev with ptr := p, addrHi := hi } ∧ (p = c ∨ p = s.dev.ptr)) ∧
      ((readFrame c s).1 = true → (readFrame c s).2.txstate = .slaveAddrReadAck) := by
    have d1' : ∃ p, (frame c s).2.dev = { s.dev with ptr := p, addrHi := hi } ∧ (p = c ∨ p = s.dev.ptr) := by
      split at d1
      · exact ⟨c, d1, .inl rfl⟩
      · exact ⟨s.dev.ptr, d1, .inr rfl⟩
    rcases thenStep_cases (frame c s) stepRepStart with ⟨-, e1⟩ | ⟨-, e1⟩
    · rw [readFrame, e1, thenStep_false]
      exact ⟨m1, b1, d1', fun h => by cases h⟩
    obtain ⟨m2, b2, d2⟩ := stepRepStart_moves (frame c s).2
    rw [← e1] at m2 b2 d2
    rcases thenStep_cases (thenStep (frame c s) stepRepStart) (fun t => stepTx .slaR (slaRByte t.cfg) t) with
      ⟨-, e2⟩ | ⟨-, e2⟩
    · rw [readFrame, e2]
      exact ⟨m1.trans m2, b2.trans b1, d1'.imp fun p hp => ⟨d2.trans hp.1, hp.2⟩, fun h => by cases h⟩
    obtain ⟨raw, n, x, h3, hx, -, -⟩ := iTx_spec .slaR (slaRByte (thenStep (frame c s) stepRepStart).2.cfg)
      (thenStep (frame c s) stepRepStart).2
    obtain ⟨m3, b3, n3, d3⟩ := stepTx_moves .slaR (slaRByte (thenStep (frame c s) stepRepStart).2.cfg)
      (thenStep (frame c s) stepRepStart).2
    have hok : (readFrame c s).1 = true → (readFrame c s).2.txstate = .slaveAddrReadAck := by
      rw [readFrame, e2, stepTx, recordStep, h3]
      simp only [State.setStatus_txstate, beq_iff_eq, hx]
      intro h
      rw [if_pos h]
      rfl
    rw [← e2] at m3 b3 d3
    simp only [devTx_eq] at d3
    exact ⟨(m1.trans m2).trans m3, (b3.trans b2).trans b1,
      d1'.imp fun p hp => ⟨d3.trans (d2.trans hp.1), hp.2⟩, hok⟩
  obtain ⟨hm, hb, ⟨p, hd, hp'⟩, hx⟩ := hf
  unfold startSeqReadI2c
  by_cases hok : (readFrame c s).1 = true
  · simp only [hok, if_true]
    exact ⟨hm, ⟨p, hi, hd, hp'⟩, fun _ => ⟨hb, hx hok⟩, fun h => by cases h⟩
  · simp only [if_neg hok]
    show BusMoves s (abort (readFrame c s).2) ∧ _
    refine ⟨hm.trans ?_, ⟨p, hi, ?_, hp'⟩, nofun, fun _ => ?_⟩
    · obtain ⟨code, h1, h2⟩ := hm.code
      rw [abort, iStop_eq]
      exact ⟨rfl, List.prefix_append _ _, code, h1, by
        rw [hm.cfg]; exact h2⟩
    · rw [abort, iStop_eq, hd]
      simp [hp]
    · rw [abort, iStop_eq]
      exact ⟨rfl, rfl⟩

/-! ## Steps that are refused -/

/-- A scripted answer that is no expected code: the step gives the masked code and names no state. -/
theorem busStep_refused {s : State} {exp raw : Byte} {l : List (Option Byte)} (named : TxState)
    (hs : s.oracle.script = some raw :: l) (hm : raw &&& s.cfg.statusMask ≠ exp) : busStep exp named s =
      (raw &&& s.cfg.statusMask, { s with oracle := oracleAfter 1 s.oracle }) := by
  obtain ⟨r, n, h, -, hr⟩ := busStep_spec exp named s
  obtain ⟨rfl, rfl⟩ := hr raw l hs
  rw [h, if_neg hm]

theorem stepStart_refused {s : State} {raw : Byte} {l : List (Option Byte)} (hs : s.oracle.script = some raw :: l)
    (hm : raw &&& s.cfg.statusMask ≠ s.cfg.expStart) : stepStart s = (false,
      { s with bus := .held, oracle := oracleAfter 1 s.oracle, status := some (raw &&& s.cfg.statusMask),
               trace := s.trace ++ [.iStart (raw &&& s.cfg.statusMask) .start] }) := by
  have hb := busStep_refused (s := s.setBus .held) .start hs hm
  simp only [State.setBus_cfg] at hb
  rw [stepStart, recordStep, iStart, hb, beq_eq_false_iff_ne.2 hm]
  rfl

theorem stepRepStart_refused {s : State} {raw : Byte} {l : List (Option Byte)} (hs : s.oracle.script = some raw :: l)
    (hm : raw &&& s.cfg.statusMask ≠ s.cfg.expRepStart) : stepRepStart s = (false,
      { s with oracle := oracleAfter 1 s.oracle, status := some (raw &&& s.cfg.statusMask),
               trace := s.trace ++ [.iRepStart (raw &&& s.cfg.statusMask) .repeatedStart] }) := by
  rw [stepRepStart, recordStep, iRepStart, busStep_refused .repeatedStart hs hm, beq_eq_false_iff_ne.2 hm]
  rfl

theorem stepTx_refused {s : State} {role : Role} {raw : Byte} {l : List (Option Byte)} (v : Byte)
    (hs : s.oracle.script = some raw :: l) (hm : raw &&& s.cfg.statusMask ≠ txExpected s.cfg role) :
    stepTx role v s = (false,
      { s with oracle := oracleAfter 1 s.oracle, status := some (raw &&& s.cfg.statusMask),
               dev := (devTx role v false s).dev, draws := (devTx role v false s).draws,
               trace := s.trace ++ [.iTx role v (raw &&& s.cfg.statusMask) (txNamed role)] }) := by
  rw [stepTx, recordStep, iTx, busStep_refused _ hs hm]
  simp only [devTx_eq, beq_eq_false_iff_ne.2 hm]
  cases role <;> simp only <;> repeat' (first | rfl | split)

/-- FRAME() whose step k is the first to be refused: its code is the status, and the device has at most kept an address-high byte. -/
theorem frame_refused {s : State} {c k : Nat} {raw exp : Byte} {event : Byte → Event} {l : List (Option Byte)}
    (hc : configOk s.cfg = true) (hk : k < 4) (hs : s.oracle.script = List.replicate k none ++ some raw :: l)
    (he : (readSteps s.cfg c)[k]? = some (exp, event)) (hm : raw &&& s.cfg.statusMask ≠ exp) : ∃ x hi, frame c s = (false,
      { s with bus := .held, txstate := x, status := some (raw &&& s.cfg.statusMask), oracle := { s.oracle with script := l },
               trace := s.trace ++ (frameEvents s.cfg c).take k ++ [event (raw &&& s.cfg.statusMask)],
               dev := { s.dev with addrHi := hi } }) := by
  have hlo : BitVec.ofNat 8 (c % 256) = addrLoByte c := by apply BitVec.eq_of_toNat_eq; simp [addrLoByte]
  have hA : ∀ j, j < k → AnswersExpected 1 (oracleAfter j s.oracle) := fun j hj =>
    ((answersExpected_of_script hs).mono (by omega : j + 1 ≤ k)).after
  have hR : (oracleAfter k s.oracle).script = some raw :: l := by simp [oracleAfter, hs]
  have hl : { s.oracle with script := l } = oracleAfter (k + 1) s.oracle := by
    simp [oracleAfter, hs, List.drop_append, List.drop_replicate]
  rw [hl]
  rcases (by omega : k = 0 ∨ k = 1 ∨ k = 2 ∨ k = 3) with rfl | rfl | rfl | rfl <;>
    obtain ⟨rfl, rfl⟩ : _ ∧ _ := by simpa [readSteps] using he
  · exact ⟨s.txstate, s.dev.addrHi, by
      rw [frame, stepStart_refused hR hm]; simp only [thenStep_false]; simp [frameEvents]⟩
  · refine ⟨.start, s.dev.addrHi, ?_⟩
    rw [frame, stepStart_expected hc (hA 0 (by omega)), thenStep_true, stepTx_refused (raw := raw) (l := l) _ ?_ ?_]
    · simp [thenStep_false, devTx_eq, oracleAfter_add, frameEvents, slaWByte, txNamed]
    exacts [hR, hm]
  · refine ⟨.slaveAddrAck, s.dev.addrHi, ?_⟩
    rw [frame, stepStart_expected hc (hA 0 (by omega)), thenStep_true, stepTx_expected _ _ ?_ ?_, thenStep_true,
      stepTx_refused (raw := raw) (l := l) _ ?_ ?_]
    · simp [thenStep_false, devTx_eq, oracleAfter_add, frameEvents, slaWByte, txNamed, txExpected, addrHiByte]
    all_goals first | exact hc | exact hm | exact hA 1 (by omega) | simpa only [oracleAfter_add] using hR
  · refine ⟨.hiAddrByteAck, addrHiByte c, ?_⟩
    rw [frame, stepStart_expected hc (hA 0 (by omega)), thenStep_true, stepTx_expected _ _ ?_ ?_, thenStep_true,
      stepTx_expected _ _ ?_ ?_, thenStep_true,
      stepTx_refused (raw := raw) (l := l) _ ?_ ?_]
    · simp [devTx_eq, oracleAfter_add, frameEvents, slaWByte, txNamed, txExpected, addrHiByte, hlo]
    all_goals first
      | exact hc | exact hm | exact hA 1 (by omega) | simpa only [oracleAfter_add] using hR
      | simpa only [oracleAfter_add] using hA 2 (by omega)

/-- The steps of START_SEQ_READ whose step k is the first to be refused: its code is the status, and of the device at most the
pointer and the address byte have changed. -/
theorem readFrame_refused {s : State} {c k : Nat} {raw exp : Byte} {event : Byte → Event} {l : List (Option Byte)}
    (hc : configOk s.cfg = true) (hlt : c < s.cfg.capacity) (h16 : c < 65536)
    (hs : s.oracle.script = List.replicate k none ++ some raw :: l)
    (he : (readSteps s.cfg c)[k]? = some (exp, event)) (hm : raw &&& s.cfg.statusMask ≠ exp) :
    ∃ x p hi, readFrame c s = (false,
      { s with bus := .held, txstate := x, status := some (raw &&& s.cfg.statusMask), oracle := { s.oracle with script := l },
               trace := s.trace ++ (readFrameEvents s.cfg c).take k ++ [event (raw &&& s.cfg.statusMask)],
               dev := { s.dev with ptr := p, addrHi := hi } }) := by
  by_cases hk : k < 4
  · obtain ⟨x, hi, h⟩ := frame_refused hc hk hs he hm
    refine ⟨x, s.dev.ptr, hi, ?_⟩
    have ht : (readFrameEvents s.cfg c).take k = (frameEvents s.cfg c).take k := by
      rw [readFrameEvents, List.take_append_of_le_length (by simp [frameEvents]; omega)]
    rw [readFrame, h, ht]; rfl
  · have hA : ∀ j, j ≤ k → AnswersExpected j s.oracle := fun j hj => (answersExpected_of_script hs).mono hj
    have hR : (oracleAfter k s.oracle).script = some raw :: l := by simp [oracleAfter, hs]
    have hl : { s.oracle with script := l } = oracleAfter (k + 1) s.oracle := by
      simp [oracleAfter, hs, List.drop_append, List.drop_replicate]
    have hlt6 : k < 6 := by simpa [readSteps] using (List.getElem?_eq_some_iff.1 he).1
    rw [hl]
    rcases (by omega : k = 4 ∨ k = 5) with rfl | rfl <;> obtain ⟨rfl, rfl⟩ : _ ∧ _ := by simpa [readSteps] using he
    · refine ⟨.loAddrByteAck, c, addrHiByte c, ?_⟩
      rw [readFrame, frame_expected hc hlt h16 (hA 4 (by omega)), thenStep_true, stepRepStart_refused (raw := raw) (l := l) ?_ ?_]
      · simp [thenStep_false, oracleAfter_add, readFrameEvents, frameEvents]
      exacts [hR, hm]
    · refine ⟨.repeatedStart, c, addrHiByte c, ?_⟩
      rw [readFrame, frame_expected hc hlt h16 (hA 4 (by omega)), thenStep_true,
        stepRepStart_expected ?_ ?_, thenStep_true,
        stepTx_refused (raw := raw) (l := l) _ ?_ ?_]
      · simp [devTx_eq, oracleAfter_add, readFrameEvents, frameEvents, slaRByte, txNamed]
      all_goals first
        | exact hc | exact hm | simpa only [oracleAfter_add] using hR
        | exact (hA 5 (by omega) : AnswersExpected (4 + 1) s.oracle).after

/-! ## NEXT_BYTE -/

/-- The byte of a read step, and the device's pointer one further whether the code matched or not. -/
theorem rxByte_spec (matched : Bool) (s : State) : ∃ b n, rxByte matched s =
      (b, { s with dev := { s.dev with ptr := (s.dev.ptr + 1) % s.cfg.capacity }, draws := n }) ∧
      (matched = true → devOccupied s = false → b = memRead s.dev.mem s.dev.ptr ∧ n = s.draws) ∧
      (matched = false ∨ devOccupied s = true → b = Config.freeByte s.draws ∧ n = s.draws + 1) := by
  unfold rxByte devReadNext
  cases matched with
  | false => exact ⟨_, _, rfl, nofun, fun _ => ⟨rfl, rfl⟩⟩
  | true =>
    simp only [if_true]
    cases h : devOccupied s with
    | true => exact ⟨_, _, rfl, nofun, fun _ => ⟨rfl, rfl⟩⟩
    | false => exact ⟨_, s.draws, rfl, fun _ _ => ⟨rfl, rfl⟩, fun h => by simp at h⟩

theorem iRxAck_spec (s : State) : ∃ raw n b m,
    let code := raw &&& s.cfg.statusMask
    iRxAck s = (b, code,
      { s with oracle := oracleAfter 1 s.oracle, draws := m, trace := s.trace ++ [.iRxAck b code .dataByteAck],
               txstate := if code = s.cfg.expRxAck then .dataByteAck else s.txstate,
               dev := { s.dev with ptr := (s.dev.ptr + 1) % s.cfg.capacity } }) ∧
      s.draws ≤ n ∧ (∀ r l, s.oracle.script = some r :: l → raw = r ∧ n = s.draws) ∧
      (code = s.cfg.expRxAck → devOccupied s = false → b = memRead s.dev.mem s.dev.ptr ∧ m = n) ∧
      (code ≠ s.cfg.expRxAck ∨ devOccupied s = true → b = Config.freeByte n ∧ m = n + 1) := by
  obtain ⟨raw, n, h1, h2, h3⟩ := busStep_spec s.cfg.expRxAck .dataByteAck s
  obtain ⟨b, m, h4, h5, h6⟩ := rxByte_spec (raw &&& s.cfg.statusMask == s.cfg.expRxAck)
    { s with oracle := oracleAfter 1 s.oracle, draws := n,
             txstate := if raw &&& s.cfg.statusMask = s.cfg.expRxAck then .dataByteAck else s.txstate }
  refine ⟨raw, n, b, m, ?_, h2, h3, ?_, ?_⟩
  · rw [iRxAck, h1]
    simp only [h4]
    rfl
  · exact fun hm hd => h5 (by simpa using hm) hd
  · exact fun h => h6 (h.imp (by simp) id)

theorem iRxNack_spec (s : State) : ∃ raw n b m,
    let code := raw &&& s.cfg.statusMask
    iRxNack s = (b, code,
      { s with oracle := oracleAfter 1 s.oracle, draws := m, trace := s.trace ++ [.iRxNack b code .dataByteNack],
               txstate := if code = s.cfg.expRxNack then .dataByteNack else s.txstate,
               dev := { s.dev with ptr := (s.dev.ptr + 1) % s.cfg.capacity } }) ∧
      s.draws ≤ n ∧ (∀ r l, s.oracle.script = some r :: l → raw = r ∧ n = s.draws) ∧
      (code = s.cfg.expRxNack → devOccupied s = false → b = memRead s.dev.mem s.dev.ptr ∧ m = n) ∧
      (code ≠ s.cfg.expRxNack ∨ devOccupied s = true → b = Config.freeByte n ∧ m = n + 1) := by
  obtain ⟨raw, n, h1, h2, h3⟩ := busStep_spec s.cfg.expRxNack .dataByteNack s
  obtain ⟨b, m, h4, h5, h6⟩ := rxByte_spec (raw &&& s.cfg.statusMask == s.cfg.expRxNack)
    { s with oracle := oracleAfter 1 s.oracle, draws := n,
             txstate := if raw &&& s.cfg.statusMask = s.cfg.expRxNack then .dataByteNack else s.txstate }
  refine ⟨raw, n, b, m, ?_, h2, h3, ?_, ?_⟩
  · rw [iRxNack, h1]
    simp only [h4]
    rfl
  · exact fun hm hd => h5 (by simpa using hm) hd
  · exact fun h => h6 (h.imp (by simp) id)

/-- The end of a NEXT_BYTE: the byte and what follows a match, or the abort and a draw. -/
theorem endNextByte_cases (exp : Byte) (f : State → State) (b c : Byte) (s : State) :
    (c = exp ∧ endNextByte exp f (b, c, s) = (b, true, f { s with status := some c })) ∨
    (c ≠ exp ∧ endNextByte exp f (b, c, s) = (Config.freeByte s.draws, false,
      { s with status := some c, bus := .idle, txstate := .idle, trace := s.trace ++ [.iStop .stop], draws := s.draws + 1,
               dev := { s.dev with busy := s.dev.busy || !s.dev.pending.isEmpty } })) := by
  unfold endNextByte
  by_cases h : c = exp
  · exact .inl ⟨h, by simp only [h, if_true]; rfl⟩
  · refine .inr ⟨h, ?_⟩
    simp only [h, if_false, abort, iStop_eq]
    rfl

/-- NEXT_BYTE on I2C for every answer of the bus. -/
theorem nextByteI2c_spec (l : Bool) (s : State) (hp : s.dev.pending = []) :
    BusMoves s (nextByteI2c l s).2.2 ∧
      (nextByteI2c l s).2.2.dev = { s.dev with ptr := (s.dev.ptr + 1) % s.cfg.capacity } ∧
      ((nextByteI2c l s).2.1 = true → l = false → (nextByteI2c l s).2.2.bus = s.bus ∧
        (nextByteI2c l s).2.2.txstate = .dataByteAck) ∧
      ((nextByteI2c l s).2.1 = false ∨ l = true → (nextByteI2c l s).2.2.bus = .idle ∧ (nextByteI2c l s).2.2.txstate = .idle) := by
  cases l with
  | true =>
    obtain ⟨raw, n, b, m, h, -, -, -, -⟩ := iRxNack_spec s
    rcases endNextByte_cases s.cfg.expRxNack iStop b (raw &&& s.cfg.statusMask)
      { s with oracle := oracleAfter 1 s.oracle, draws := m,
               trace := s.trace ++ [.iRxNack b (raw &&& s.cfg.statusMask) .dataByteNack],
               txstate := if raw &&& s.cfg.statusMask = s.cfg.expRxNack then .dataByteNack else s.txstate,
               dev := { s.dev with ptr := (s.dev.ptr + 1) % s.cfg.capacity } } with ⟨hc, e⟩ | ⟨hc, e⟩
    · simp only [nextByteI2c, if_true, h, e, iStop_eq]
      refine ⟨⟨rfl, ?_, _, rfl, masked_idem _ _⟩, ?_, nofun, by simp⟩
      · simp
      · simp [hp]
    · simp only [nextByteI2c, if_true, h, e]
      refine ⟨⟨rfl, ?_, _, rfl, masked_idem _ _⟩, ?_, nofun, by simp⟩
      · simp
      · simp [hp]
  | false =>
    obtain ⟨raw, n, b, m, h, -, -, -, -⟩ := iRxAck_spec s
    rcases endNextByte_cases s.cfg.expRxAck id b (raw &&& s.cfg.statusMask)
      { s with oracle := oracleAfter 1 s.oracle, draws := m,
               trace := s.trace ++ [.iRxAck b (raw &&& s.cfg.statusMask) .dataByteAck],
               txstate := if raw &&& s.cfg.statusMask = s.cfg.expRxAck then .dataByteAck else s.txstate,
               dev := { s.dev with ptr := (s.dev.ptr + 1) % s.cfg.capacity } } with ⟨hc, e⟩ | ⟨hc, e⟩
    · simp only [nextByteI2c, Bool.false_eq_true, if_false, h, e, id]
      refine ⟨⟨rfl, List.prefix_append _ _, _, rfl, masked_idem _ _⟩, trivial, ?_, ?_⟩
      · simp [hc]
      · simp
    · simp only [nextByteI2c, Bool.false_eq_true, if_false, h, e]
      refine ⟨⟨rfl, ?_, _, rfl, masked_idem _ _⟩, ?_, nofun, by simp⟩
      · simp
      · simp [hp]

/-- A read step with the expected answer and an idle device. -/
theorem iRxAck_expected {s : State} (hc : configOk s.cfg = true) (h : AnswersExpected 1 s.oracle) (hd : devOccupied s = false) :
    iRxAck s = (memRead s.dev.mem s.dev.ptr, s.cfg.expRxAck,
      { s with oracle := oracleAfter 1 s.oracle, txstate := .dataByteAck,
               trace := s.trace ++ [.iRxAck (memRead s.dev.mem s.dev.ptr) s.cfg.expRxAck .dataByteAck],
               dev := { s.dev with ptr := (s.dev.ptr + 1) % s.cfg.capacity } }) := by
  rw [iRxAck, busStep_expected .dataByteAck h (masked_of_configOk hc).2.2.2.1]
  simp only [devOccupied] at hd
  simp only [beq_self_eq_true, rxByte, if_true, devReadNext, devOccupied, hd, Bool.false_eq_true, if_false]
  rfl

theorem iRxNack_expected {s : State} (hc : configOk s.cfg = true) (h : AnswersExpected 1 s.oracle)
    (hd : devOccupied s = false) : iRxNack s = (memRead s.dev.mem s.dev.ptr, s.cfg.expRxNack,
      { s with oracle := oracleAfter 1 s.oracle, txstate := .dataByteNack,
               trace := s.trace ++ [.iRxNack (memRead s.dev.mem s.dev.ptr) s.cfg.expRxNack .dataByteNack],
               dev := { s.dev with ptr := (s.dev.ptr + 1) % s.cfg.capacity } }) := by
  rw [iRxNack, busStep_expected .dataByteNack h (masked_of_configOk hc).2.2.2.2.1]
  simp only [devOccupied] at hd
  simp only [beq_self_eq_true, rxByte, if_true, devReadNext, devOccupied, hd, Bool.false_eq_true, if_false]
  rfl

/-! ## Writing -/

theorem thenStep_assoc (p : Bool × State) (f g : State → Bool × State) :
    thenStep (thenStep p f) g = thenStep p fun t => thenStep (f t) g := by
  obtain ⟨b, s⟩ := p
  cases b <;> rfl

theorem sendBytes_append (count : Bool) (xs ys : List Byte) :
    ∀ s, sendBytes count (xs ++ ys) s = thenStep (sendBytes count xs s) (sendBytes count ys) := by
  induction xs with
  | nil => exact fun s => rfl
  | cons x xs ih =>
    intro s
    rw [List.cons_append, sendBytes, sendBytes, thenStep_assoc]
    congr 1
    funext t
    exact ih _

/-- The counter after the bytes counted. -/
theorem nextInPage_eq {p : Nat} (h : p % 64 + 1 < 64) : nextInPage p = p + 1 := by
  simp only [nextInPage, pageOf, pageSize]
  omega

theorem nextInPage_lt {p n : Nat} (h : p < n) (hn : n % 64 = 0) : nextInPage p < n := by
  simp only [nextInPage, pageOf, pageSize]
  omega

theorem counted_eq (count : Bool) (t : State) : (if count then bumpCtr t else t) =
    { t with ctr := if count then t.ctr.map (· + 1) else t.ctr } := by
  cases count <;> rfl

/-- Data bytes with the expected answers to an idle device: they are pending at consecutive addresses. -/
theorem sendBytes_expected (count : Bool) (bytes : List Byte) : ∀ s : State, configOk s.cfg = true →
    AnswersExpected bytes.length s.oracle → s.dev.busy = false → s.dev.ptr % 64 + bytes.length ≤ 64 → ∃ p,
    sendBytes count bytes s = (true,
      { s with ctr := if count then s.ctr.map (· + bytes.length) else s.ctr,
               txstate := if bytes = [] then s.txstate else .dataByteAck,
               status := if bytes = [] then s.status else some s.cfg.expTxAck,
               oracle := oracleAfter bytes.length s.oracle, trace := s.trace ++ dataEvents s.cfg bytes,
               dev := { s.dev with pending := s.dev.pending ++ consecutive s.dev.ptr bytes, ptr := p } }) := by
  induction bytes with
  | nil =>
    intro s _ _ _ _
    refine ⟨s.dev.ptr, ?_⟩
    cases s
    cases count <;> simp [sendBytes, dataEvents, consecutive, oracleAfter]
  | cons b l ih =>
    intro s hc h hb hp
    simp only [List.length_cons] at h hp
    have hstep : stepTx .data b s = (true,
        { s with oracle := oracleAfter 1 s.oracle, txstate := .dataByteAck, status := some s.cfg.expTxAck,
                 dev := { s.dev with pending := s.dev.pending ++ [(s.dev.ptr, b)], ptr := nextInPage s.dev.ptr },
                 trace := s.trace ++ [.iTx .data b s.cfg.expTxAck .dataByteAck] }) := by
      rw [stepTx_expected .data b hc (h.mono (by omega))]
      simp [devTx_eq, hb, txNamed, txExpected]
    rw [sendBytes, hstep, thenStep_true]
    have hcons : consecutive (nextInPage s.dev.ptr) l = consecutive (s.dev.ptr + 1) l := by
      cases l with
      | nil => rfl
      | cons x l => rw [nextInPage_eq (by simp only [List.length_cons] at hp; omega)]
    have hroom : nextInPage s.dev.ptr % 64 + l.length ≤ 64 := by
      cases l with
      | nil => simp; omega
      | cons x l => rw [nextInPage_eq (by simp only [List.length_cons] at hp; omega)]; omega
    obtain ⟨p, hq⟩ := ih { s with
        ctr := if count then s.ctr.map (· + 1) else s.ctr, oracle := oracleAfter 1 s.oracle, txstate := .dataByteAck,
        status := some s.cfg.expTxAck,
        dev := { s.dev with pending := s.dev.pending ++ [(s.dev.ptr, b)], ptr := nextInPage s.dev.ptr },
        trace := s.trace ++ [.iTx .data b s.cfg.expTxAck .dataByteAck] } hc
      ((h.mono (by omega : 1 + l.length ≤ l.length + 1)).after) hb hroom
    refine ⟨p, ?_⟩
    rw [counted_eq, hq, hcons]
    cases count <;> simp [oracleAfter_add, consecutive, dataEvents, Nat.add_comm, Function.comp_def, Nat.add_assoc]

/-- Data bytes for every answer of the bus: the first k are counted, all of them after a success and fewer after a failure; the
device is loaded within the addresses sent. -/
theorem sendBytes_spec (count : Bool) (bytes : List Byte) : ∀ (s : State) (c : Nat), s.ctr = some c →
    (∃ x, s.status = some x ∧ x &&& s.cfg.statusMask = x) → s.dev.ptr % 64 + bytes.length ≤ 64 →
    ∃ k, BusMoves { s with ctr := if count then some (c + k) else s.ctr } (sendBytes count bytes s).2 ∧
      (sendBytes count bytes s).2.bus = s.bus ∧ ((sendBytes count bytes s).1 = true → k = bytes.length) ∧
      ((sendBytes count bytes s).1 = false → k < bytes.length) ∧
      ∃ D p, (sendBytes count bytes s).2.dev = { D with ptr := p } ∧
        LoadsIn (fun a => s.dev.ptr ≤ a ∧ a < s.dev.ptr + bytes.length) s.dev D ∧ ∀ n, s.dev.ptr < n → n % 64 = 0 → p < n := by
  induction bytes with
  | nil =>
    intro s c hc hx _
    refine ⟨0, ⟨?_, List.prefix_refl _, hx⟩, rfl, fun _ => rfl, nofun, s.dev, s.dev.ptr, rfl, LoadsIn.refl _ _, fun _ h _ => h⟩
    cases s
    cases count <;> simp_all [sendBytes]
  | cons b l ih =>
    intro s c hc hx hp
    simp only [List.length_cons] at hp
    obtain ⟨m1, b1, n1, d1⟩ := stepTx_moves .data b s
    rw [sendBytes]
    have hdev : ∃ D p, (stepTx .data b s).2.dev = { D with ptr := p } ∧
        LoadsIn (fun a => s.dev.ptr ≤ a ∧ a < s.dev.ptr + (l.length + 1)) s.dev D ∧
        (p = s.dev.ptr ∨ p = nextInPage s.dev.ptr) ∧ ((stepTx .data b s).1 = true → p = nextInPage s.dev.ptr) := by
      rw [d1, devTx_eq]
      simp only
      by_cases hb : s.dev.busy = true
      · simp only [hb, if_true]
        exact ⟨{ s.dev with mem := memWrite s.dev.mem s.dev.ptr (Config.freeByte n1) }, nextInPage s.dev.ptr, by simp [hb],
          ⟨_, [], by rw [List.append_nil], WritesIn.one _ _ (by omega), nofun⟩, .inr rfl, fun _ => rfl⟩
      · simp only [hb, if_false, Bool.false_eq_true]
        by_cases ha : (stepTx .data b s).1 = true
        · simp only [ha, if_true]
          refine ⟨{ s.dev with pending := s.dev.pending ++ [(s.dev.ptr, b)] }, nextInPage s.dev.ptr, by simp [hb],
            ⟨s.dev.mem, [(s.dev.ptr, b)], rfl, WritesIn.refl _ _, ?_⟩, .inr rfl, fun _ => rfl⟩
          simp
        · simp only [ha]
          exact ⟨s.dev, s.dev.ptr, rfl, LoadsIn.refl _ _, .inl rfl, nofun⟩
    obtain ⟨D, p, hd, hD, hp1, hp2⟩ := hdev
    rcases thenStep_cases (stepTx .data b s) (fun t => sendBytes count l (if count then bumpCtr t else t)) with
      ⟨hok, e⟩ | ⟨hok, e⟩
    · rw [e]
      refine ⟨0, ?_, b1, nofun, fun _ => Nat.succ_pos _, D, p, hd, hD, fun n h h64 => ?_⟩
      · have hs : { s with ctr := if count then some (c + 0) else s.ctr } = s := by
          cases s; cases count <;> simp_all
        rw [hs]; exact m1
      · rcases hp1 with rfl | rfl
        · exact h
        · exact nextInPage_lt h h64
    · rw [e, counted_eq]
      have hp' := hp2 hok
      generalize hu : (stepTx .data b s).2 = u at *
      have hcu : u.ctr = some c := by rw [m1.ctr, hc]
      obtain ⟨k, hm, hb, h1, h2, D', p', h3, h4, h5⟩ := ih { u with ctr := if count then u.ctr.map (· + 1) else u.ctr }
        (if count then c + 1 else c) (by cases count <;> simp [hcu]) (by simpa [m1.cfg] using m1.code) (by
          simp only [hd, hp']
          cases l with
          | nil => simp; omega
          | cons x l => rw [nextInPage_eq (by simp only [List.length_cons] at hp; omega)]; simp only [List.length_cons] at hp ⊢; omega)
      refine ⟨k + 1, ?_, hb.trans b1, fun h => by simp [h1 h], fun h => by simpa using h2 h, ?_⟩
      · have hs : { u with ctr := if count then some ((if count then c + 1 else c) + k) else (if count then u.ctr.map (· + 1) else u.ctr) } =
            { u with ctr := if count then some (c + (k + 1)) else s.ctr } := by
          cases count
          · simp [hcu, hc]
          · simp [Nat.add_comm 1, Nat.add_assoc]
        simp only at hm
        rw [hs] at hm
        exact (m1.setCtr _).trans hm
      · simp only at h3 h4 h5
        rw [hd] at h4
        obtain ⟨m, L, e1, e2, e3⟩ := hD
        obtain ⟨m', L', e1', e2', e3'⟩ := h4
        have hA : ∀ a, (p ≤ a ∧ a < p + l.length) → s.dev.ptr ≤ a ∧ a < s.dev.ptr + (l.length + 1) := by
          intro a ha
          rw [hp'] at ha
          cases l with
          | nil => simp at ha; omega
          | cons x l => rw [nextInPage_eq (by simp only [List.length_cons] at hp; omega)] at ha; omega
        refine ⟨{ s.dev with mem := m', pending := s.dev.pending ++ (L ++ L') }, p', ?_, ?_, ?_⟩
        · rw [h3, e1', e1]; simp
        · refine ⟨m', L ++ L', rfl, ?_, ?_⟩
          · rw [e1] at e2'
            exact e2.trans (e2'.mono hA)
          · intro x hx
            rcases List.mem_append.1 hx with hx | hx
            · exact e3 x hx
            · exact hA _ (e3' x hx)
        · intro n hn h64
          exact h5 n (by rw [hd, hp']; exact nextInPage_lt hn h64) h64

/-- A write transaction for every answer of the bus: the bus is idle after it, nothing is pending, and the memory is written
within the target range only. -/
theorem writeTransaction_spec {count : Bool} {c : Nat} {bytes : List Byte} {s : State} (hlt : c < s.cfg.capacity)
    (h16 : c < 65536) (hc : s.ctr = some c) (hp : s.dev.pending = []) (hroom : c % 64 + bytes.length ≤ 64)
    (hpos : 0 < bytes.length) (hi2c : s.cfg.backend = .i2c) :
    ∃ k, BusMoves { s with ctr := if count then some (c + k) else s.ctr } (writeTransaction count c bytes s).2 ∧
      (writeTransaction count c bytes s).2.bus = .idle ∧ (writeTransaction count c bytes s).2.txstate = .idle ∧
      ((writeTransaction count c bytes s).1 = true → k = bytes.length) ∧
      ((writeTransaction count c bytes s).1 = false → k < bytes.length) ∧
      (writeTransaction count c bytes s).2.dev.pending = [] ∧
      (writeTransaction count c bytes s).2.dev.latch = s.dev.latch ∧
      WritesIn (fun a => c ≤ a ∧ a < c + bytes.length) s.dev.mem (writeTransaction count c bytes s).2.dev.mem ∧
      ∀ n, s.dev.ptr < n → c < n → n % 64 = 0 → (writeTransaction count c bytes s).2.dev.ptr < n := by
  obtain ⟨m1, b1, hi, d1⟩ := frame_spec hlt h16
  unfold writeTransaction
  by_cases hok : (frame c s).1 = true
  · rw [hok] at d1
    simp only [if_true] at d1
    obtain ⟨k, m2, b2, h1, h2, D, p, hd, hD, hptr⟩ := sendBytes_spec count bytes (frame c s).2 c (m1.ctr.trans hc)
      (by simpa [m1.cfg] using m1.code) (by rw [d1]; exact hroom)
    have m12 : BusMoves { s with ctr := if count then some (c + k) else s.ctr } (sendBytes count bytes (frame c s).2).2 := by
      rw [m1.ctr] at m2
      exact (m1.setCtr _).trans m2
    rw [d1] at hD hptr
    simp only at hD hptr
    obtain ⟨m, L, e1, e2, e3⟩ := hD
    simp only [hp, List.nil_append] at e1
    rw [e1] at hd
    have hcfg : (sendBytes count bytes (frame c s).2).2.cfg = s.cfg := m12.cfg
    have htr := m12.trace
    obtain ⟨code, hcode, hmask⟩ := m12.code
    by_cases hok2 : (sendBytes count bytes (frame c s).2).1 = true
    · simp only [hok, hok2, if_true]
      refine ⟨k, ?_, ?_, ?_, fun _ => h1 hok2, nofun, ?_⟩
      · refine m12.trans ⟨?_, ?_, ?_⟩
        · rw [delay_eq, iStop_eq]
        · rw [delay_eq, iStop_eq]; simp
        · rw [delay_eq, iStop_eq]; exact ⟨code, hcode, by rw [hcfg]; exact hmask⟩
      · rw [delay_eq, iStop_eq]
      · rw [delay_eq, iStop_eq]
      · have hl := devDelay_latch (s := iStop (sendBytes count bytes (frame c s).2).2) s.wdelay (.inl (by
          rw [iStop_eq]; exact (congrArg Config.backend hcfg).trans hi2c))
        obtain ⟨m', l', n', g1, g2⟩ := devDelay_spec s.wdelay (iStop (sendBytes count bytes (frame c s).2).2)
        rw [delay_eq]
        simp only
        refine ⟨by rw [g1], ?_, ?_, ?_⟩
        · rw [hl, iStop_eq]; simp only [hd]
        · rw [g1]
          rw [iStop_eq] at g2
          simp only [hd] at g2
          refine e2.trans (g2.mono fun a ha => ?_)
          obtain ⟨x, hx, rfl⟩ := List.mem_map.1 ha
          exact e3 x hx
        · intro n hn hcn h64
          rw [g1, iStop_eq]
          simp only [hd]
          exact hptr n hcn h64
    · simp only [hok, hok2, if_true, if_false, Bool.false_eq_true]
      refine ⟨k, ?_, ?_, ?_, nofun, fun _ => h2 (by simpa using hok2), ?_⟩
      · refine m12.trans ⟨?_, ?_, ?_⟩
        · rw [devAbort_eq, abort, iStop_eq]
        · rw [devAbort_eq, abort, iStop_eq]; simp
        · rw [devAbort_eq, abort, iStop_eq]; exact ⟨code, hcode, by rw [hcfg]; exact hmask⟩
      · rw [devAbort_eq, abort, iStop_eq]
      · rw [devAbort_eq, abort, iStop_eq]
      · rw [devAbort_eq, abort, iStop_eq]
        simp only [hd]
        refine ⟨trivial, trivial, e2.trans ((writesIn_drawn _ _ _).mono fun a ha => ?_), fun n hn hcn h64 => hptr n hcn h64⟩
        simp only [addressRange, List.mem_map, List.mem_range] at ha
        omega
  · rw [Bool.not_eq_true] at hok
    rw [hok] at d1
    simp only [hok, Bool.false_eq_true, if_false] at d1 ⊢
    have hs : { s with ctr := if count then some (c + 0) else s.ctr } = s := by
      cases s; cases count <;> simp_all
    refine ⟨0, ?_, ?_, ?_, nofun, fun _ => hpos, ?_⟩
    · rw [hs]
      obtain ⟨code, hcode, hmask⟩ := m1.code
      refine m1.trans ⟨?_, ?_, ?_⟩
      · rw [abort, iStop_eq]
      · rw [abort, iStop_eq]; simp
      · rw [abort, iStop_eq]; exact ⟨code, hcode, by rw [m1.cfg]; exact hmask⟩
    · rw [abort, iStop_eq]
    · rw [abort, iStop_eq]
    · rw [abort, iStop_eq]
      simp only [d1]
      exact ⟨hp, trivial, WritesIn.refl _ _, fun n hn _ _ => hn⟩

/-- A write transaction with the expected answers, an idle device and a good delay: the bytes are in memory. -/
theorem writeTransaction_expected {count : Bool} {c : Nat} {bytes : List Byte} {s : State} (hcfg : configOk s.cfg = true)
    (hi2c : s.cfg.backend = .i2c) (hlt : c < s.cfg.capacity) (h16 : c < 65536) (hpos : bytes ≠ [])
    (hroom : c % 64 + bytes.length ≤ 64) (h : AnswersExpected (4 + bytes.length) s.oracle) (hb : s.dev.busy = false)
    (hp : s.dev.pending = []) (hd : writeDelayOk s.cfg s.wdelay = true) : ∃ p, writeTransaction count c bytes s = (true,
      { s with ctr := if count then s.ctr.map (· + bytes.length) else s.ctr, bus := .idle, txstate := .idle,
               status := some s.cfg.expTxAck, oracle := oracleAfter (4 + bytes.length) s.oracle,
               trace := s.trace ++ frameEvents s.cfg c ++ dataEvents s.cfg bytes ++ [.iStop .stop, .delay s.wdelay],
               dev := { s.dev with mem := memWriteAll s.dev.mem (consecutive c bytes), ptr := p, addrHi := addrHiByte c } }) := by
  obtain ⟨p, hs⟩ := sendBytes_expected count bytes
    { s with bus := .held, txstate := .loAddrByteAck, status := some s.cfg.expTxAck, oracle := oracleAfter 4 s.oracle,
             trace := s.trace ++ frameEvents s.cfg c, dev := { s.dev with ptr := c, addrHi := addrHiByte c } }
    hcfg h.after hb hroom
  refine ⟨p, ?_⟩
  unfold writeTransaction
  rw [frame_expected hcfg hlt h16 (h.mono (by omega))]
  simp only [if_true, hs]
  rw [delay_eq, iStop_eq]
  have hne : (consecutive c bytes).isEmpty = false := by cases bytes <;> simp_all [consecutive]
  rw [devDelay_good]
  rotate_left
  · simp [devOccupied, hp, hne]
  · exact hd
  simp [commit, hi2c, commitI2c, State.setDev, oracleAfter_add, hp, hb]

end Sys2Proof.Machine
end

