-- ==== Sys2Proof/Laws/Exec.lean ====
section
/-! SUPPORT. What each meaning can answer: the marks its checks set, in their order, and its effect past them in terms of the
backend's body. -/

namespace Sys2Proof.Machine

theorem marked_fault (r : Fault) (s : State) : faults r s = .next (marked s (.fault r)) := rfl

theorem marked_refusal (r : Refusal) (s : State) : refuses r s = .next (marked s (.refused r)) := rfl

theorem returns_next (s : State) (v : OpResult) : s.returns v = .next { s with result := some v } := rfl

/-- The alignment test is a test of the low six bits (rule R8). -/
theorem pageAligned_iff (c : Nat) : pageAligned c = true ↔ c % 64 = 0 := by
  have h := Nat.and_two_pow_sub_one_eq_mod c 6
  have h63 : c &&& 63 = c % 64 := h
  simp only [pageAligned, pageSize, beq_iff_eq]
  rw [show 64 - 1 = 63 from rfl, h63]

theorem phase_cases (s : State) : s.phase = .uninit ∨ s.phase = .ready := by cases s.phase <;> simp

theorem burst_cases (s : State) : s.burst = .none ∨ s.burst = .opened := by cases s.burst <;> simp

/-! ## The shared checks -/

/-- An access at the counter: one of three faults, or the operation goes on. -/
theorem atCounter_cases (s : State) (go : Nat → Answer) :
    (s.phase = .uninit ∧ atCounter s go = .next (marked s (.fault .uninit))) ∨
    (s.phase = .ready ∧ s.burst = .opened ∧ atCounter s go = .next (marked s (.fault .burst))) ∨
    (s.phase = .ready ∧ s.burst = .none ∧ s.ctr = none ∧ atCounter s go = .next (marked s (.fault .counterUnset))) ∨
    ∃ c, AtCounter s c ∧ atCounter s go = go c := by
  unfold atCounter
  rcases phase_cases s with h1 | h1
  · exact .inl ⟨h1, by rw [if_pos h1]; rfl⟩
  rcases burst_cases s with h2 | h2
  · refine .inr (.inr ?_)
    cases h3 : s.ctr with
    | none => exact .inl ⟨h1, h2, rfl, by simp only [h1, h2]; rfl⟩
    | some c => exact .inr ⟨c, ⟨h1, h2, h3⟩, by simp only [h1, h2]; rfl⟩
  · exact .inr (.inl ⟨h1, h2, by simp only [h1, h2]; rfl⟩)

theorem belowCapacity_cases (c n : Nat) (s : State) (go : Answer) :
    (s.cfg.capacity ≤ c ∧ belowCapacity c n s go = .next (marked s (.fault (.overflow c n)))) ∨
    (c < s.cfg.capacity ∧ belowCapacity c n s go = go) := by
  unfold belowCapacity
  by_cases h : s.cfg.capacity ≤ c
  · exact .inl ⟨h, by rw [if_pos h]; rfl⟩
  · exact .inr ⟨by omega, by rw [if_neg h]⟩

theorem atCounter_ready {s : State} {c : Nat} (h : AtCounter s c) (go : Nat → Answer) : atCounter s go = go c := by
  obtain ⟨h1, h2, h3⟩ := h
  simp only [atCounter, h1, h2, h3]
  rfl

theorem belowCapacity_of_lt {c n : Nat} {s : State} (h : c < s.cfg.capacity) (go : Answer) : belowCapacity c n s go = go := by
  rw [belowCapacity, if_neg (by omega)]

/-! ## The counter's operations -/

theorem execReset_cases (s : State) :
    (s.phase = .uninit ∧ execReset s = .next (marked s (.fault .uninit))) ∨
    (s.phase = .ready ∧ execReset s = .next { resetHardware s with ctr := some 0, result := some .unit }) := by
  unfold execReset
  rcases phase_cases s with h | h
  · exact .inl ⟨h, by rw [if_pos h]; rfl⟩
  · exact .inr ⟨h, by rw [h]; rfl⟩

theorem resetHardware_eq (s : State) : resetHardware s = { s with
    lines := if s.cfg.backend = .parallel then { s.lines with rst := .deasserted } else s.lines,
    hwctr := if s.cfg.backend = .parallel then 0 else s.hwctr,
    trace := if s.cfg.backend = .parallel then s.trace ++ [.pRstPulse] else s.trace } := by
  unfold resetHardware
  split
  · next h => simp only [h, if_true, pRstPulse_eq]
  · next h => simp only [h, reduceCtorEq, if_false]

theorem execAdvance_cases (n : BitVec 24) (s : State) :
    (s.phase = .uninit ∧ execAdvance n s = .next (marked s (.fault .uninit))) ∨
    (s.phase = .ready ∧ s.ctr = none ∧ execAdvance n s = .next (marked s (.fault .counterUnset))) ∨
    (∃ c, s.phase = .ready ∧ s.ctr = some c ∧ s.cfg.capacity < c + n.toNat ∧
      execAdvance n s = .next (marked s (.fault (.overflow c n.toNat)))) ∨
    ∃ c, s.phase = .ready ∧ s.ctr = some c ∧ c + n.toNat ≤ s.cfg.capacity ∧
      execAdvance n s = .next { advanceHardware n.toNat s with ctr := some (c + n.toNat), result := some .unit } := by
  unfold execAdvance
  rcases phase_cases s with h1 | h1
  · exact .inl ⟨h1, by rw [if_pos h1]; rfl⟩
  refine .inr ?_
  cases h2 : s.ctr with
  | none => exact .inl ⟨h1, rfl, by rw [h1]; rfl⟩
  | some c =>
    refine .inr ?_
    by_cases h3 : s.cfg.capacity < c + n.toNat
    · exact .inl ⟨c, h1, rfl, h3, by simp only [h1, h3, if_true]; rfl⟩
    · exact .inr ⟨c, h1, rfl, by omega, by simp only [h1, h3, if_false]; rfl⟩

theorem advanceHardware_eq (n : Nat) (s : State) : advanceHardware n s = { s with
    lines := if s.cfg.backend = .parallel then (if n = 0 then s.lines else { s.lines with clk := .deasserted }) else s.lines,
    hwctr := if s.cfg.backend = .parallel then (if n = 0 then s.hwctr else (s.hwctr + n) % 2 ^ s.cfg.ctrBits) else s.hwctr,
    trace := if s.cfg.backend = .parallel then s.trace ++ List.replicate n .pClkPulse else s.trace } := by
  unfold advanceHardware
  split
  · next h => simp only [h, if_true, clkPulses_eq]
  · next h => simp only [h, reduceCtorEq, if_false]

theorem execGetcount_cases (s : State) :
    (s.ctr = none ∧ execGetcount s = .next (marked s (.fault .counterUnset))) ∨
    ∃ c, s.ctr = some c ∧ execGetcount s = .next { s with result := some (.count c) } := by
  unfold execGetcount
  cases h : s.ctr with
  | none => exact .inl ⟨rfl, rfl⟩
  | some c => exact .inr ⟨c, rfl, by simp [State.setResult, h]⟩

/-! ## The contract -/

theorem execInit_cases (s : State) :
    (s.phase = .ready ∧ execInit s = .next (marked s (.fault .reinit))) ∨
    (s.phase = .uninit ∧ execInit s = .next { initBody s with phase := .ready, burst := .none, result := some .unit }) := by
  unfold execInit
  rcases phase_cases s with h | h
  · exact .inr ⟨h, by rw [h]; rfl⟩
  · exact .inl ⟨h, by rw [if_pos h]; rfl⟩

theorem initBody_eq (s : State) : initBody s = { s with
    lines := if s.cfg.backend = .parallel then ⟨.deasserted, .deasserted, .deasserted, .deasserted, .deasserted⟩ else s.lines,
    dbusDir := if s.cfg.backend = .parallel then .input else s.dbusDir,
    trace := if s.cfg.backend = .parallel then s.trace ++ [.pIdle] else s.trace,
    bus := if s.cfg.backend = .parallel then s.bus else .idle,
    txstate := if s.cfg.backend = .parallel then s.txstate else .idle } := by
  unfold initBody
  split
  · next h => simp only [h, if_true, initParallel, pIdle_eq]
  · next h => simp only [h, reduceCtorEq, if_false]; rfl

theorem execResetMemory_cases (s : State) :
    (s.phase = .uninit ∧ execResetMemory s = .next (marked s (.fault .uninit))) ∨
    (s.phase = .ready ∧ execResetMemory s = .next { resetMemoryBody s with burst := .none, result := some .unit }) := by
  unfold execResetMemory
  rcases phase_cases s with h | h
  · exact .inl ⟨h, by rw [if_pos h]; rfl⟩
  · exact .inr ⟨h, by rw [h]; rfl⟩

theorem execStartSeqRead_cases (s : State) :
    (∃ r, execStartSeqRead s = .next (marked s (.fault r)) ∧
      ((r = .uninit ∧ s.phase = .uninit) ∨ (r = .burst ∧ s.phase = .ready ∧ s.burst = .opened) ∨
        (r = .counterUnset ∧ s.phase = .ready ∧ s.ctr = none) ∨
        ∃ c, r = .overflow c 0 ∧ s.phase = .ready ∧ s.ctr = some c ∧ s.cfg.capacity ≤ c)) ∨
    ∃ c, AtCounter s c ∧ c < s.cfg.capacity ∧ execStartSeqRead s = .next
      { (startSeqReadBody c s).2 with burst := if (startSeqReadBody c s).1 then .opened else .none,
                                      result := some (.flag (startSeqReadBody c s).1) } := by
  unfold execStartSeqRead
  rcases atCounter_cases s (fun c => belowCapacity c 0 s (let p := startSeqReadBody c s
    (p.2.setBurst (if p.1 then .opened else .none)).returns (.flag p.1))) with
    ⟨h1, e⟩ | ⟨h1, h2, e⟩ | ⟨h1, h2, h3, e⟩ | ⟨c, hc, e⟩
  · exact .inl ⟨_, e, .inl ⟨rfl, h1⟩⟩
  · exact .inl ⟨_, e, .inr (.inl ⟨rfl, h1, h2⟩)⟩
  · exact .inl ⟨_, e, .inr (.inr (.inl ⟨rfl, h1, h3⟩))⟩
  · rw [e]
    rcases belowCapacity_cases c 0 s _ with ⟨h, e'⟩ | ⟨h, e'⟩
    · exact .inl ⟨_, e', .inr (.inr (.inr ⟨c, rfl, hc.1, hc.2.2, h⟩))⟩
    · exact .inr ⟨c, hc, h, e'.trans rfl⟩

theorem execWriteByte_cases (v : Byte) (s : State) :
    (∃ r, execWriteByte v s = .next (marked s (.fault r)) ∧
      ((r = .uninit ∧ s.phase = .uninit) ∨ (r = .burst ∧ s.phase = .ready ∧ s.burst = .opened) ∨
        (r = .counterUnset ∧ s.phase = .ready ∧ s.ctr = none) ∨
        ∃ c, r = .overflow c 0 ∧ s.phase = .ready ∧ s.ctr = some c ∧ s.cfg.capacity ≤ c)) ∨
    ∃ c, AtCounter s c ∧ c < s.cfg.capacity ∧ execWriteByte v s = .next
      { (writeByteBody c v s).2 with result := some (.flag (writeByteBody c v s).1) } := by
  unfold execWriteByte
  rcases atCounter_cases s (fun c => belowCapacity c 0 s (let p := writeByteBody c v s
    p.2.returns (.flag p.1))) with ⟨h1, e⟩ | ⟨h1, h2, e⟩ | ⟨h1, h2, h3, e⟩ | ⟨c, hc, e⟩
  · exact .inl ⟨_, e, .inl ⟨rfl, h1⟩⟩
  · exact .inl ⟨_, e, .inr (.inl ⟨rfl, h1, h2⟩)⟩
  · exact .inl ⟨_, e, .inr (.inr (.inl ⟨rfl, h1, h3⟩))⟩
  · rw [e]
    rcases belowCapacity_cases c 0 s _ with ⟨h, e'⟩ | ⟨h, e'⟩
    · exact .inl ⟨_, e', .inr (.inr (.inr ⟨c, rfl, hc.1, hc.2.2, h⟩))⟩
    · exact .inr ⟨c, hc, h, e'.trans rfl⟩

theorem execWritePage_cases (page : List Byte) (s : State) :
    (page.length ≠ 64 ∧ execWritePage page s = .next (marked s (.refused (.reserved .shortPage)))) ∨
    (page.length = 64 ∧ ((∃ r, execWritePage page s = .next (marked s (.fault r)) ∧
      ((r = .uninit ∧ s.phase = .uninit) ∨ (r = .burst ∧ s.phase = .ready ∧ s.burst = .opened) ∨
        (r = .counterUnset ∧ s.phase = .ready ∧ s.ctr = none) ∨
        ∃ c, r = .overflow c 64 ∧ s.phase = .ready ∧ s.ctr = some c ∧ s.cfg.capacity ≤ c)) ∨
    (∃ c, AtCounter s c ∧ c % 64 ≠ 0 ∧
      execWritePage page s = .next { s with status := some 0xFF, result := some (.flag false) }) ∨
    ∃ c, AtCounter s c ∧ c % 64 = 0 ∧ c < s.cfg.capacity ∧ execWritePage page s = .next
      { (writePageBody c page s).2 with result := some (.flag (writePageBody c page s).1) })) := by
  unfold execWritePage
  by_cases hl : page.length = 64
  · refine .inr ⟨hl, ?_⟩
    rw [if_neg (by simpa [pageSize] using hl)]
    rcases atCounter_cases s (fun c => if pageAligned c then belowCapacity c pageSize s (let p := writePageBody c page s
      p.2.returns (.flag p.1)) else (s.setStatus (some sentinel)).returns (.flag false)) with
      ⟨h1, e⟩ | ⟨h1, h2, e⟩ | ⟨h1, h2, h3, e⟩ | ⟨c, hc, e⟩
    · exact .inl ⟨_, e, .inl ⟨rfl, h1⟩⟩
    · exact .inl ⟨_, e, .inr (.inl ⟨rfl, h1, h2⟩)⟩
    · exact .inl ⟨_, e, .inr (.inr (.inl ⟨rfl, h1, h3⟩))⟩
    · rw [e]
      by_cases ha : pageAligned c = true
      · simp only [ha, if_true]
        rcases belowCapacity_cases c pageSize s _ with ⟨h, e'⟩ | ⟨h, e'⟩
        · exact .inl ⟨_, e', .inr (.inr (.inr ⟨c, rfl, hc.1, hc.2.2, h⟩))⟩
        · exact .inr (.inr ⟨c, hc, (pageAligned_iff c).1 ha, h, e'.trans rfl⟩)
      · rw [if_neg ha]
        exact .inr (.inl ⟨c, hc, fun h => ha ((pageAligned_iff c).2 h), rfl⟩)
  · exact .inl ⟨hl, by rw [if_pos (by simpa [pageSize] using hl)]; rfl⟩

theorem closeNextByte_eq (l : Bool) (q : Byte × Bool × State) : closeNextByte l q =
    .next { q.2.2 with burst := if l || !q.2.1 then .none else q.2.2.burst, result := some (.byteFlag q.1 q.2.1) } := by
  unfold closeNextByte
  split
  · rfl
  · rfl

theorem execNextByte_cases (l : Bool) (s : State) :
    (∃ r, execNextByte l s = .next (marked s (.fault r)) ∧
      ((r = .uninit ∧ s.phase = .uninit) ∨ (r = .burst ∧ s.phase = .ready ∧ s.burst = .none) ∨
        (s.cfg.backend = .parallel ∧ ((r = .counterUnset ∧ s.phase = .ready ∧ s.ctr = none) ∨
          ∃ c, r = .overflow c 0 ∧ s.phase = .ready ∧ s.ctr = some c ∧ s.cfg.capacity ≤ c)))) ∨
    (∃ c, s.cfg.backend = .parallel ∧ s.phase = .ready ∧ s.burst = .opened ∧ s.ctr = some c ∧ c < s.cfg.capacity ∧
      execNextByte l s = closeNextByte l (nextByteParallel l s)) ∨
    (s.cfg.backend = .i2c ∧ s.phase = .ready ∧ s.burst = .opened ∧
      execNextByte l s = closeNextByte l (nextByteI2c l s)) := by
  unfold execNextByte
  rcases phase_cases s with h1 | h1
  · exact .inl ⟨_, by rw [if_pos h1]; rfl, .inl ⟨rfl, h1⟩⟩
  rcases burst_cases s with h2 | h2
  · exact .inl ⟨_, by simp only [h1, h2]; rfl, .inr (.inl ⟨rfl, h1, h2⟩)⟩
  rw [if_neg (by rw [h1]; nofun), if_neg (by rw [h2]; nofun)]
  split
  · next hb =>
    cases h3 : s.ctr with
    | none => exact .inl ⟨_, rfl, .inr (.inr ⟨hb, .inl ⟨rfl, h1, rfl⟩⟩)⟩
    | some c =>
      simp only
      rcases belowCapacity_cases c 0 s (closeNextByte l (nextByteParallel l s)) with ⟨h, e⟩ | ⟨h, e⟩
      · exact .inl ⟨_, e, .inr (.inr ⟨hb, .inr ⟨c, rfl, h1, rfl, h⟩⟩)⟩
      · exact .inr (.inl ⟨c, hb, h1, h2, rfl, h, e⟩)
  · next hb => exact .inr (.inr ⟨hb, h1, h2, rfl⟩)

theorem execLastFailure_cases (s : State) :
    (∃ b, s.status = some b ∧ execLastFailure s = .next { s with result := some (.byte b) }) ∨
    (s.status = none ∧ execLastFailure s =
      .next { s with draws := s.draws + 1, result := some (.byte (Config.freeByte s.draws)) }) := by
  unfold execLastFailure
  cases h : s.status with
  | none => exact .inr ⟨rfl, by simp [State.setResult, State.setDraws, h]⟩
  | some b => exact .inl ⟨b, rfl, by simp [State.setResult, h]⟩

theorem execSetWriteDelay_eq (d : BitVec 24) (s : State) :
    execSetWriteDelay d s = .next { s with wdelay := d.toNat, result := some .unit } := rfl

theorem execDelay_eq (d : BitVec 24) (s : State) :
    execDelay d s = .next { delay d.toNat s with result := some .unit } := rfl

/-! ## Software data protection -/

theorem sdpAvailable_iff (c : Config) : sdpAvailable c = true ↔ c.backend = .parallel ∧ c.sdpPresent = true := by
  simp [sdpAvailable]

theorem offsetBeyond_none (n : Nat) (seq : List (Nat × Byte)) : offsetBeyond n seq = none ↔ ∀ p ∈ seq, p.1 < n := by
  simp [offsetBeyond]

theorem offsetBeyond_some {n o : Nat} {seq : List (Nat × Byte)} (h : offsetBeyond n seq = some o) : n ≤ o := by
  unfold offsetBeyond at h
  obtain ⟨p, h1, rfl⟩ := Option.map_eq_some_iff.1 h
  simpa using List.find?_some h1

theorem sdpRun_cases (seq : List (Nat × Byte)) (s : State) :
    ((s.cfg.backend = .i2c ∨ s.cfg.sdpPresent = false) ∧ sdpRun seq s = .next (marked s (.refused .backend))) ∨
    (s.cfg.backend = .parallel ∧ s.cfg.sdpPresent = true ∧ ((∃ r, sdpRun seq s = .next (marked s (.fault r)) ∧
      ((r = .uninit ∧ s.phase = .uninit) ∨ (r = .burst ∧ s.phase = .ready ∧ s.burst = .opened) ∨
        ∃ o, r = .overflow 0 o ∧ s.phase = .ready ∧ offsetBeyond s.cfg.capacity seq = some o)) ∨
    (s.phase = .ready ∧ s.burst = .none ∧ (∀ p ∈ seq, p.1 < s.cfg.capacity) ∧
      sdpRun seq s = .next { delay s.wdelay (sdpSteps seq s) with result := some .unit }))) := by
  unfold sdpRun
  cases ha : sdpAvailable s.cfg with
  | false =>
    refine .inl ⟨?_, rfl⟩
    simp only [sdpAvailable, Bool.and_eq_false_iff] at ha
    rcases ha with ha | ha
    · left
      cases hb : s.cfg.backend
      · rw [hb] at ha; cases ha
      · rfl
    · exact .inr ha
  | true =>
    obtain ⟨hb, hp⟩ := (sdpAvailable_iff _).1 ha
    refine .inr ⟨hb, hp, ?_⟩
    simp only [Bool.not_true, Bool.false_eq_true, if_false]
    rcases phase_cases s with h1 | h1
    · exact .inl ⟨_, by rw [if_pos h1]; rfl, .inl ⟨rfl, h1⟩⟩
    rcases burst_cases s with h2 | h2
    · simp only [h1, h2, reduceCtorEq, if_false]
      cases ho : offsetBeyond s.cfg.capacity seq with
      | none => exact .inr ⟨trivial, trivial, (offsetBeyond_none _ _).1 ho, rfl⟩
      | some o => exact .inl ⟨_, rfl, .inr (.inr ⟨o, rfl, trivial, rfl⟩)⟩
    · exact .inl ⟨_, by simp only [h1, h2]; rfl, .inr (.inl ⟨rfl, h1, h2⟩)⟩

/-! ## Micro-operations -/

theorem onParallel_cases (s : State) (a : Answer) :
    (s.cfg.backend = .parallel ∧ onParallel s a = a) ∨
    (s.cfg.backend = .i2c ∧ onParallel s a = .next (marked s (.refused .backend))) := by
  unfold onParallel
  split
  · next h => exact .inl ⟨h, rfl⟩
  · next h => exact .inr ⟨h, rfl⟩

theorem onI2c_cases (s : State) (a : Answer) :
    (s.cfg.backend = .i2c ∧ onI2c s a = a) ∨
    (s.cfg.backend = .parallel ∧ onI2c s a = .next (marked s (.refused .backend))) := by
  unfold onI2c
  split
  · next h => exact .inl ⟨h, rfl⟩
  · next h => exact .inr ⟨h, rfl⟩

end Sys2Proof.Machine
end

