-- ==== Sys2Proof/Laws/Frame.lean ====
section
/-! SUPPORT. The frame of every operation, without a premise: what no line, bus or device action changes. -/

namespace Sys2Proof.Machine

/-- t is s after line, bus, device and counter actions: the parameters, the request stream, the phase, the write delay, the burst,
the mark and the result are as they were, and the trace has only grown. -/
structure Moves (s t : State) : Prop where
  eq : t = { s with ctr := t.ctr, hwctr := t.hwctr, status := t.status, lines := t.lines, dbusDir := t.dbusDir,
                    dbusOut := t.dbusOut, bus := t.bus, txstate := t.txstate, trace := t.trace, oracle := t.oracle,
                    draws := t.draws, dev := t.dev }
  trace : s.trace <+: t.trace

theorem Moves.refl (s : State) : Moves s s := ⟨rfl, List.prefix_refl _⟩

theorem Moves.trans {s t u : State} (h : Moves s t) (h' : Moves t u) : Moves s u := by
  refine ⟨?_, h.trace.trans h'.trace⟩
  have h1 := h.eq
  have h2 := h'.eq
  rw [h1] at h2
  exact h2

theorem Moves.cfg {s t : State} (h : Moves s t) : t.cfg = s.cfg := by rw [h.eq]
theorem Moves.wdelay {s t : State} (h : Moves s t) : t.wdelay = s.wdelay := by rw [h.eq]
theorem Moves.phase {s t : State} (h : Moves s t) : t.phase = s.phase := by rw [h.eq]
theorem Moves.burst {s t : State} (h : Moves s t) : t.burst = s.burst := by rw [h.eq]
theorem Moves.mark {s t : State} (h : Moves s t) : t.mark = s.mark := by rw [h.eq]
theorem Moves.result {s t : State} (h : Moves s t) : t.result = s.result := by rw [h.eq]
theorem Moves.stream {s t : State} (h : Moves s t) : t.stream = s.stream := by rw [h.eq]
theorem Moves.origin {s t : State} (h : Moves s t) : t.origin = s.origin := by rw [h.eq]

theorem BusMoves.moves {s t : State} (h : BusMoves s t) : Moves s t := ⟨by have := h.eq; rw [this], h.trace⟩

/-! ## The parallel side -/

theorem pIdle_moves (s : State) : Moves s (pIdle s) := by
  rw [pIdle_eq]; exact ⟨rfl, List.prefix_append _ _⟩

theorem pSelect_moves (l : Bool) (s : State) : Moves s (pSelect l s) := by
  cases l
  · rw [pSelect_false]; exact ⟨rfl, List.prefix_append _ _⟩
  · rw [pSelect_true]; exact ⟨rfl, List.prefix_append _ _⟩

theorem pRstPulse_moves (s : State) : Moves s (pRstPulse s) := ⟨rfl, List.prefix_append _ _⟩

theorem pClkPulse_moves (s : State) : Moves s (pClkPulse s) := ⟨rfl, List.prefix_append _ _⟩

theorem clkPulses_moves (n : Nat) (s : State) : Moves s (clkPulses n s) := by
  rw [clkPulses_eq]; exact ⟨rfl, List.prefix_append _ _⟩

theorem pReadStrobe_moves (s : State) : Moves s (pReadStrobe s).2 := by
  obtain ⟨n, h⟩ := pReadStrobe_spec s
  rw [h]; exact ⟨rfl, List.prefix_append _ _⟩

theorem pWriteStrobe_moves (v : Byte) (s : State) : Moves s (pWriteStrobe v s) := by
  rw [pWriteStrobe_eq]; exact ⟨rfl, List.prefix_append _ _⟩

theorem delay_moves (d : Nat) (s : State) : Moves s (delay d s) := by
  rw [delay_eq]; exact ⟨rfl, List.prefix_append _ _⟩

theorem setCtr_moves (v : Option Nat) (s : State) : Moves s (s.setCtr v) := ⟨rfl, List.prefix_refl _⟩

theorem drawStatus_moves (s : State) : Moves s (drawStatus s) := ⟨rfl, List.prefix_refl _⟩

theorem draw_moves (s : State) : Moves s (draw s).2 := ⟨rfl, List.prefix_refl _⟩

theorem strobePage_moves (page : List Byte) : ∀ s : State, Moves s (strobePage page s) := by
  induction page with
  | nil => exact Moves.refl
  | cons b l ih =>
    exact fun s => (((pWriteStrobe_moves b s).trans (pClkPulse_moves _)).trans (setCtr_moves _ _)).trans (ih _)

theorem sdpSteps_moves (seq : List (Nat × Byte)) : ∀ s : State, Moves s (sdpSteps seq s) := by
  induction seq with
  | nil => exact Moves.refl
  | cons p l ih =>
    exact fun s => (((((pRstPulse_moves s).trans (setCtr_moves _ _)).trans (clkPulses_moves p.1 _)).trans
      (setCtr_moves _ _)).trans (pWriteStrobe_moves p.2 _)).trans (ih _)

/-! ## The I2C side -/

theorem iStop_moves (s : State) : Moves s (iStop s) := by
  rw [iStop_eq]; exact ⟨rfl, List.prefix_append _ _⟩

theorem thenStep_moves {s : State} {p : Bool × State} {f : State → Bool × State} (hp : Moves s p.2)
    (hf : ∀ t, Moves t (f t).2) : Moves s (thenStep p f).2 := by
  rcases thenStep_cases p f with ⟨-, e⟩ | ⟨-, e⟩
  · rw [e]; exact hp
  · rw [e]; exact hp.trans (hf _)

theorem stepTx_moves' (role : Role) (v : Byte) (s : State) : Moves s (stepTx role v s).2 := (stepTx_moves role v s).1.moves

theorem frame_moves (c : Nat) (s : State) : Moves s (frame c s).2 :=
  thenStep_moves (thenStep_moves (thenStep_moves (stepStart_moves s).1.moves fun _ => stepTx_moves' _ _ _)
    fun _ => stepTx_moves' _ _ _) fun _ => stepTx_moves' _ _ _

theorem startSeqReadI2c_moves (c : Nat) (s : State) : Moves s (startSeqReadI2c c s).2 := by
  have h : Moves s (readFrame c s).2 :=
    thenStep_moves (thenStep_moves (frame_moves c s) fun t => (stepRepStart_moves t).1.moves) fun _ => stepTx_moves' _ _ _
  unfold startSeqReadI2c
  by_cases hok : (readFrame c s).1 = true
  · simp only [hok, if_true]; exact h
  · simp only [if_neg hok]; exact h.trans (iStop_moves _)

theorem endNextByte_moves {s : State} {f : State → State} {q : Byte × Byte × State} (exp : Byte) (hq : Moves s q.2.2)
    (hf : ∀ t, Moves t (f t)) : Moves s (endNextByte exp f q).2.2 := by
  obtain ⟨b, c, t⟩ := q
  refine hq.trans ?_
  rcases endNextByte_cases exp f b c t with ⟨-, e⟩ | ⟨-, e⟩
  · rw [e]
    exact Moves.trans (t := { t with status := some c }) ⟨rfl, List.prefix_refl _⟩ (hf _)
  · rw [e]
    exact ⟨rfl, List.prefix_append _ _⟩

theorem iRxAck_moves (s : State) : Moves s (iRxAck s).2.2 := by
  obtain ⟨raw, n, b, m, h, -, -, -, -⟩ := iRxAck_spec s
  rw [h]; exact ⟨rfl, List.prefix_append _ _⟩

theorem iRxNack_moves (s : State) : Moves s (iRxNack s).2.2 := by
  obtain ⟨raw, n, b, m, h, -, -, -, -⟩ := iRxNack_spec s
  rw [h]; exact ⟨rfl, List.prefix_append _ _⟩

theorem nextByteI2c_moves (l : Bool) (s : State) : Moves s (nextByteI2c l s).2.2 := by
  cases l
  · exact endNextByte_moves _ (iRxAck_moves s) Moves.refl
  · exact endNextByte_moves _ (iRxNack_moves s) iStop_moves

theorem sendBytes_moves (count : Bool) (bytes : List Byte) : ∀ s : State, Moves s (sendBytes count bytes s).2 := by
  induction bytes with
  | nil => exact Moves.refl
  | cons b l ih =>
    refine fun s => thenStep_moves (stepTx_moves' _ _ _) fun t => ?_
    refine Moves.trans ?_ (ih _)
    rw [counted_eq]
    exact ⟨rfl, List.prefix_refl _⟩

theorem writeTransaction_moves (count : Bool) (c : Nat) (bytes : List Byte) (s : State) :
    Moves s (writeTransaction count c bytes s).2 := by
  have h1 := frame_moves c s
  have h2 := h1.trans (sendBytes_moves count bytes (frame c s).2)
  unfold writeTransaction
  by_cases hok : (frame c s).1 = true
  · simp only [hok, if_true]
    by_cases hok2 : (sendBytes count bytes (frame c s).2).1 = true
    · simp only [hok2, if_true]
      exact (h2.trans (iStop_moves _)).trans (delay_moves _ _)
    · simp only [if_neg hok2, devAbort_eq]
      exact Moves.trans (h2.trans (iStop_moves _)) ⟨rfl, List.prefix_refl _⟩
  · simp only [if_neg hok]
    exact h1.trans (iStop_moves _)

theorem iStart_moves (s : State) : Moves s (iStart s).2 := by
  obtain ⟨raw, n, h, -, -⟩ := busStep_spec s.cfg.expStart .start (s.setBus .held)
  rw [iStart, h]; exact ⟨rfl, List.prefix_append _ _⟩

theorem iRepStart_moves (s : State) : Moves s (iRepStart s).2 := by
  obtain ⟨raw, n, h, -, -⟩ := busStep_spec s.cfg.expRepStart .repeatedStart s
  rw [iRepStart, h]; exact ⟨rfl, List.prefix_append _ _⟩

theorem iTx_moves (role : Role) (v : Byte) (s : State) : Moves s (iTx role v s).2 := by
  obtain ⟨raw, n, x, h, -, -, -⟩ := iTx_spec role v s
  rw [h]; exact ⟨rfl, List.prefix_append _ _⟩

/-! ## The contract's bodies -/

theorem initBody_moves (s : State) : Moves s (initBody s) := by
  unfold initBody
  split
  · exact pIdle_moves s
  · exact ⟨rfl, List.prefix_refl _⟩

theorem resetMemoryBody_moves (s : State) : Moves s (resetMemoryBody s) := by
  unfold resetMemoryBody
  split
  · exact pIdle_moves s
  · exact iStop_moves s

theorem resetHardware_moves (s : State) : Moves s (resetHardware s) := by
  unfold resetHardware
  split
  · exact pRstPulse_moves s
  · exact Moves.refl s

theorem advanceHardware_moves (n : Nat) (s : State) : Moves s (advanceHardware n s) := by
  unfold advanceHardware
  split
  · exact clkPulses_moves n s
  · exact Moves.refl s

theorem startSeqReadBody_moves (c : Nat) (s : State) : Moves s (startSeqReadBody c s).2 := by
  unfold startSeqReadBody
  split
  · exact (pSelect_moves true s).trans (drawStatus_moves _)
  · exact startSeqReadI2c_moves c s

theorem nextByteParallel_moves (l : Bool) (s : State) : Moves s (nextByteParallel l s).2.2 := by
  unfold nextByteParallel
  cases l
  · exact (pReadStrobe_moves s).trans (drawStatus_moves _)
  · exact ((pReadStrobe_moves s).trans (pSelect_moves false _)).trans (drawStatus_moves _)

theorem writeByteBody_moves (c : Nat) (v : Byte) (s : State) : Moves s (writeByteBody c v s).2 := by
  unfold writeByteBody
  split
  · exact ((pWriteStrobe_moves v s).trans (delay_moves _ _)).trans (drawStatus_moves _)
  · exact writeTransaction_moves false c [v] s

theorem writePageBody_moves (c : Nat) (page : List Byte) (s : State) : Moves s (writePageBody c page s).2 := by
  unfold writePageBody
  split
  · exact ((strobePage_moves page s).trans (delay_moves _ _)).trans (drawStatus_moves _)
  · exact writeTransaction_moves true c page s

end Sys2Proof.Machine
end

