-- ==== Sys2Proof/Laws/PerInstr.lean ====
section
/-! SUPPORT. The per-instruction family TableMatch: the encoded word of every instruction matches its row of
spec/opcode_table.json, and a well-formed one is as long as its format says (30_encoding.md rules R80, R81). -/

namespace Sys2Proof.Laws.TableMatch

open Sys2Proof

/-- The fixed bits of an instruction's row: mask and match of spec/opcode_table.json. -/
def row : Instr → Word × Word
  | .reset => (0xFFFFFFFF, 0x01000000)
  | .advance _ => (0xFF000000, 0x02000000)
  | .getcount => (0xFFFFFFFF, 0x03000000)
  | .init => (0xFFFFFFFF, 0x10000000)
  | .resetMemory => (0xFFFFFFFF, 0x11000000)
  | .startSeqRead => (0xFFFFFFFF, 0x12000000)
  | .nextByte _ => (0xFFFFFFFE, 0x13000000)
  | .writeByte _ => (0xFFFFFF00, 0x14000000)
  | .writePage _ => (0xFFFFFFFF, 0x15000000)
  | .lastFailure => (0xFFFFFFFF, 0x16000000)
  | .setWriteDelay _ => (0xFF000000, 0x17000000)
  | .sdpEnable => (0xFFFFFFFF, 0x18000000)
  | .sdpDisable => (0xFFFFFFFF, 0x19000000)
  | .pIdle => (0xFFFFFFFF, 0x40000000)
  | .pClkPulse => (0xFFFFFFFF, 0x41000000)
  | .pRstPulse => (0xFFFFFFFF, 0x42000000)
  | .pReadStrobe => (0xFFFFFFFF, 0x43000000)
  | .pWriteStrobe _ => (0xFFFFFF00, 0x44000000)
  | .pSelect _ => (0xFFFFFFFE, 0x45000000)
  | .iStart => (0xFFFFFFFF, 0x60000000)
  | .iRepStart => (0xFFFFFFFF, 0x61000000)
  | .iStop => (0xFFFFFFFF, 0x62000000)
  | .iTx _ _ => (0xFFFFF800, 0x63000000)
  | .iRxAck => (0xFFFFFFFF, 0x64000000)
  | .iRxNack => (0xFFFFFFFF, 0x65000000)
  | .delay _ => (0xFF000000, 0x70000000)

/-- The encoded word has its row's fixed bits, and a well-formed instruction takes 4 bytes, WRITE_PAGE 68. -/
def Statement (i : Instr) : Prop :=
  encodeWord i &&& (row i).1 = (row i).2 ∧
    (i.wellFormed = true → (encode i).length = if opField (encodeWord i) = opWritePage then 68 else 4)

/-- A word is its opcode followed by 24 operand bits, so a mask of the opcode's bits leaves the opcode. -/
theorem masked_imm (op : Byte) (x : BitVec 24) : (op ++ x : Word) &&& 0xFF000000 = op ++ (0 : BitVec 24) := by
  ext j hj
  have hm : (0xFF000000 : Word) = (0xFF : Byte) ++ (0 : BitVec 24) := by decide
  rw [hm, BitVec.getElem_and, BitVec.getElem_append, BitVec.getElem_append, BitVec.getElem_append]
  have h1 : ∀ k (h : k < 8), (0xFF : Byte)[k] = true := by decide
  have h0 : ∀ k (h : k < 24), (0 : BitVec 24)[k] = false := by decide
  split
  · rw [h0, Bool.and_false]
  · rw [h1, Bool.and_true]

theorem reset : Statement .reset := ⟨by decide, by decide⟩

theorem advance (n : BitVec 24) : Statement (.advance n) :=
  ⟨(masked_imm 0x02 n).trans
    (show ((0x02 : Byte) ++ (0 : BitVec 24) : Word) = 0x02000000 by decide), fun _ => by rw [opField_encodeWord]; rfl⟩

theorem getcount : Statement .getcount := ⟨by decide, by decide⟩

theorem init : Statement .init := ⟨by decide, by decide⟩

theorem resetMemory : Statement .resetMemory := ⟨by decide, by decide⟩

theorem startSeqRead : Statement .startSeqRead := ⟨by decide, by decide⟩

theorem nextByte (l : Bool) : Statement (.nextByte l) := by
  cases l <;> exact ⟨by decide, by decide⟩

theorem writeByte (v : Byte) : Statement (.writeByte v) := by
  refine ⟨?_, fun _ => by rw [opField_encodeWord]; rfl⟩
  revert v
  decide

theorem writePage (page : List Byte) : Statement (.writePage page) := by
  refine ⟨?_, fun h => ?_⟩
  · show ((0x15 : Byte) ++ (0 : BitVec 24) : Word) &&& 0xFFFFFFFF = 0x15000000
    decide
  · have h : page.length = 64 := by simpa [Instr.wellFormed, pageSize] using h
    rw [opField_encodeWord]
    simp [encode, bytesOfWord, Instr.block, Instr.opcode, opWritePage, h]

theorem lastFailure : Statement .lastFailure := ⟨by decide, by decide⟩

theorem setWriteDelay (d : BitVec 24) : Statement (.setWriteDelay d) :=
  ⟨(masked_imm 0x17 d).trans
    (show ((0x17 : Byte) ++ (0 : BitVec 24) : Word) = 0x17000000 by decide), fun _ => by rw [opField_encodeWord]; rfl⟩

theorem sdpEnable : Statement .sdpEnable := ⟨by decide, by decide⟩

theorem sdpDisable : Statement .sdpDisable := ⟨by decide, by decide⟩

theorem pIdle : Statement .pIdle := ⟨by decide, by decide⟩

theorem pClkPulse : Statement .pClkPulse := ⟨by decide, by decide⟩

theorem pRstPulse : Statement .pRstPulse := ⟨by decide, by decide⟩

theorem pReadStrobe : Statement .pReadStrobe := ⟨by decide, by decide⟩

theorem pWriteStrobe (v : Byte) : Statement (.pWriteStrobe v) := by
  refine ⟨?_, fun _ => by rw [opField_encodeWord]; rfl⟩
  revert v
  decide

theorem pSelect (l : Bool) : Statement (.pSelect l) := by
  cases l <;> exact ⟨by decide, by decide⟩

theorem iStart : Statement .iStart := ⟨by decide, by decide⟩

theorem iRepStart : Statement .iRepStart := ⟨by decide, by decide⟩

theorem iStop : Statement .iStop := ⟨by decide, by decide⟩

theorem iTx (role : Role) (v : Byte) : Statement (.iTx role v) := by
  refine ⟨?_, fun _ => by rw [opField_encodeWord]; rfl⟩
  revert v
  cases role <;> decide

theorem iRxAck : Statement .iRxAck := ⟨by decide, by decide⟩

theorem iRxNack : Statement .iRxNack := ⟨by decide, by decide⟩

theorem delay (d : BitVec 24) : Statement (.delay d) :=
  ⟨(masked_imm 0x70 d).trans
    (show ((0x70 : Byte) ++ (0 : BitVec 24) : Word) = 0x70000000 by decide), fun _ => by rw [opField_encodeWord]; rfl⟩

end Sys2Proof.Laws.TableMatch
end

