-- ==== Sys2Proof/Laws/Ready.lean ====
section
/-! SUPPORT. What exec answers where the shared checks pass, what the constraints on the parameters give, and the commit of
writes within one page. -/

namespace Sys2Proof.Machine

/-! ## The constraints on the parameters -/

/-- An I2C device has at most 65536 bytes, in whole pages (20_memory.md rule R57). -/
theorem configOk_i2c {c : Config} (hc : configOk c = true) (hb : c.backend = .i2c) :
    c.capacity ≤ 65536 ∧ c.capacity % 64 = 0 ∧ 64 ≤ c.capacity := by
  simp only [configOk, capacityOk, hb, pageSize, Bool.and_eq_true, beq_iff_eq, decide_eq_true_eq] at hc
  obtain ⟨⟨⟨⟨h1, h2⟩, h3⟩, -⟩, -⟩ := hc
  exact ⟨h3, h1, of_decide_eq_true h2⟩

/-- A parallel device is within the hardware counter's range, in whole pages (20_memory.md rule R57). -/
theorem configOk_parallel {c : Config} (hc : configOk c = true) (hb : c.backend = .parallel) :
    c.capacity ≤ 2 ^ c.ctrBits ∧ c.capacity % 64 = 0 ∧ 64 ≤ c.capacity := by
  simp only [configOk, capacityOk, hb, pageSize, Bool.and_eq_true, beq_iff_eq, decide_eq_true_eq] at hc
  obtain ⟨⟨⟨⟨h1, h2⟩, h3⟩, -⟩, -⟩ := hc
  exact ⟨h3, h1, of_decide_eq_true h2⟩

/-- On both backends the capacity is a positive number of pages. -/
theorem configOk_pages {c : Config} (hc : configOk c = true) : c.capacity % 64 = 0 ∧ 64 ≤ c.capacity := by
  cases hb : c.backend with
  | parallel => exact (configOk_parallel hc hb).2
  | i2c => exact (configOk_i2c hc hb).2

/-- An SDP sequence has six pairs (42_parallel_sequencer.md rule R170). -/
theorem configOk_sdp {c : Config} (hc : configOk c = true) : c.sdpEnableSeq.length = 6 ∧ c.sdpDisableSeq.length = 6 := by
  simp [configOk, sdpSequencesOk] at hc; omega

/-! ## The commit -/

/-- Pending writes within one page, other than six, to an unlocked parallel device reach the memory. -/
theorem commit_onePage {s : State} (hc : configOk s.cfg = true) (hb : s.cfg.backend = .parallel) (hu : Unlocked s)
    (hp : inOnePage s.dev.pending = true) (h6 : s.dev.pending.length ≠ 6) :
    commit s = s.setMem (memWriteAll s.dev.mem s.dev.pending) := by
  obtain ⟨h1, h2⟩ := configOk_sdp hc
  have e1 : (s.dev.pending == s.cfg.sdpEnableSeq) = false := by
    rw [beq_eq_false_iff_ne]; intro e; rw [e] at h6; exact h6 h1
  have e2 : (s.dev.pending == s.cfg.sdpDisableSeq) = false := by
    rw [beq_eq_false_iff_ne]; intro e; rw [e] at h6; exact h6 h2
  have e3 : (s.cfg.devSdp && s.dev.latch == .locked) = false := by
    rcases hu with h | h <;> rw [h] <;> simp
  simp only [commit, hb, commitParallel, e1, e2, e3, hp, Bool.and_false, Bool.false_eq_true, if_false, if_true]

/-- The device answers with its memory exactly when it is idle. -/
theorem devOccupied_iff {s : State} : devOccupied s = true ↔ ¬ DeviceIdle s := by
  simp only [devOccupied, DeviceIdle]; cases s.dev.busy <;> cases s.dev.pending <;> simp

theorem devOccupied_of_idle {s : State} (h : DeviceIdle s) : devOccupied s = false := by
  rw [← Bool.not_eq_true, devOccupied_iff]; exact fun k => k h

/-! ## Past the checks -/

theorem exec_writeByte_ready {s : State} {c : Nat} (v : Byte) (h : AtCounter s c) (hl : c < s.cfg.capacity) :
    exec (.writeByte v) s =
      .next { (writeByteBody c v s).2 with result := some (.flag (writeByteBody c v s).1) } := by
  simp only [exec, execWriteByte, atCounter_ready h, belowCapacity_of_lt hl]; rfl

theorem exec_writePage_ready {s : State} {c : Nat} {page : List Byte} (h : AtCounter s c) (hl : c < s.cfg.capacity)
    (ha : c % 64 = 0) (hp : page.length = 64) : exec (.writePage page) s =
      .next { (writePageBody c page s).2 with result := some (.flag (writePageBody c page s).1) } := by
  have h2 := (pageAligned_iff c).2 ha
  simp only [exec, execWritePage, atCounter_ready h, belowCapacity_of_lt hl, hp, pageSize, h2]; rfl

theorem exec_startSeqRead_ready {s : State} {c : Nat} (h : AtCounter s c) (hl : c < s.cfg.capacity) :
    exec .startSeqRead s = .next
      { (startSeqReadBody c s).2 with burst := if (startSeqReadBody c s).1 then .opened else .none,
                                      result := some (.flag (startSeqReadBody c s).1) } := by
  simp only [exec, execStartSeqRead, atCounter_ready h, belowCapacity_of_lt hl]; rfl

theorem exec_nextByte_parallel {s : State} {c : Nat} (l : Bool) (h1 : s.phase = .ready) (h2 : s.burst = .opened)
    (h3 : s.ctr = some c) (hl : c < s.cfg.capacity) (hb : s.cfg.backend = .parallel) :
    exec (.nextByte l) s = closeNextByte l (nextByteParallel l s) := by
  simp only [exec, execNextByte, h1, h2, hb, h3, belowCapacity_of_lt hl, reduceCtorEq, if_false]

theorem exec_nextByte_i2c {s : State} (l : Bool) (h1 : s.phase = .ready) (h2 : s.burst = .opened)
    (hb : s.cfg.backend = .i2c) : exec (.nextByte l) s = closeNextByte l (nextByteI2c l s) := by
  simp only [exec, execNextByte, h1, h2, hb, reduceCtorEq, if_false]

theorem exec_advance_ready {s : State} {c : Nat} {n : BitVec 24} (h1 : s.phase = .ready) (h2 : s.ctr = some c)
    (hl : c + n.toNat ≤ s.cfg.capacity) :
    exec (.advance n) s = .next { advanceHardware n.toNat s with ctr := some (c + n.toNat), result := some .unit } := by
  have h3 : ¬ s.cfg.capacity < c + n.toNat := by omega
  simp only [exec, execAdvance, h1, h2, if_neg h3, reduceCtorEq, if_false]; rfl

/-- An I_TX to an idle device whose scripted answer does not match: nothing of the device changes. -/
theorem stepTx_scripted {s : State} {raw : Byte} {l : List (Option Byte)} (role : Role) (v : Byte)
    (hs : s.oracle.script = some raw :: l) (hm : raw &&& s.cfg.statusMask ≠ txExpected s.cfg role)
    (hb : s.dev.busy = false) : stepTx role v s = (false,
      { s with oracle := oracleAfter 1 s.oracle, status := some (raw &&& s.cfg.statusMask),
               trace := s.trace ++ [.iTx role v (raw &&& s.cfg.statusMask) (txNamed role)] }) := by
  obtain ⟨raw', n, x, h1, h2, h3, h4⟩ := iTx_spec role v s
  obtain ⟨rfl, rfl⟩ := h4 raw l hs
  rw [stepTx, recordStep, h1]
  rw [if_neg hm] at h2
  have : (raw' &&& s.cfg.statusMask == txExpected s.cfg role) = false := by simpa using hm
  rw [this]
  cases role <;> simp [devTx_eq, h2, State.setStatus, hb]

end Sys2Proof.Machine
end

