-- ==== Sys2Proof/Laws/Quiet.lean ====
section
/-! SUPPORT. Which operations leave the status and the counter alone, which can only raise the counter, and which leave the
device's memory alone; no premise. -/

namespace Sys2Proof.Machine

/-- The status and the counter are as they were. -/
structure Quiet (s t : State) : Prop where
  status : t.status = s.status
  ctr : t.ctr = s.ctr
theorem Quiet.refl (s : State) : Quiet s s := ⟨rfl, rfl⟩
theorem Quiet.trans {s t u : State} (h : Quiet s t) (h' : Quiet t u) : Quiet s u :=
  ⟨h'.status.trans h.status, h'.ctr.trans h.ctr⟩
theorem pWriteStrobe_quiet (v s) : Quiet s (pWriteStrobe v s) := by rw [pWriteStrobe_eq]; exact ⟨rfl, rfl⟩
theorem pReadStrobe_quiet (s) : Quiet s (pReadStrobe s).2 := by
  obtain ⟨n, h⟩ := pReadStrobe_spec s
  rw [h]; exact ⟨rfl, rfl⟩
theorem delay_quiet (d s) : Quiet s (delay d s) := by rw [delay_eq]; exact ⟨rfl, rfl⟩
theorem pIdle_quiet (s) : Quiet s (pIdle s) := by rw [pIdle_eq]; exact ⟨rfl, rfl⟩
theorem pSelect_quiet (l s) : Quiet s (pSelect l s) := by
  cases l
  · rw [pSelect_false]; exact ⟨rfl, rfl⟩
  · rw [pSelect_true]; exact ⟨rfl, rfl⟩
theorem clkPulses_quiet (n s) : Quiet s (clkPulses n s) := by rw [clkPulses_eq]; exact ⟨rfl, rfl⟩
theorem iStop_quiet (s) : Quiet s (iStop s) := by rw [iStop_eq]; exact ⟨rfl, rfl⟩
theorem iStart_quiet (s) : Quiet s (iStart s).2 := by
  obtain ⟨raw, n, h, -, -⟩ := busStep_spec s.cfg.expStart .start (s.setBus .held)
  rw [iStart, h]; exact ⟨rfl, rfl⟩
theorem iRepStart_quiet (s) : Quiet s (iRepStart s).2 := by
  obtain ⟨raw, n, h, -, -⟩ := busStep_spec s.cfg.expRepStart .repeatedStart s
  rw [iRepStart, h]; exact ⟨rfl, rfl⟩
theorem iTx_quiet (r v s) : Quiet s (iTx r v s).2 := by
  obtain ⟨raw, n, x, h, -, -, -⟩ := iTx_spec r v s
  rw [h]; exact ⟨rfl, rfl⟩
theorem iRxAck_quiet (s) : Quiet s (iRxAck s).2.2 := by
  obtain ⟨raw, n, b, m, h, -, -, -, -⟩ := iRxAck_spec s
  rw [h]; exact ⟨rfl, rfl⟩
theorem iRxNack_quiet (s) : Quiet s (iRxNack s).2.2 := by
  obtain ⟨raw, n, b, m, h, -, -, -, -⟩ := iRxNack_spec s
  rw [h]; exact ⟨rfl, rfl⟩
theorem sdpSteps_status (seq) : ∀ s : State, (sdpSteps seq s).status = s.status := by
  induction seq with
  | nil => intro s; rfl
  | cons p l ih =>
    intro s
    rw [sdpSteps, ih, (pWriteStrobe_quiet _ _).status]
    exact (clkPulses_quiet p.1 ((pRstPulse s).setCtr (some 0))).status

/-- A set counter stays set and does not go down. -/
def Up (s t : State) : Prop := ∀ c, s.ctr = some c → ∃ c', t.ctr = some c' ∧ c ≤ c'
theorem Quiet.up {s t} (h : Quiet s t) : Up s t := fun c hc => ⟨c, h.ctr.trans hc, Nat.le_refl _⟩
theorem Up.refl (s : State) : Up s s := fun c hc => ⟨c, hc, Nat.le_refl _⟩
theorem Up.trans {s t u : State} (h : Up s t) (h' : Up t u) : Up s u := fun c hc => by
  obtain ⟨c', h1, h2⟩ := h c hc
  obtain ⟨c'', h3, h4⟩ := h' c' h1
  exact ⟨c'', h3, by omega⟩
theorem Up.of_eq {s t : State} (h : t.ctr = s.ctr) : Up s t := fun c hc => ⟨c, h.trans hc, Nat.le_refl _⟩
theorem pClkPulse_up (s : State) : Up s (pClkPulse s) := Up.of_eq (by rw [pClkPulse_eq])
theorem bumpCtr_up (s : State) : Up s (bumpCtr s) := fun c hc => ⟨c + 1, by simp [bumpCtr, State.setCtr, hc], by omega⟩
theorem strobePage_up (p) : ∀ s : State, Up s (strobePage p s) := by
  induction p with
  | nil => exact Up.refl
  | cons b l ih => exact fun s => (((pWriteStrobe_quiet b s).up.trans (pClkPulse_up _)).trans (bumpCtr_up _)).trans (ih _)
theorem thenStep_up {s : State} {p f} (hp : Up s p.2) (hf : ∀ t, Up t (f t).2) : Up s (thenStep p f).2 := by
  rcases thenStep_cases p f with ⟨-, e⟩ | ⟨-, e⟩ <;> rw [e]
  · exact hp
  · exact hp.trans (hf _)
theorem stepTx_up (r v s) : Up s (stepTx r v s).2 := Up.of_eq (stepTx_moves r v s).1.ctr
theorem sendBytes_up (count) (bytes) : ∀ s : State, Up s (sendBytes count bytes s).2 := by
  induction bytes with
  | nil => exact Up.refl
  | cons b l ih =>
    refine fun s => thenStep_up (stepTx_up _ _ _) fun t => Up.trans ?_ (ih _)
    cases count
    · exact Up.refl _
    · exact bumpCtr_up _
theorem thenStep_ctr {s : State} {p : Bool × State} {f} (hp : p.2.ctr = s.ctr)
    (hf : ∀ t : State, (f t).2.ctr = t.ctr) : (thenStep p f).2.ctr = s.ctr := by
  rcases thenStep_cases p f with ⟨-, e⟩ | ⟨-, e⟩ <;> rw [e]
  · exact hp
  · exact (hf _).trans hp
theorem frame_ctr (c s) : (frame c s).2.ctr = s.ctr :=
  thenStep_ctr (thenStep_ctr (thenStep_ctr (stepStart_moves s).1.ctr fun t => (stepTx_moves _ _ t).1.ctr)
    fun t => (stepTx_moves _ _ t).1.ctr) fun t => (stepTx_moves _ _ t).1.ctr
theorem readFrame_ctr (c s) : (readFrame c s).2.ctr = s.ctr :=
  thenStep_ctr (thenStep_ctr (frame_ctr c s) fun t => (stepRepStart_moves t).1.ctr) fun t => (stepTx_moves _ _ t).1.ctr
theorem startSeqReadI2c_ctr (c s) : (startSeqReadI2c c s).2.ctr = s.ctr := by
  unfold startSeqReadI2c; by_cases h : (readFrame c s).1 = true
  · simp only [h, if_true]; exact readFrame_ctr c s
  · simp only [if_neg h]; exact (iStop_quiet _).ctr.trans (readFrame_ctr c s)
theorem writeTransaction_up (count c bytes s) : Up s (writeTransaction count c bytes s).2 := by
  have h1 := Up.of_eq (frame_ctr c s)
  have h2 := h1.trans (sendBytes_up count bytes (frame c s).2)
  unfold writeTransaction
  by_cases hok : (frame c s).1 = true
  · simp only [hok, if_true]
    by_cases hok2 : (sendBytes count bytes (frame c s).2).1 = true
    · simp only [hok2, if_true]
      exact (h2.trans (iStop_quiet _).up).trans (delay_quiet _ _).up
    · simp only [if_neg hok2, devAbort_eq]
      exact Up.trans (h2.trans (iStop_quiet _).up) (Up.of_eq rfl)
  · simp only [if_neg hok]
    exact h1.trans (iStop_quiet _).up
theorem writeTransaction_ctr (c v s) : (writeTransaction false c [v] s).2.ctr = s.ctr := by
  unfold writeTransaction
  have hs : (sendBytes false [v] (frame c s).2).2.ctr = s.ctr := by
    refine thenStep_ctr ?_ ?_
    · exact (stepTx_moves _ _ _).1.ctr.trans (frame_ctr c s)
    · intro t; rfl
  by_cases hok : (frame c s).1 = true
  · simp only [hok, if_true]
    by_cases hok2 : (sendBytes false [v] (frame c s).2).1 = true
    · simp only [hok2, if_true]
      exact (delay_quiet _ _).ctr.trans ((iStop_quiet _).ctr.trans hs)
    · simp only [if_neg hok2, devAbort_eq]
      exact (iStop_quiet _).ctr.trans hs
  · simp only [if_neg hok]
    exact (iStop_quiet _).ctr.trans (frame_ctr c s)
theorem endNextByte_ctr {s : State} {exp f} {q : Byte × Byte × State} (hq : q.2.2.ctr = s.ctr)
    (hf : ∀ t : State, (f t).ctr = t.ctr) : (endNextByte exp f q).2.2.ctr = s.ctr := by
  obtain ⟨b, c, t⟩ := q
  rcases endNextByte_cases exp f b c t with ⟨-, e⟩ | ⟨-, e⟩ <;> rw [e]
  · exact (hf _).trans hq
  · exact hq
theorem nextByteI2c_ctr (l s) : (nextByteI2c l s).2.2.ctr = s.ctr := by
  cases l
  · exact endNextByte_ctr (iRxAck_quiet s).ctr fun _ => rfl
  · exact endNextByte_ctr (iRxNack_quiet s).ctr fun t => (iStop_quiet t).ctr
theorem nextByteParallel_ctr (l s) : (nextByteParallel l s).2.2.ctr = s.ctr := by
  unfold nextByteParallel
  cases l
  · exact (pReadStrobe_quiet s).ctr
  · exact ((pSelect_quiet _ _).ctr).trans (pReadStrobe_quiet s).ctr
theorem writeByteBody_ctr (c v s) : (writeByteBody c v s).2.ctr = s.ctr := by
  unfold writeByteBody; split
  · exact (delay_quiet _ _).ctr.trans (pWriteStrobe_quiet _ _).ctr
  · exact writeTransaction_ctr c v s
theorem writePageBody_up (c p s) : Up s (writePageBody c p s).2 := by
  unfold writePageBody; split
  · exact ((strobePage_up p s).trans (delay_quiet _ _).up).trans (Up.of_eq rfl)
  · exact writeTransaction_up true c p s
theorem startSeqReadBody_ctr (c s) : (startSeqReadBody c s).2.ctr = s.ctr := by
  unfold startSeqReadBody; split
  · exact (pSelect_quiet _ _).ctr
  · exact startSeqReadI2c_ctr c s

/-! ## The device's memory -/

/-- Memory, latch and pending writes are as they were. -/
structure KeepsMemory (s t : State) : Prop where
  mem : t.dev.mem = s.dev.mem
  latch : t.dev.latch = s.dev.latch
  pending : t.dev.pending = s.dev.pending
theorem KeepsMemory.refl (s : State) : KeepsMemory s s := ⟨rfl, rfl, rfl⟩
theorem KeepsMemory.trans {s t u : State} (h : KeepsMemory s t) (h' : KeepsMemory t u) : KeepsMemory s u :=
  ⟨h'.mem.trans h.mem, h'.latch.trans h.latch, h'.pending.trans h.pending⟩
theorem KeepsMemory.of_dev {s t : State} (h : t.dev = s.dev) : KeepsMemory s t := ⟨by rw [h], by rw [h], by rw [h]⟩
theorem pReadStrobe_keeps (s : State) : KeepsMemory s (pReadStrobe s).2 := by
  obtain ⟨n, h⟩ := pReadStrobe_spec s
  rw [h]; exact .of_dev rfl
theorem pSelect_keeps (l : Bool) (s : State) : KeepsMemory s (pSelect l s) := by
  cases l
  · rw [pSelect_false]; exact .of_dev rfl
  · rw [pSelect_true]; exact .of_dev rfl
theorem iStop_keeps (s : State) : KeepsMemory s (iStop s) := by rw [iStop_eq]; exact ⟨rfl, rfl, rfl⟩
theorem iStart_keeps (s : State) : KeepsMemory s (iStart s).2 := by
  obtain ⟨raw, n, h, -, -⟩ := busStep_spec s.cfg.expStart .start (s.setBus .held)
  rw [iStart, h]; exact .of_dev rfl
theorem iRepStart_keeps (s : State) : KeepsMemory s (iRepStart s).2 := by
  obtain ⟨raw, n, h, -, -⟩ := busStep_spec s.cfg.expRepStart .repeatedStart s
  rw [iRepStart, h]; exact .of_dev rfl
theorem iRxAck_keeps (s : State) : KeepsMemory s (iRxAck s).2.2 := by
  obtain ⟨raw, n, b, m, h, -, -, -, -⟩ := iRxAck_spec s
  rw [h]; exact ⟨rfl, rfl, rfl⟩
theorem iRxNack_keeps (s : State) : KeepsMemory s (iRxNack s).2.2 := by
  obtain ⟨raw, n, b, m, h, -, -, -, -⟩ := iRxNack_spec s
  rw [h]; exact ⟨rfl, rfl, rfl⟩
theorem stepTx_keeps {role : Role} (hr : role ≠ .data) (v : Byte) (s : State) : KeepsMemory s (stepTx role v s).2 := by
  obtain ⟨-, -, n, h⟩ := stepTx_moves role v s
  refine KeepsMemory.trans (t := { s with draws := n }) (.of_dev rfl) ?_
  generalize { s with draws := n } = u at h ⊢
  refine KeepsMemory.trans ?_ (KeepsMemory.of_dev h)
  cases role with
  | data => exact absurd rfl hr
  | slaW => simp only [devTx]; split <;> exact ⟨rfl, rfl, rfl⟩
  | addrHi => simp only [devTx]; split <;> exact ⟨rfl, rfl, rfl⟩
  | addrLo => simp only [devTx]; split <;> exact ⟨rfl, rfl, rfl⟩
  | slaR => simp only [devTx]; split <;> exact ⟨rfl, rfl, rfl⟩
theorem thenStep_keeps {s : State} {p : Bool × State} {f : State → Bool × State} (hp : KeepsMemory s p.2)
    (hf : ∀ t, KeepsMemory t (f t).2) : KeepsMemory s (thenStep p f).2 := by
  rcases thenStep_cases p f with ⟨-, e⟩ | ⟨-, e⟩ <;> rw [e]
  · exact hp
  · exact hp.trans (hf _)
theorem readFrame_keeps (c : Nat) (s : State) : KeepsMemory s (readFrame c s).2 :=
  thenStep_keeps (thenStep_keeps (thenStep_keeps (thenStep_keeps (thenStep_keeps (.of_dev (stepStart_moves s).2.2)
    fun _ => stepTx_keeps (by decide) _ _) fun _ => stepTx_keeps (by decide) _ _) fun _ => stepTx_keeps (by decide) _ _)
    fun t => .of_dev (stepRepStart_moves t).2.2) fun _ => stepTx_keeps (by decide) _ _
theorem startSeqReadBody_keeps (c : Nat) (s : State) : KeepsMemory s (startSeqReadBody c s).2 := by
  unfold startSeqReadBody; split
  · exact (pSelect_keeps true s).trans (.of_dev rfl)
  · unfold startSeqReadI2c
    by_cases h : (readFrame c s).1 = true
    · simp only [h, if_true]; exact readFrame_keeps c s
    · simp only [if_neg h]; exact (readFrame_keeps c s).trans (iStop_keeps _)
theorem nextByteParallel_keeps (l : Bool) (s : State) : KeepsMemory s (nextByteParallel l s).2.2 := by
  unfold nextByteParallel
  cases l
  · exact (pReadStrobe_keeps s).trans (.of_dev rfl)
  · exact ((pReadStrobe_keeps s).trans (pSelect_keeps _ _)).trans (.of_dev rfl)
theorem endNextByte_keeps {s : State} {f : State → State} {q : Byte × Byte × State} (exp : Byte) (hq : KeepsMemory s q.2.2)
    (hf : ∀ t, KeepsMemory t (f t)) : KeepsMemory s (endNextByte exp f q).2.2 := by
  obtain ⟨b, c, t⟩ := q
  rcases endNextByte_cases exp f b c t with ⟨-, e⟩ | ⟨-, e⟩ <;> rw [e]
  · exact (hq.trans (KeepsMemory.of_dev (t := { t with status := some c }) rfl)).trans (hf _)
  · exact hq.trans ⟨rfl, rfl, rfl⟩
theorem nextByteI2c_keeps (l : Bool) (s : State) : KeepsMemory s (nextByteI2c l s).2.2 := by
  cases l
  · exact endNextByte_keeps _ (iRxAck_keeps s) .refl
  · exact endNextByte_keeps _ (iRxNack_keeps s) iStop_keeps

end Sys2Proof.Machine
end

