-- ==== Sys2Proof/Laws/Uploader.lean ====
section
/-! SUPPORT. What a link can do, and how the host's read of a reply can end. -/

namespace Sys2Proof.Machine

/-- The link that delivers every byte. -/
theorem delivered_whole (sent : List Byte) : delivered ⟨[], .whole⟩ sent = sent := by
  cases sent <;> rfl

/-- A link loses bytes; it changes none, adds none and keeps their order. -/
theorem delivered_sublist (link : Link) (sent : List Byte) : List.Sublist (delivered link sent) sent := by
  obtain ⟨script, rest⟩ := link
  show List.Sublist (deliveredBy script rest sent) sent
  induction script generalizing sent with
  | nil => cases rest <;> simp [deliveredBy]
  | cons arrives script ih =>
    cases sent with
    | nil => exact List.Sublist.refl _
    | cons b sent =>
      cases arrives
      · exact (ih sent).cons b
      · exact (ih sent).cons_cons b

/-- Without another byte the host ends on a failed link and hangs on any other (rules R256, R257). -/
theorem starved_cases (link : Link) : (link.hasFailed = true ∧ starved link = .linkFailure) ∨
    (link.hasFailed = false ∧ starved link = .hang) := by
  unfold starved
  cases link.hasFailed
  · exact .inr ⟨rfl, rfl⟩
  · exact .inl ⟨rfl, rfl⟩

/-- How the read of a reply line can end: with `Done`, with another whole line, or without a whole line. -/
theorem expectDone_cases (link : Link) (received : List Byte) : (received = doneBytes ∧ expectDone link received = none) ∨
    (received ≠ doneBytes ∧ received.contains 0x0A = true ∧ expectDone link received = some .protocolError) ∨
    (received.contains 0x0A = false ∧ expectDone link received = some (starved link)) := by
  unfold expectDone
  by_cases h : received = doneBytes
  · exact .inl ⟨h, if_pos h⟩
  · rw [if_neg h]
    cases hc : received.contains 0x0A
    · exact .inr (.inr ⟨rfl, rfl⟩)
    · exact .inr (.inl ⟨h, rfl, rfl⟩)

/-- A reply that is lost on a link that has not failed hangs the host (rule R320). -/
theorem expectDone_lost {link : Link} (h : link.hasFailed = false) : expectDone link [] = some .hang := by
  rcases expectDone_cases link [] with ⟨h', -⟩ | ⟨-, h', -⟩ | ⟨-, e⟩
  · exact absurd h' (by decide)
  · exact absurd h' (by decide)
  · rw [e, starved, h]
    rfl

end Sys2Proof.Machine
end

