-- ==== Sys2Proof/Tests/Slice0.lean ====
section
/-! SUPPORT. Tests of one step each with results taken from 95_test_vectors.md or worked out by hand from the rules, the
decoding of words written out from 30_encoding.md, the WellFormed smoke test, and a witness for the hypotheses of every
statement. -/

namespace Sys2Proof.Tests

open Sys2Proof Sys2Proof.Machine

/-! ## The test configurations of 95_test_vectors.md section 0 -/

/-- TC-P. -/
def tcP : Config := { Config.reference with backend := .parallel, capacity := 32768, ctrBits := 15 }

/-- TC-I. -/
def tcI : Config := { Config.reference with backend := .i2c, capacity := 32768 }

/-- A small SDP device: one page, both sequences within it. -/
def tcS : Config :=
  { tcP with capacity := 64, ctrBits := 6, devSdp := true,
             sdpEnableSeq := [(5, 0xAA), (2, 0x55), (5, 0xA0), (5, 0xAA), (2, 0x55), (63, 0xA0)],
             sdpDisableSeq := [(5, 0xAA), (2, 0x55), (5, 0x80), (5, 0xAA), (2, 0x55), (0, 0x20)] }

/-- An idle device with this memory. -/
def idleDevice (m : Memory) : Device := ⟨m, [], false, 0, .unlocked, 0⟩

/-- Every line deasserted. -/
def idleLines : Lines := ⟨.deasserted, .deasserted, .deasserted, .deasserted, .deasserted⟩

/-- No line driven. -/
def noLines : Lines := ⟨.undriven, .undriven, .undriven, .undriven, .undriven⟩

/-- TC-P after boot and `SET_WRITE_DELAY 10`, with the counter at c and a memory. -/
def par (c : Nat) (m : Memory) : State where
  cfg := tcP
  stream := []
  origin := .caller
  phase := .ready
  ctr := some c
  hwctr := c % 32768
  status := none
  wdelay := 10
  burst := .none
  lines := idleLines
  dbusDir := .input
  dbusOut := 0
  bus := .idle
  txstate := .idle
  trace := []
  mark := .none
  result := none
  dev := idleDevice m
  oracle := ⟨[], .cooperative⟩
  draws := 0

/-- TC-I likewise, with a script of answers before the cooperative ones. -/
def bus (c : Nat) (m : Memory) (script : List (Option Byte)) : State :=
  { par c m with cfg := tcI, hwctr := 0, lines := noLines, oracle := ⟨script, .cooperative⟩ }

/-- TC-P with a burst open. -/
def parBurst (c : Nat) (m : Memory) : State :=
  { par c m with burst := .opened, lines := { idleLines with ce := .asserted } }

/-- TC-I with a burst open and the device's pointer at c. -/
def busBurst (c : Nat) (m : Memory) (script : List (Option Byte)) : State :=
  { bus c m script with burst := .opened, bus := .held, txstate := .slaveAddrReadAck, dev := { idleDevice m with ptr := c } }

/-- Before INIT, TC-P. -/
def coldPar : State := { par 0 [] with phase := .uninit, ctr := none, lines := noLines }

/-- Before INIT, TC-I. -/
def coldBus : State := { bus 0 [] [] with phase := .uninit, ctr := none }

/-- After INIT only: the counter is unset. -/
def unsetPar : State := { par 0 [] with ctr := none }

/-- TC-P with the small SDP device. -/
def parSdp (l : Latch) : State := { par 0 [] with cfg := tcS, hwctr := 0, dev := { idleDevice [] with latch := l } }

/-- A state with a caller's stream. -/
def asked (s : State) (bytes : List Byte) : State := { s with stream := bytes }

/-- The same state with its device busy. -/
def busy (s : State) : State := { s with dev := { s.dev with busy := true } }

/-- The same state with bad holds. -/
def badHold (s : State) : State := { s with cfg := { s.cfg with holdOk := false } }

/-- The same state with a write delay the device finds too short. -/
def shortDelay (s : State) : State := { s with wdelay := 4 }

/-- seq(v): 64 bytes from v upward. -/
def seqPage (v : Nat) : List Byte := (List.range 64).map fun i => BitVec.ofNat 8 (v + i)

/-- fill(b): 64 times b. -/
def fillPage (b : Byte) : List Byte := List.replicate 64 b

/-- The next state of an answer. -/
def after (a : Answer) : Option State :=
  match a with
  | .next t => some t
  | .fault _ => none
  | .refused _ => none

/-! ## WellFormed -/

/-- An ill-formed page (63 bytes) is refused by the check, a page of 64 bytes is not (10_state.md rule R35). -/
theorem test_wellFormed_page : (Instr.writePage (List.replicate 63 0)).wellFormed = false ∧
    (Instr.writePage (List.replicate 65 0)).wellFormed = false ∧ (Instr.writePage (fillPage 0)).wellFormed = true := by decide

/-- An ill-formed page reaches no meaning: exec refuses it as a short operand block (rule R91; log 31). -/
theorem test_wellFormed_exec : after (exec (.writePage (List.replicate 63 0)) (par 0 [])) =
    some (marked (par 0 []) (.refused (.reserved .shortPage))) := by decide

/-! ## Decoding: words written out from 30_encoding.md -/

theorem test_decode_reset : decode [0x01, 0x00, 0x00, 0x00] = (.ok .reset, []) := by decide
theorem test_decode_advance : decode [0x02, 0x12, 0x34, 0x56] = (.ok (.advance 0x123456), []) := by decide
theorem test_decode_getcount : decode [0x03, 0x00, 0x00, 0x00] = (.ok .getcount, []) := by decide
theorem test_decode_init : decode [0x10, 0x00, 0x00, 0x00] = (.ok .init, []) := by decide
theorem test_decode_resetMemory : decode [0x11, 0x00, 0x00, 0x00] = (.ok .resetMemory, []) := by decide
theorem test_decode_startSeqRead : decode [0x12, 0x00, 0x00, 0x00] = (.ok .startSeqRead, []) := by decide
theorem test_decode_nextByte : decode [0x13, 0x00, 0x00, 0x01] = (.ok (.nextByte true), []) := by decide
theorem test_decode_writeByte : decode [0x14, 0x00, 0x00, 0x5A] = (.ok (.writeByte 0x5A), []) := by decide
theorem test_decode_writePage : decode ([0x15, 0x00, 0x00, 0x00] ++ seqPage 0 ++ [0x99]) = (.ok (.writePage (seqPage 0)), [0x99]) :=
  by decide
theorem test_decode_lastFailure : decode [0x16, 0x00, 0x00, 0x00] = (.ok .lastFailure, []) := by decide
theorem test_decode_setWriteDelay : decode [0x17, 0x00, 0x00, 0x0A] = (.ok (.setWriteDelay 10), []) := by decide
theorem test_decode_sdpEnable : decode [0x18, 0x00, 0x00, 0x00] = (.ok .sdpEnable, []) := by decide
theorem test_decode_sdpDisable : decode [0x19, 0x00, 0x00, 0x00] = (.ok .sdpDisable, []) := by decide
theorem test_decode_pIdle : decode [0x40, 0x00, 0x00, 0x00] = (.ok .pIdle, []) := by decide
theorem test_decode_pClkPulse : decode [0x41, 0x00, 0x00, 0x00] = (.ok .pClkPulse, []) := by decide
theorem test_decode_pRstPulse : decode [0x42, 0x00, 0x00, 0x00] = (.ok .pRstPulse, []) := by decide
theorem test_decode_pReadStrobe : decode [0x43, 0x00, 0x00, 0x00] = (.ok .pReadStrobe, []) := by decide
theorem test_decode_pWriteStrobe : decode [0x44, 0x00, 0x00, 0xC3] = (.ok (.pWriteStrobe 0xC3), []) := by decide
theorem test_decode_pSelect : decode [0x45, 0x00, 0x00, 0x01] = (.ok (.pSelect true), []) := by decide
theorem test_decode_iStart : decode [0x60, 0x00, 0x00, 0x00] = (.ok .iStart, []) := by decide
theorem test_decode_iRepStart : decode [0x61, 0x00, 0x00, 0x00] = (.ok .iRepStart, []) := by decide
theorem test_decode_iStop : decode [0x62, 0x00, 0x00, 0x00] = (.ok .iStop, []) := by decide
theorem test_decode_iTx : decode [0x63, 0x00, 0x02, 0x40] = (.ok (.iTx .addrLo 0x40), []) := by decide
theorem test_decode_iTx_slaR : decode [0x63, 0x00, 0x04, 0xA1] = (.ok (.iTx .slaR 0xA1), []) := by decide
theorem test_decode_iRxAck : decode [0x64, 0x00, 0x00, 0x00] = (.ok .iRxAck, []) := by decide
theorem test_decode_iRxNack : decode [0x65, 0x00, 0x00, 0x00] = (.ok .iRxNack, []) := by decide
theorem test_decode_delay : decode [0x70, 0x01, 0x00, 0x10] = (.ok (.delay 0x010010), []) := by decide

/-- V505, V507 to V510, V514, V517, V522: the words that do not decode, by reason; and a WRITE_PAGE with a reserved bit, which
takes its 64 bytes with it (rule R92). -/
theorem test_decode_reserved :
    decode [0x14, 0x00, 0x01, 0x00] = (.error .reservedBits, []) ∧ decode [0x13, 0x00, 0x00, 0x02] = (.error .reservedBits, []) ∧
    decode [0x01, 0x00, 0x00, 0x01] = (.error .reservedBits, []) ∧ decode [0x00, 0x00, 0x00, 0x00] = (.error .reservedOpcode, []) ∧
    decode [0x1A, 0x00, 0x00, 0x00] = (.error .reservedOpcode, []) ∧ decode [0x63, 0x00, 0x05, 0xA0] = (.error .reservedRole, []) ∧
    decode ([0x15, 0x00, 0x00, 0x00] ++ List.replicate 10 0) = (.error .shortPage, []) ∧
    decode ([0x15, 0x00, 0x00, 0x01] ++ seqPage 0 ++ [0x99]) = (.error .reservedBits, [0x99]) ∧
    decode [0x80, 0x00, 0x00, 0x00] = (.error .reservedOpcode, []) := by decide

/-- A table row's bits: a reserved row gives no instruction, ADVANCE 10 does. -/
theorem test_decodeTableWord : decodeTableWord 32 0x0200000A = some (.advance 10) ∧ decodeTableWord 32 0x1A000000 = none ∧
    decodeTableWord 32 0x15000000 = some (.writePage (fillPage 0)) := by decide

/-! ## One step each -/

/-- V511, V514: a caller's micro-operation opcode is refused with REFUSE_INTERNAL, before its reserved role is looked at. -/
theorem test_step_internal : after (step (asked (par 0 []) [0x63, 0x00, 0x05, 0xA0, 0x03])) =
    some (marked (asked (par 0 []) [0x03]) (.refused .internal)) := by decide

/-- The request is taken from the stream and the rest of it stays. -/
theorem test_step_runs : after (step (asked (par 0 []) [0x02, 0x00, 0x00, 0x02, 0x03, 0x00, 0x00, 0x00])) =
    some { par 2 [] with stream := [0x03, 0x00, 0x00, 0x00], trace := [.pClkPulse, .pClkPulse], result := some .unit } := by decide

/-- L1.3: RESET from 37 sets the counter and the hardware counter to 0 with one reset pulse. -/
theorem test_reset_parallel : after (exec .reset (par 37 [])) =
    some { par 0 [] with trace := [.pRstPulse], result := some .unit } := by decide

/-- L1.3: RESET with a burst open on I2C leaves the burst and the device's pointer. -/
theorem test_reset_i2c : after (exec .reset (busBurst 5 [] [])) =
    some { busBurst 5 [] [] with ctr := some 0, result := some .unit } := by decide

/-- V104: an advance to CAPACITY is allowed; the hardware counter of 15 bits wraps to 0. -/
theorem test_advance_boundary : after (exec (.advance 8) (par 32760 [])) =
    some { par 32768 [] with hwctr := 0, trace := List.replicate 8 .pClkPulse, result := some .unit } := by decide

/-- V105: one more faults and changes nothing else. -/
theorem test_advance_overflow : after (exec (.advance 9) (par 32760 [])) =
    some (marked (par 32760 []) (.fault (.overflow 32760 9))) := by decide

/-- V110: GETCOUNT returns the counter. -/
theorem test_getcount : after (exec .getcount (par 10 [])) =
    some { par 10 [] with result := some (.count 10) } := by decide

/-- V111: GETCOUNT before INIT faults for the unset counter. -/
theorem test_getcount_unset : after (exec .getcount coldPar) =
    some (marked coldPar (.fault .counterUnset)) := by decide

/-- V201: INIT on TC-P leaves the counter unset. -/
theorem test_init : after (exec .init coldPar) =
    some { unsetPar with trace := [.pIdle], result := some .unit } := by decide

/-- V202: a second INIT faults. -/
theorem test_init_twice : after (exec .init (par 0 [])) =
    some (marked (par 0 []) (.fault .reinit)) := by decide

/-- V210: RESET_MEMORY ends a burst on I2C with a STOP. -/
theorem test_resetMemory : after (exec .resetMemory (busBurst 3 [] [])) =
    some { busBurst 3 [] [] with burst := .none, bus := .idle, txstate := .idle, trace := [.iStop .stop], result := some .unit } := by decide

/-- V401: the six events of START_SEQ_READ at 0x0140. -/
theorem test_startSeqRead_trace : (issue .startSeqRead (bus 0x0140 [] [])).trace =
    [.iStart 0x08 .start, .iTx .slaW 0xA0 0x18 .slaveAddrAck, .iTx .addrHi 0x01 0x28 .hiAddrByteAck,
     .iTx .addrLo 0x40 0x28 .loAddrByteAck, .iRepStart 0x10 .repeatedStart, .iTx .slaR 0xA1 0x40 .slaveAddrReadAck] := by decide

/-- L1.9: no answer to the address byte. -/
theorem test_startSeqRead_noResponse : after (exec .startSeqRead (bus 0x0100 [] [none, some 0x20])) =
    some { bus 0x0100 [] [] with status := some 0x20, result := some (.flag false),
                                 trace := [.iStart 0x08 .start, .iTx .slaW 0xA0 0x20 .slaveAddrAck, .iStop .stop] } := by decide

/-- V304: the last byte of a parallel burst deselects the device. -/
theorem test_nextByte_parallel : (issue (.nextByte true) (parBurst 5 [(5, 0x42)])).result = some (.byteFlag 0x42 true) ∧
    (issue (.nextByte true) (parBurst 5 [(5, 0x42)])).trace = [.pReadStrobe 0x42, .pSelect false] ∧
    (issue (.nextByte true) (parBurst 5 [(5, 0x42)])).lines = idleLines ∧
    (issue (.nextByte true) (parBurst 5 [(5, 0x42)])).burst = .none := by decide

/-- V415: the I2C device's pointer wraps at CAPACITY. -/
theorem test_nextByte_wraps : (issue (.nextByte false) (busBurst 32767 [(0, 0xBB), (32767, 0xAA)] [])).result =
      some (.byteFlag 0xAA true) ∧
    (issue (.nextByte true) (issue (.nextByte false) (busBurst 32767 [(0, 0xBB), (32767, 0xAA)] []))).result =
      some (.byteFlag 0xBB true) := by decide

/-- V404: the seven events of a WRITE_BYTE on I2C, and its byte. -/
theorem test_writeByte_i2c : (issue (.writeByte 0x5A) (bus 3 [] [])).dev.mem = [(3, 0x5A)] ∧
    (issue (.writeByte 0x5A) (bus 3 [] [])).status = some 0x28 ∧
    (issue (.writeByte 0x5A) (bus 3 [] [])).trace =
      [.iStart 0x08 .start, .iTx .slaW 0xA0 0x18 .slaveAddrAck, .iTx .addrHi 0x00 0x28 .hiAddrByteAck,
       .iTx .addrLo 0x03 0x28 .loAddrByteAck, .iTx .data 0x5A 0x28 .dataByteAck, .iStop .stop, .delay 10] := by decide

/-- V219: with a delay that is too short the parallel write returns true and the device stays busy. -/
theorem test_writeByte_shortDelay : (issue (.writeByte 0x5A) (shortDelay (par 3 []))).result = some (.flag true) ∧
    (issue (.writeByte 0x5A) (shortDelay (par 3 []))).dev.busy = true ∧
    (issue (.writeByte 0x5A) (shortDelay (par 3 []))).trace = [.pWriteStrobe 0x5A, .delay 4] := by decide

/-- V213: the last page of the device, 129 events. -/
theorem test_writePage_last : (issue (.writePage (fillPage 0x5A)) (par 32704 [])).ctr = some 32768 ∧
    (issue (.writePage (fillPage 0x5A)) (par 32704 [])).trace.length = 129 ∧
    memAt (issue (.writePage (fillPage 0x5A)) (par 32704 [])) 32704 = 0x5A ∧
    memAt (issue (.writePage (fillPage 0x5A)) (par 32704 [])) 32767 = 0x5A := by decide +kernel

/-- V406: data byte 10 is not acknowledged: the counter stands at 0x4A, the device is busy, no DELAY. -/
theorem test_writePage_partial :
    (issue (.writePage (seqPage 0)) (bus 0x40 [] (List.replicate 14 none ++ [some 0x30]))).ctr = some 0x4A ∧
    (issue (.writePage (seqPage 0)) (bus 0x40 [] (List.replicate 14 none ++ [some 0x30]))).status = some 0x30 ∧
    (issue (.writePage (seqPage 0)) (bus 0x40 [] (List.replicate 14 none ++ [some 0x30]))).dev.busy = true ∧
    (issue (.writePage (seqPage 0)) (bus 0x40 [] (List.replicate 14 none ++ [some 0x30]))).trace.length = 16 := by decide +kernel

/-- L1.8: LAST_FAILURE after a misaligned page write returns the sentinel. -/
theorem test_lastFailure : (issue .lastFailure (issue (.writePage (fillPage 0xAB)) (par 10 []))).result = some (.byte 0xFF) := by
  decide

/-- V203: SET_WRITE_DELAY before INIT. -/
theorem test_setWriteDelay : after (exec (.setWriteDelay 10) { coldBus with wdelay := 0 }) =
    some { coldBus with wdelay := 10, result := some .unit } := by decide

/-- SDP_ENABLE locks a device that has a latch, and ends at its last offset (rule R171). -/
theorem test_sdpEnable : (issue .sdpEnable (parSdp .unlocked)).dev.latch = .locked ∧
    (issue .sdpEnable (parSdp .unlocked)).ctr = some 63 ∧ (issue .sdpEnable (parSdp .unlocked)).hwctr = 63 := by decide +kernel

/-- V311: SDP_ENABLE without the feature. -/
theorem test_sdpEnable_absent : after (exec .sdpEnable { par 0 [] with cfg := { tcP with sdpPresent := false } }) =
    some (marked { par 0 [] with cfg := { tcP with sdpPresent := false } } (.refused .backend)) := by decide

/-- As V309 on the small device: unlocked, with 6 * 2 + 19 + 1 events. -/
theorem test_sdpDisable : (issue .sdpDisable (parSdp .locked)).dev.latch = .unlocked ∧
    (issue .sdpDisable (parSdp .locked)).trace.length = 32 ∧ (issue .sdpDisable (parSdp .locked)).status = none := by decide +kernel

/-- V310: an offset at CAPACITY faults before any step. -/
theorem test_sdpDisable_offset : after (exec .sdpDisable { par 0 [] with cfg := { tcP with capacity := 16384 } }) =
    some (marked { par 0 [] with cfg := { tcP with capacity := 16384 } } (.fault (.overflow 0 21845))) := by decide

/-- Rule R154. -/
theorem test_pIdle : (issue .pIdle { coldPar with dbusDir := .output }).lines = idleLines ∧
    (issue .pIdle { coldPar with dbusDir := .output }).dbusDir = .input := by decide

/-- Rule R152: the hardware counter wraps at 2^CTR_BITS. -/
theorem test_pClkPulse : (issue .pClkPulse (par 32767 [])).hwctr = 0 ∧ (issue .pClkPulse (par 32767 [])).ctr = some 32767 := by
  decide

/-- Rule R151: the pulse resets the hardware counter, not the counter. -/
theorem test_pRstPulse : (issue .pRstPulse (par 9 [])).hwctr = 0 ∧ (issue .pRstPulse (par 9 [])).ctr = some 9 := by decide

/-- Rule R156. -/
theorem test_pReadStrobe : after (exec .pReadStrobe (parBurst 5 [(5, 0x42)])) =
    some { parBurst 5 [(5, 0x42)] with trace := [.pReadStrobe 0x42], result := some (.byte 0x42) } := by decide

/-- Rule R157 and rule R62: the strobe loads the device and memory is as before until the DELAY. -/
theorem test_pWriteStrobe : after (exec (.pWriteStrobe 0x77) (par 6 [])) =
    some { par 6 [] with dbusOut := 0x77, trace := [.pWriteStrobe 0x77], result := some .unit,
                         dev := { idleDevice [] with pending := [(6, 0x77)] } } := by decide

/-- Rule R155. -/
theorem test_pSelect : (issue (.pSelect true) (par 0 [])).lines = { idleLines with ce := .asserted } ∧
    (issue (.pSelect false) (parBurst 0 [])).lines = idleLines := by decide

/-- V410, V411: the raw status is masked: 0x0A matches, 0xFF gives 0xF8. -/
theorem test_iStart : (issue .iStart (bus 0 [] [some 0x0A])).result = some (.byte 0x08) ∧
    (issue .iStart (bus 0 [] [some 0x0A])).txstate = .start ∧
    (issue .iStart (bus 0 [] [some 0xFF])).result = some (.byte 0xF8) ∧
    (issue .iStart (bus 0 [] [some 0xFF])).txstate = .idle := by decide

/-- Rule R196. -/
theorem test_iRepStart : (issue .iRepStart (busBurst 0 [] [none])).result = some (.byte 0x10) ∧
    (issue .iRepStart (busBurst 0 [] [none])).txstate = .repeatedStart := by decide

/-- Rule R197. -/
theorem test_iStop : after (exec .iStop (busBurst 0 [] [])) =
    some { busBurst 0 [] [] with bus := .idle, txstate := .idle, trace := [.iStop .stop], result := some .unit } := by decide

/-- Rules R198 and R65: the address-low step sets the pointer from both bytes. -/
theorem test_iTx_address : (issue (.iTx .addrLo 0x40) (issue (.iTx .addrHi 0x01) (bus 0 [] []))).dev.ptr = 0x0140 := by decide

/-- Rules R198 and R65: the pointer stays within its page. -/
theorem test_iTx_data : (issue (.iTx .data 0x5A) (busBurst 127 [] [])).dev.ptr = 64 ∧
    (issue (.iTx .data 0x5A) (busBurst 127 [] [])).dev.pending = [(127, 0x5A)] := by decide

/-- L1.4: ACK and the code 0x50. -/
theorem test_iRxAck : after (exec .iRxAck (busBurst 0 [(0, 0x01)] [])) =
    some { busBurst 0 [(0, 0x01)] [] with txstate := .dataByteAck, dev := { idleDevice [(0, 0x01)] with ptr := 1 },
                                           trace := [.iRxAck 0x01 0x50 .dataByteAck], result := some (.byteCode 0x01 0x50) } := by decide

/-- L1.4: NACK and the code 0x58. -/
theorem test_iRxNack : after (exec .iRxNack (busBurst 2 [(2, 0x03)] [])) =
    some { busBurst 2 [(2, 0x03)] [] with txstate := .dataByteNack, dev := { idleDevice [(2, 0x03)] with ptr := 3 },
                                           trace := [.iRxNack 0x03 0x58 .dataByteNack], result := some (.byteCode 0x03 0x58) } := by decide

/-- Rule R63: a good DELAY commits the pending write and ends the cycle. -/
theorem test_delay : after (exec (.delay 10) { par 6 [] with dev := { idleDevice [] with pending := [(6, 0x77)] } }) =
    some { par 6 [] with dev := idleDevice [(6, 0x77)], trace := [.delay 10], result := some .unit } := by decide

/-- Rules R59 and R67: a read step whose code does not match steps the device's pointer all the same. -/
theorem test_iRxAck_mismatch : (issue .iRxAck (busBurst 5 [] [some 0x00])).dev.ptr = 6 ∧
    (issue .iRxAck (busBurst 5 [] [some 0x00])).txstate = .slaveAddrReadAck := by decide

/-- Rules R295, R300: the memory survives a power cycle, the counter and the phase do not. -/
theorem test_powerCycle : (par 6 [(3, 0x5A)]).powerCycle.dev.mem = [(3, 0x5A)] ∧ (par 6 [(3, 0x5A)]).powerCycle.ctr = none ∧
    (par 6 [(3, 0x5A)]).powerCycle.phase = .uninit := by decide

/-- Rule R153: with an active-low CE and an active-high CLK a burst holds CE low and CLK low. -/
theorem test_lineLevel : lineLevel (parBurst 0 []) .ce = some .low ∧ lineLevel (parBurst 0 []) .clk = some .low ∧
    lineLevel (par 0 []) .ce = some .high ∧ lineLevel coldPar .ce = none := by decide

/-! ## The command layer and the uploader -/

/-- Rule R246: `dumphex 0` sends nothing before its `Done`. -/
theorem test_command_dumphex_none : linkBytes (runLine ['d', 'u', 'm', 'p', 'h', 'e', 'x', ' ', '0', '\r'] [] (par 10 [])) =
    textBytes ['D', 'o', 'n', 'e', '\r', '\n'] := by decide

/-- Rules R255 to R257: a one-byte raw dump succeeds; with a link that fails within a reply or the byte stream it is a short read,
exit 1; a device without a counter is silent, which the host waits on. -/
theorem test_uploader_link : (rawDump 1 3 ⟨[], .whole⟩ (par 0 [(3, 0x5A)])).1 = .success ∧
    (rawDump 1 3 ⟨[], .whole⟩ (par 0 [(3, 0x5A)])).2.1 = [0x5A] ∧
    (rawDump 1 3 ⟨List.replicate 12 true, .failed⟩ (par 0 [(3, 0x5A)])).1 = .linkFailure ∧
    (rawDump 1 3 ⟨List.replicate 3 true, .failed⟩ (par 0 [(3, 0x5A)])).1 = .linkFailure ∧
    (rawDump 1 3 ⟨List.replicate 100 true, .failed⟩ coldPar).1 = .hang ∧
    exitCode .linkFailure = some 1 ∧ exitCode .hang = none := by decide

/-- Rule R320: a lost reply hangs the host, lost on its own or on a link that falls silent; a raw byte lost on a silent link too. -/
theorem test_uploader_lostReply : (rawDump 1 3 ⟨List.replicate 6 false, .whole⟩ (par 0 [(3, 0x5A)])).1 = .hang ∧
    (rawDump 1 3 ⟨[], .silent⟩ (par 0 [(3, 0x5A)])).1 = .hang ∧
    (rawDump 1 3 ⟨List.replicate 12 true, .silent⟩ (par 0 [(3, 0x5A)])).1 = .hang := by decide

/-- V603: `getcount` replies the number, then `Done`. -/
theorem test_command_getcount : linkBytes (runLine ['g', 'e', 't', 'c', 'o', 'u', 'n', 't', '\r'] [] (par 10 [])) =
    textBytes ['1', '0', '\r', '\n', 'D', 'o', 'n', 'e', '\r', '\n'] := by decide

/-- V604 to V607: the lines without a command. -/
theorem test_command_errors : parseLine tcP ['c', 'l', 'o', 'c', 'k', ' ', '1', '6', '7', '7', '7', '2', '1', '6', '\r'] = none ∧
    parseLine tcP ['c', 'l', 'o', 'c', 'k', ' ', 'a', 'b', 'c', '\r'] = none ∧ parseLine tcP ['c', 'l', 'o', 'c', 'k', '\r'] = none ∧
    parseLine tcP ['f', 'r', 'o', 'b', '\r'] = none := by decide

/-- V609: `dumpraw 3`. -/
theorem test_command_dumpraw : (runCommand (.dumpraw 3) [] (par 0 [(0, 1), (1, 2), (2, 3)])).output = .raw [1, 2, 3] ∧
    (runCommand (.dumpraw 3) [] (par 0 [(0, 1), (1, 2), (2, 3)])).state.ctr = some 3 := by decide

/-- L1.5: the block counts of an upload. -/
theorem test_uploader_blocks : (fileBlocks []).length = 0 ∧ (fileBlocks [1]).length = 1 ∧
    (fileBlocks (List.replicate 64 1)).length = 1 ∧ (fileBlocks (List.replicate 65 1)).length = 2 := by decide

/-! ## Witnesses: states and operands that meet the hypotheses of the statements, clause by clause, at boundary values -/

/-- An operation answers the state that `issue` names. -/
theorem exec_issue (i : Instr) (s : State) (h : (after (exec i s)).isSome = true) : exec i s = .next (issue i s) := by
  unfold issue
  cases e : exec i s with
  | next t => rfl
  | fault r => simp [e, after] at h
  | refused r => simp [e, after] at h

/-- The invariant between parallel operations. -/
theorem witness_inv_par (c : Nat) (h : c ≤ 32768) : Inv (par c []) where
  config := show configOk tcP = true by decide
  origin := rfl
  ctrBound := by intro d e; cases e; exact h
  uninit := by intro e; cases e
  memWf := rfl
  memBelow := by intro d e; cases e
  pending := rfl
  ptr := show 0 < 32768 by decide
  parallel := fun _ => ⟨(by intro d e; cases e; rfl), Nat.mod_lt c (by decide), (by intro e; cases e), fun _ => ⟨rfl, rfl⟩, rfl, rfl⟩
  i2c := by intro e; cases e

/-- The invariant between I2C operations, for every script. -/
theorem witness_inv_bus (c : Nat) (l : List (Option Byte)) (h : c ≤ 32768) : Inv (bus c [] l) where
  config := show configOk tcI = true by decide
  origin := rfl
  ctrBound := by intro d e; cases e; exact h
  uninit := by intro e; cases e
  memWf := rfl
  memBelow := by intro d e; cases e
  pending := rfl
  ptr := show 0 < 32768 by decide
  parallel := by intro e; cases e
  i2c := fun _ => ⟨fun _ => ⟨rfl, rfl⟩, (by intro e; cases e), rfl, rfl⟩

/-- The invariant with a parallel burst open. -/
theorem witness_inv_parBurst (c : Nat) (h : c ≤ 32768) : Inv (parBurst c []) where
  config := show configOk tcP = true by decide
  origin := rfl
  ctrBound := by intro d e; cases e; exact h
  uninit := by intro e; cases e
  memWf := rfl
  memBelow := by intro d e; cases e
  pending := rfl
  ptr := show 0 < 32768 by decide
  parallel := fun _ => ⟨(by intro d e; cases e; rfl), Nat.mod_lt c (by decide), (by intro e; cases e), fun _ => ⟨rfl, rfl⟩, rfl, rfl⟩
  i2c := by intro e; cases e

/-- The invariant with an I2C burst open. -/
theorem witness_inv_busBurst (c : Nat) (l : List (Option Byte)) (h : c < 32768) : Inv (busBurst c [] l) where
  config := show configOk tcI = true by decide
  origin := rfl
  ctrBound := by intro d e; cases e; exact Nat.le_of_lt h
  uninit := by intro e; cases e
  memWf := rfl
  memBelow := by intro d e; cases e
  pending := rfl
  ptr := h
  parallel := by intro e; cases e
  i2c := fun _ => ⟨(by intro e; cases e), fun _ => ⟨rfl, .inl rfl⟩, rfl, rfl⟩

/-! ### Requests, decoding and the step -/

theorem witness_DecodeOfEncode : (Instr.writePage (fillPage 0)).wellFormed = true ∧ Instr.reset.wellFormed = true := by decide

theorem witness_DecodedBytesAreTheEncoding : decode [0x02, 0x00, 0x00, 0x0A, 0x99] = (.ok (.advance 10), [0x99]) := by decide

theorem witness_StepRunsTheDecodedInstruction :
    (decode (asked (par 0 []) [0x03, 0x00, 0x00, 0x00]).stream = (.ok .getcount, []) ∧ Instr.getcount.isMicro = false) ∧
    (let s := { asked (par 0 []) [0x40, 0x00, 0x00, 0x00] with origin := .block }
     decode s.stream = (.ok .pIdle, []) ∧ s.origin = .block) := by decide

theorem witness_CallerCannotIssueMicroOperations :
    (let s := asked (par 0 []) [0x40, 0x00, 0x00, 0x00, 0x03]
     s.stream = 0x40 :: 0x00 :: 0x00 :: 0x00 :: [0x03] ∧ s.origin = .caller ∧ 0x40 ≤ (0x40 : Byte).toNat ∧
       (0x40 : Byte).toNat ≤ 0x7F) ∧
    (let s := asked coldBus [0x7F, 0x12, 0x34, 0x56]
     s.stream = 0x7F :: 0x12 :: 0x34 :: 0x56 :: [] ∧ s.origin = .caller ∧ 0x40 ≤ (0x7F : Byte).toNat ∧
       (0x7F : Byte).toNat ≤ 0x7F) := by decide

/-- The opcodes next to the internal range, opcode 0, a reserved bit, a short page. -/
theorem witness_UndecodableRequestIsRefused :
    decode (asked (par 0 []) [0x00, 0x00, 0x00, 0x00, 0x03]).stream = (.error .reservedOpcode, [0x03]) ∧
    (decode (asked (par 0 []) [0x3F, 0x00, 0x00, 0x00]).stream = (.error .reservedOpcode, []) ∧
      ¬ (0x40 ≤ (0x3F : Byte).toNat ∧ (0x3F : Byte).toNat ≤ 0x7F)) ∧
    (decode (asked (par 0 []) [0x80, 0x00, 0x00, 0x00]).stream = (.error .reservedOpcode, []) ∧
      ¬ (0x40 ≤ (0x80 : Byte).toNat ∧ (0x80 : Byte).toNat ≤ 0x7F)) ∧
    decode (asked (par 0 []) [0x13, 0x00, 0x00, 0x02]).stream = (.error .reservedBits, []) ∧
    decode (asked (par 0 []) ([0x15, 0x00, 0x00, 0x00] ++ List.replicate 63 0)).stream = (.error .shortPage, []) ∧
    decode (asked (par 0 []) ([0x15, 0x00, 0x00, 0x01] ++ List.replicate 64 0 ++ [0x03])).stream =
      (.error .reservedBits, [0x03]) := by decide

/-! ### Power-on and gating -/

theorem witness_PhaseGating_uninit : coldPar.phase = .uninit ∧ coldPar.cfg.backend = .parallel ∧ coldPar.cfg.sdpPresent = true ∧
    (fillPage 0).length = 64 ∧ coldBus.phase = .uninit ∧ (par 0 []).phase = .ready := by decide

theorem witness_PhaseGating_allowed :
    (Instr.getcount ∈ [Instr.init, .lastFailure, .getcount] ∧ coldBus.phase = .uninit ∧
      exec .getcount coldBus = .next (issue .getcount coldBus)) ∧
    (∃ d, Instr.setWriteDelay 10 = .setWriteDelay d) ∧ exec (.setWriteDelay 10) coldBus = .next (issue (.setWriteDelay 10) coldBus) ∧
    (Instr.reset ≠ .init ∧ (par 0 []).phase = .ready ∧ exec .reset (par 0 []) = .next (issue .reset (par 0 []))) :=
  ⟨⟨by decide, rfl, exec_issue _ _ rfl⟩, ⟨10, rfl⟩, exec_issue _ _ rfl, by decide, rfl, exec_issue _ _ rfl⟩

theorem witness_BurstGating : (parBurst 5 []).phase = .ready ∧ (parBurst 5 []).burst = .opened ∧
    (parBurst 5 []).cfg.backend = .parallel ∧ (parBurst 5 []).cfg.sdpPresent = true ∧ (busBurst 5 [] []).burst = .opened ∧
    (bus 5 [] []).phase = .ready ∧ (bus 5 [] []).burst = .none := by decide

theorem witness_BurstGating_allowed :
    (Instr.reset ∈ [Instr.reset, .getcount, .lastFailure, .resetMemory] ∧
      exec .reset (busBurst 5 [] []) = .next (issue .reset (busBurst 5 [] []))) ∧
    (∃ n, Instr.advance 1 = .advance n) ∧ exec (.advance 1) (parBurst 5 []) = .next (issue (.advance 1) (parBurst 5 [])) ∧
    (∃ d, Instr.setWriteDelay 0 = .setWriteDelay d) ∧
    exec (.setWriteDelay 0) (parBurst 5 []) = .next (issue (.setWriteDelay 0) (parBurst 5 [])) ∧
    ((busBurst 5 [] []).phase = .ready ∧ exec .resetMemory (busBurst 5 [] []) = .next (issue .resetMemory (busBurst 5 [] []))) :=
  ⟨⟨by decide, exec_issue _ _ rfl⟩, ⟨1, rfl⟩, exec_issue _ _ rfl, ⟨0, rfl⟩, exec_issue _ _ rfl, rfl, exec_issue _ _ rfl⟩

/-! ### The address counter -/

theorem witness_ResetSetsTheCounterToZero : coldPar.phase = .uninit ∧
    ((par 32768 []).phase = .ready ∧ (par 32768 []).cfg.backend = .parallel) ∧
    ((bus 0 [] []).phase = .ready ∧ (bus 0 [] []).cfg.backend = .i2c) := by decide

theorem witness_AdvanceAddsToTheCounter : coldPar.phase = .uninit ∧ (unsetPar.phase = .ready ∧ unsetPar.ctr = none) ∧
    ((par 32760 []).ctr = some 32760 ∧ (par 32760 []).cfg.capacity < 32760 + (9 : BitVec 24).toNat) ∧
    ((par 32768 []).ctr = some 32768 ∧ (par 32768 []).cfg.capacity < 32768 + (1 : BitVec 24).toNat) ∧
    (32760 + (8 : BitVec 24).toNat ≤ (par 32760 []).cfg.capacity ∧ (par 32760 []).cfg.backend = .parallel) ∧
    (32768 + (0 : BitVec 24).toNat ≤ (par 32768 []).cfg.capacity) ∧
    ((bus 0 [] []).phase = .ready ∧ (bus 0 [] []).ctr = some 0 ∧ 0 + (32768 : BitVec 24).toNat ≤ (bus 0 [] []).cfg.capacity ∧
      (bus 0 [] []).cfg.backend = .i2c) := by decide

theorem witness_GetcountReturnsTheCounter : unsetPar.ctr = none ∧ (bus 32768 [] []).ctr = some 32768 := by decide

/-- A step that raises the counter, and one that faults. -/
theorem witness_CounterIsMonotone :
    ((Instr.advance 8 ≠ .reset ∧ Instr.advance 8 ≠ .sdpEnable ∧ Instr.advance 8 ≠ .sdpDisable ∧ (par 32760 []).ctr = some 32760) ∧
      exec (.advance 8) (par 32760 []) = .next (issue (.advance 8) (par 32760 []))) ∧
    exec (.advance 9) (par 32760 []) = .next (issue (.advance 9) (par 32760 [])) :=
  ⟨⟨by decide, exec_issue _ _ rfl⟩, exec_issue _ _ rfl⟩

theorem witness_AccessNeedsACounterBelowCapacity :
    (AtCounter (par 32768 []) 32768 ∧ (par 32768 []).cfg.capacity ≤ 32768 ∧ (fillPage 0).length = 64 ∧ 32768 % 64 = 0) ∧
    (AtCounter (bus 32768 [] []) 32768 ∧ (bus 32768 [] []).cfg.capacity ≤ 32768) ∧
    ((parBurst 32768 []).cfg.backend = .parallel ∧ (parBurst 32768 []).phase = .ready ∧ (parBurst 32768 []).burst = .opened ∧
      (parBurst 32768 []).ctr = some 32768 ∧ (parBurst 32768 []).cfg.capacity ≤ 32768) ∧
    (unsetPar.phase = .ready ∧ unsetPar.burst = .none ∧ unsetPar.ctr = none) ∧
    (let s := { parBurst 0 [] with ctr := none }
     s.cfg.backend = .parallel ∧ s.phase = .ready ∧ s.burst = .opened ∧ s.ctr = none) := by decide

/-! ### Control operations -/

theorem witness_InitMakesTheBlockReady : (par 0 []).phase = .ready ∧ (coldPar.phase = .uninit ∧ coldPar.cfg.backend = .parallel) ∧
    (coldBus.phase = .uninit ∧ coldBus.cfg.backend = .i2c) := by decide

theorem witness_ResetMemoryIdlesLinesAndBus : coldPar.phase = .uninit ∧
    ((parBurst 0 []).phase = .ready ∧ (parBurst 0 []).cfg.backend = .parallel) ∧
    ((busBurst 0 [] []).phase = .ready ∧ (busBurst 0 [] []).cfg.backend = .i2c ∧ (busBurst 0 [] []).dev.pending = []) := by decide

theorem witness_LastFailureReturnsTheStatus : ({ par 0 [] with status := some 0xFF }).status = some 0xFF ∧
    (par 0 []).status = none := by decide

/-- An idle device, a pending write, and an address the pending write does not hit. -/
theorem witness_DelayActsOnTheDeviceOnly : DeviceIdle (par 0 []) ∧
    (let s := { par 0 [] with dev := { idleDevice [] with pending := [(6, 0x77)] } }
     ¬ DeviceIdle s ∧ (∀ c ∈ s.dev.pending, c.1 ≠ 5) ∧ writeDelayOk s.cfg (9 : BitVec 24).toNat = false ∧
       (6, 0x77) ∈ s.dev.pending) := by decide

/-! ### Reading -/

theorem witness_ParallelReadBurstOpens : AtCounter (par 32767 []) 32767 ∧ 32767 < (par 32767 []).cfg.capacity ∧
    (par 32767 []).cfg.backend = .parallel := by decide

theorem witness_I2cReadBurstOpens : configOk (bus 32767 [] []).cfg = true ∧ AtCounter (bus 32767 [] []) 32767 ∧
    32767 < (bus 32767 [] []).cfg.capacity ∧ (bus 32767 [] []).cfg.backend = .i2c ∧ Cooperative (bus 32767 [] []) ∧
    Cooperative (bus 0 [] [none]) := by decide

/-- The first and the last step of each operation's list, the slave's address, and the last frame step of a page write. -/
theorem witness_MismatchStopsTheBus :
    (let s := bus 0 [] [none, some 0x20]
     configOk s.cfg = true ∧ AtCounter s 0 ∧ 0 < s.cfg.capacity ∧ s.cfg.backend = .i2c ∧ s.dev.pending = [] ∧
       s.oracle.script = none :: some 0x20 :: [] ∧ (0x20 : Byte) &&& s.cfg.statusMask ≠ s.cfg.expSlaWAck) ∧
    (let s := bus 32767 [] [some 0x00]
     configOk s.cfg = true ∧ AtCounter s 32767 ∧ 32767 < s.cfg.capacity ∧ s.cfg.backend = .i2c ∧ s.dev.pending = [] ∧
       s.oracle.script = List.replicate 0 none ++ some 0x00 :: [] ∧ (0x00 : Byte) &&& s.cfg.statusMask ≠ 0x08) ∧
    (readSteps tcI 32767)[0]? = some (0x08, fun x => .iStart x .start) ∧
    (writeByteSteps tcI 32767 1)[0]? = some (0x08, fun x => .iStart x .start) ∧
    (bus 0 [] [none, none, none, none, none, some 0x48]).oracle.script = List.replicate 5 none ++ some 0x48 :: [] ∧
    (readSteps tcI 0)[5]? = some (0x40, fun x => .iTx .slaR (tcI.devAddr7 ++ 1#1) x .slaveAddrReadAck) ∧
    (writeByteSteps tcI 0 1)[4]? = some (0x28, fun x => .iTx .data 1 x .dataByteAck) ∧
    (readSteps tcI 0)[3]? = some (0x28, fun x => .iTx .addrLo (BitVec.ofNat 8 (0 % 256)) x .loAddrByteAck) ∧
    ((0x48 : Byte) &&& tcI.statusMask ≠ 0x40 ∧ (fillPage 1).length = 64 ∧ 0 % 64 = 0) :=
  ⟨by decide, by decide, rfl, rfl, rfl, rfl, rfl, rfl, by decide⟩

/-- At the last address and at the first one, with the device idle, busy, loaded, and with bad holds. -/
theorem witness_ParallelNextByteReadsMemory :
    (let s := parBurst 32767 []
     s.phase = .ready ∧ s.burst = .opened ∧ s.ctr = some 32767 ∧ 32767 < s.cfg.capacity ∧ s.cfg.backend = .parallel ∧
       LinesBetween s ∧ DeviceIdle s ∧ s.cfg.holdOk = true) ∧
    (LinesBetween (busy (parBurst 0 [])) ∧ ¬ DeviceIdle (busy (parBurst 0 []))) ∧
    (LinesBetween (badHold (parBurst 0 [])) ∧ (badHold (parBurst 0 [])).cfg.holdOk = false) := by decide

theorem witness_I2cNextByteReadsMemory : let s := busBurst 32767 [] []
    configOk s.cfg = true ∧ s.phase = .ready ∧ s.burst = .opened ∧ s.cfg.backend = .i2c ∧ Cooperative s ∧ DeviceIdle s := by decide

/-- 0x58 is wrong before the last byte and 0x50 on it. -/
theorem witness_I2cNextByteMismatchAborts :
    (let s := busBurst 0 [] [some 0x58]
     s.phase = .ready ∧ s.burst = .opened ∧ s.cfg.backend = .i2c ∧ s.oracle.script = some 0x58 :: [] ∧
       (0x58 : Byte) &&& s.cfg.statusMask ≠ (if false then s.cfg.expRxNack else s.cfg.expRxAck)) ∧
    (let s := busBurst 0 [] [some 0x50]
     s.oracle.script = some 0x50 :: [] ∧
       (0x50 : Byte) &&& s.cfg.statusMask ≠ (if true then s.cfg.expRxNack else s.cfg.expRxAck)) := by decide

/-! ### Writing -/

theorem witness_MisalignedPageWriteFails : (fillPage 0).length = 64 ∧
    (AtCounter (par 1 []) 1 ∧ 1 % 64 ≠ 0) ∧ (AtCounter (bus 63 [] []) 63 ∧ 63 % 64 ≠ 0) ∧
    (AtCounter (bus 32767 [] []) 32767 ∧ 32767 % 64 ≠ 0) := by decide

theorem witness_ParallelWriteByteStores : let s := par 32767 []
    configOk s.cfg = true ∧ AtCounter s 32767 ∧ 32767 < s.cfg.capacity ∧ s.cfg.backend = .parallel ∧ DeviceIdle s ∧ Unlocked s ∧
      s.cfg.holdOk = true ∧ writeDelayOk s.cfg s.wdelay = true := by decide

theorem witness_I2cWriteByteStores : let s := bus 32767 [] [none]
    configOk s.cfg = true ∧ AtCounter s 32767 ∧ 32767 < s.cfg.capacity ∧ s.cfg.backend = .i2c ∧ Cooperative s ∧ DeviceIdle s ∧
      writeDelayOk s.cfg s.wdelay = true := by decide

/-- On both backends, the bus with an answer that fails. -/
theorem witness_WriteByteFrame :
    ((let s := par 32767 []
      configOk s.cfg = true ∧ AtCounter s 32767 ∧ 32767 < s.cfg.capacity ∧ s.dev.pending = []) ∧
      exec (.writeByte 1) (par 32767 []) = .next (issue (.writeByte 1) (par 32767 []))) ∧
    (let s := bus 0 [] [some 0]
     configOk s.cfg = true ∧ AtCounter s 0 ∧ 0 < s.cfg.capacity ∧ s.dev.pending = []) ∧
      exec (.writeByte 1) (bus 0 [] [some 0]) = .next (issue (.writeByte 1) (bus 0 [] [some 0])) :=
  ⟨⟨by decide, exec_issue _ _ rfl⟩, by decide, exec_issue _ _ rfl⟩

theorem witness_ParallelWritePageStores : let s := par 32704 []
    configOk s.cfg = true ∧ AtCounter s 32704 ∧ 32704 < s.cfg.capacity ∧ 32704 % 64 = 0 ∧ (fillPage 1).length = 64 ∧
      s.cfg.backend = .parallel ∧ s.hwctr = 32704 % 2 ^ s.cfg.ctrBits ∧ DeviceIdle s ∧ Unlocked s ∧ s.cfg.holdOk = true ∧
      writeDelayOk s.cfg s.wdelay = true := by decide

theorem witness_I2cWritePageStores : let s := bus 32704 [] []
    configOk s.cfg = true ∧ AtCounter s 32704 ∧ 32704 < s.cfg.capacity ∧ 32704 % 64 = 0 ∧ (fillPage 1).length = 64 ∧
      s.cfg.backend = .i2c ∧ Cooperative s ∧ DeviceIdle s ∧ writeDelayOk s.cfg s.wdelay = true := by decide

/-- The first and the last data byte refused. -/
theorem witness_PartialPageAdvance :
    (let s := bus 0 [] (List.replicate 4 none ++ [some 0x30])
     configOk s.cfg = true ∧ AtCounter s 0 ∧ 0 < s.cfg.capacity ∧ 0 % 64 = 0 ∧ (fillPage 1).length = 64 ∧ 0 < 64 ∧
       s.cfg.backend = .i2c ∧ DeviceIdle s ∧ s.oracle.script = List.replicate (4 + 0) none ++ some 0x30 :: [] ∧
       (0x30 : Byte) &&& s.cfg.statusMask ≠ s.cfg.expTxAck) ∧
    (let s := bus 32704 [] (List.replicate 67 none ++ [some 0x30])
     AtCounter s 32704 ∧ 32704 < s.cfg.capacity ∧ 63 < 64 ∧ DeviceIdle s ∧
       s.oracle.script = List.replicate (4 + 63) none ++ some 0x30 :: []) := by decide

/-- Both results of a page write. -/
theorem witness_PageWriteFrame :
    ((let s := par 32704 []
      configOk s.cfg = true ∧ AtCounter s 32704 ∧ 32704 < s.cfg.capacity ∧ 32704 % 64 = 0 ∧ (fillPage 1).length = 64 ∧
        s.dev.pending = [] ∧ s.hwctr = 32704 % 2 ^ s.cfg.ctrBits) ∧
      exec (.writePage (fillPage 1)) (par 32704 []) = .next (issue (.writePage (fillPage 1)) (par 32704 []))) ∧
    (let s := bus 0 [] [some 0]
     AtCounter s 0 ∧ s.dev.pending = [] ∧ s.cfg.backend ≠ .parallel) ∧
      exec (.writePage (fillPage 1)) (bus 0 [] [some 0]) = .next (issue (.writePage (fillPage 1)) (bus 0 [] [some 0])) :=
  ⟨⟨by decide, exec_issue _ _ (by decide +kernel)⟩, by decide, exec_issue _ _ (by decide +kernel)⟩

theorem witness_LostParallelWriteReturnsTrue :
    (let s := shortDelay (par 32767 [])
     configOk s.cfg = true ∧ AtCounter s 32767 ∧ 32767 < s.cfg.capacity ∧ s.cfg.backend = .parallel ∧ DeviceIdle s ∧
       s.cfg.holdOk = true ∧ writeDelayOk s.cfg s.wdelay = false) ∧
    (let s := parSdp .locked
     configOk s.cfg = true ∧ AtCounter s 0 ∧ 0 < s.cfg.capacity ∧ s.cfg.backend = .parallel ∧ DeviceIdle s ∧
       s.cfg.holdOk = true ∧ writeDelayOk s.cfg s.wdelay = true ∧ s.cfg.devSdp = true ∧ s.dev.latch = .locked) := by decide

theorem witness_BusyDeviceSpoilsTheI2cByte : let s := busy (bus 32767 [] [])
    configOk s.cfg = true ∧ AtCounter s 32767 ∧ 32767 < s.cfg.capacity ∧ s.cfg.backend = .i2c ∧ Cooperative s ∧
      s.dev.busy = true ∧ s.dev.pending = [] ∧ writeDelayOk s.cfg s.wdelay = true := by decide

/-- On the last page, on both backends. -/
theorem witness_RoundTripLaw :
    (Inv (par 32704 []) ∧ Inv (bus 32704 [] [])) ∧
    (let s := par 32704 []
     AtCounter s 32704 ∧ 32704 < s.cfg.capacity ∧ 32704 % 64 = 0 ∧ 32704 < 2 ^ 24 ∧ (seqPage 0).length = 64 ∧
       s.cfg.backend ≠ .i2c ∧ DeviceIdle s ∧ Unlocked s ∧ s.cfg.holdOk = true ∧ writeDelayOk s.cfg s.wdelay = true) ∧
    (let s := bus 32704 [] []
     AtCounter s 32704 ∧ 32704 < s.cfg.capacity ∧ Cooperative s ∧ DeviceIdle s ∧ Unlocked s ∧ s.cfg.holdOk = true ∧
       writeDelayOk s.cfg s.wdelay = true) :=
  ⟨⟨witness_inv_par _ (by decide), witness_inv_bus _ _ (by decide)⟩, by decide, by decide⟩

/-! ### Software data protection -/

/-- The first offset at CAPACITY, after two below it and as the first one. -/
theorem witness_SdpRefusalAndOffsetFault : (bus 0 [] []).cfg.backend = .i2c ∧
    ({ par 0 [] with cfg := { tcP with sdpPresent := false } }).cfg.sdpPresent = false ∧
    (let s := { parSdp .unlocked with cfg := { tcS with sdpEnableSeq := [(5, 1), (63, 2), (64, 3), (1, 4), (1, 5), (1, 6)] } }
     s.cfg.backend = .parallel ∧ s.cfg.sdpPresent = true ∧ s.phase = .ready ∧ s.burst = .none ∧
       (∀ p ∈ [((5 : Nat), (1 : Byte)), (63, 2)], p.1 < s.cfg.capacity) ∧ s.cfg.capacity ≤ 64 ∧
       s.cfg.sdpEnableSeq = [(5, 1), (63, 2)] ++ (64, 3) :: [(1, 4), (1, 5), (1, 6)]) ∧
    (let s := { parSdp .unlocked with cfg := { tcS with sdpDisableSeq := [(64, 1), (1, 2), (1, 3), (1, 4), (1, 5), (1, 6)] } }
     s.cfg.capacity ≤ 64 ∧ s.cfg.sdpDisableSeq = [] ++ (64, 1) :: [(1, 2), (1, 3), (1, 4), (1, 5), (1, 6)]) := by decide

/-- The offsets reach CAPACITY - 1. -/
theorem witness_SdpEnableLocksTheLatch : let s := parSdp .unlocked
    configOk s.cfg = true ∧ s.cfg.backend = .parallel ∧ s.cfg.sdpPresent = true ∧ s.phase = .ready ∧ s.burst = .none ∧
      (∀ p ∈ s.cfg.sdpEnableSeq, p.1 < s.cfg.capacity) ∧ s.cfg.sdpEnableSeq.getLast? = some (63, 0xA0) ∧ DeviceIdle s ∧
      s.cfg.holdOk = true ∧ writeDelayOk s.cfg s.wdelay = true ∧ s.cfg.devSdp = true ∧
      (∀ p ∈ s.cfg.sdpEnableSeq, p.1 ≠ 0) := by decide

/-- The last offset is 0. -/
theorem witness_SdpDisableUnlocksTheLatch : let s := parSdp .locked
    configOk s.cfg = true ∧ s.cfg.backend = .parallel ∧ s.cfg.sdpPresent = true ∧ s.phase = .ready ∧ s.burst = .none ∧
      (∀ p ∈ s.cfg.sdpDisableSeq, p.1 < s.cfg.capacity) ∧ s.cfg.sdpDisableSeq.getLast? = some (0, 0x20) ∧ DeviceIdle s ∧
      s.cfg.holdOk = true ∧ writeDelayOk s.cfg s.wdelay = true ∧ s.cfg.devSdp = true ∧
      s.cfg.sdpDisableSeq ≠ s.cfg.sdpEnableSeq ∧ (∀ p ∈ s.cfg.sdpDisableSeq, p.1 ≠ 63) := by decide

/-! ### Micro-operations -/

theorem witness_ParallelLineMicroOperations : coldPar.cfg.backend = .parallel ∧ (parBurst 0 []).cfg.backend = .parallel := by decide

theorem witness_ParallelStrobesReachTheDevice :
    (let s := parBurst 32767 []
     s.cfg.backend = .parallel ∧ s.lines.ce = .asserted ∧ s.lines.we = .deasserted ∧ s.dbusDir = .input ∧ DeviceIdle s ∧
       s.cfg.holdOk = true) ∧
    (let s := badHold (parBurst 0 [])
     s.lines.ce = .asserted ∧ s.cfg.holdOk = false) ∧
    (let s := busy (parBurst 0 [])
     s.lines.ce = .asserted ∧ ¬ DeviceIdle s ∧ s.dev.busy = true) ∧
    ((par 0 []).dev.busy = false ∧ (par 0 []).cfg.holdOk = true) ∧
    ((badHold (par 0 [])).dev.busy = false ∧ (badHold (par 0 [])).cfg.holdOk = false) ∧ (busy (par 0 [])).dev.busy = true := by decide

theorem witness_I2cConditionMicroOperations : (bus 0 [] [some 0xFF]).cfg.backend = .i2c ∧
    (bus 0 [] [some 0xFF]).oracle.script = some 0xFF :: [] ∧ (bus 0 [] [none]).oracle.script = none :: [] := by decide

theorem witness_TransmitChecksTheRolesCode : (bus 0 [] [some 0x18]).cfg.backend = .i2c ∧
    (bus 0 [] [some 0x18]).oracle.script = some 0x18 :: [] ∧
    (bus 0 [] [some 0x18]).dev.busy = false ∧ (busy (bus 0 [] [some 0x20])).dev.busy = true ∧
    (0x18 : Byte) &&& tcI.statusMask = tcI.expSlaWAck ∧
    ((bus 0 [] [some 0x30]).dev.busy = false ∧ (0x30 : Byte) &&& tcI.statusMask ≠ tcI.expTxAck) := by decide

theorem witness_ReceiveReturnsByteAndCode : (busBurst 32767 [] [some 0x50]).cfg.backend = .i2c ∧
    (busBurst 32767 [] [some 0x50]).oracle.script = some 0x50 :: [] ∧ DeviceIdle (busBurst 32767 [] [some 0x50]) ∧
    ¬ DeviceIdle (busy (busBurst 0 [] [])) ∧
    (0x50 : Byte) &&& (busBurst 32767 [] [some 0x50]).cfg.statusMask = (busBurst 32767 [] [some 0x50]).cfg.expRxAck := by decide

theorem witness_LineLevelsFollowPolarity :
    ((LineName.ce, (parBurst 0 []).lines.ce, tcP.polCe) = (.ce, .asserted, .low) ∧
      (LineName.rst, (parBurst 0 []).lines.rst, tcP.polRst) = (.rst, .deasserted, .high) ∧ coldPar.lines.oe = .undriven) ∧
    (coldPar.phase = .uninit ∧ coldPar.cfg.backend = .parallel) ∧
    (AtCounter (par 32767 []) 32767 ∧ 32767 < (par 32767 []).cfg.capacity ∧ (par 32767 []).cfg.backend = .parallel) := by decide

/-! ### The whole machine -/

theorem witness_FaultsAndRefusalsArePrecise :
    (exec .getcount coldPar = .next (issue .getcount coldPar) ∧ (issue .getcount coldPar).result = none) ∧
    (exec .sdpEnable (bus 0 [] []) = .next (issue .sdpEnable (bus 0 [] [])) ∧ (issue .sdpEnable (bus 0 [] [])).result = none) :=
  ⟨⟨exec_issue _ _ rfl, by decide⟩, exec_issue _ _ rfl, by decide⟩

/-- A step that takes a refusal, in a state that has a mark already. -/
theorem witness_StepKeepsConfigurationTraceAndMark :
    let s := asked { par 0 [] with mark := .fault .burst } [0x40, 0x00, 0x00, 0x00]
    step s = .next (marked { s with stream := [] } (.refused .internal)) ∧ s.mark ≠ .none ∧
      (marked { s with stream := [] } (.refused .internal)).mark ≠ s.mark := ⟨rfl, by decide, by decide⟩

theorem witness_RegistersHaveTheirWriters :
    (exec .getcount (par 9 []) = .next (issue .getcount (par 9 []))) ∧
    (Instr.getcount ≠ .startSeqRead ∧ (∀ l, Instr.getcount ≠ .nextByte l) ∧ (∀ v, Instr.getcount ≠ .writeByte v) ∧
      (∀ page, Instr.getcount ≠ .writePage page)) ∧
    (Instr.getcount ≠ .reset ∧ (∀ n, Instr.getcount ≠ .advance n) ∧ Instr.getcount ≠ .sdpEnable ∧
      Instr.getcount ≠ .sdpDisable) ∧ (∀ d, Instr.getcount ≠ .setWriteDelay d) ∧ Instr.getcount ≠ .init ∧
    ((∀ v, Instr.getcount ≠ .pWriteStrobe v) ∧ (∀ role v, Instr.getcount ≠ .iTx role v) ∧ ∀ d, Instr.getcount ≠ .delay d) :=
  ⟨exec_issue _ _ rfl, by simp, by simp, by simp, by simp, by simp⟩

theorem witness_ParallelFailsOnlyMisaligned : (par 63 []).cfg.backend = .parallel ∧
    exec (.writePage (fillPage 1)) (par 63 []) = .next (issue (.writePage (fillPage 1)) (par 63 [])) ∧
    (issue (.writePage (fillPage 1)) (par 63 [])).result = some (.flag false) := ⟨rfl, exec_issue _ _ rfl, by decide⟩

/-- Both forms of a failure, from states that meet the invariant. -/
theorem witness_FailureLeavesTheBusIdle :
    (Inv (bus 0 [] [some 0]) ∧ Instr.isMicro .startSeqRead = false ∧
      exec .startSeqRead (bus 0 [] [some 0]) = .next (issue .startSeqRead (bus 0 [] [some 0])) ∧
      (issue .startSeqRead (bus 0 [] [some 0])).result = some (.flag false)) ∧
    (Inv (busBurst 0 [] [some 0]) ∧ Instr.isMicro (.nextByte false) = false ∧
      exec (.nextByte false) (busBurst 0 [] [some 0]) = .next (issue (.nextByte false) (busBurst 0 [] [some 0])) ∧
      ∃ b, (issue (.nextByte false) (busBurst 0 [] [some 0])).result = some (.byteFlag b false)) :=
  ⟨⟨witness_inv_bus _ _ (by decide), rfl, exec_issue _ _ rfl, by decide⟩,
   witness_inv_busBurst _ _ (by decide), rfl, exec_issue _ _ rfl, ⟨_, rfl⟩⟩

/-- The sentinel from a misaligned page write, and one that was there before. -/
theorem witness_SentinelIsNoBusCode : configOk (bus 63 [] []).cfg = true ∧ (bus 63 [] []).cfg.backend = .i2c ∧
    (exec (.writePage (fillPage 1)) (bus 63 [] []) = .next (issue (.writePage (fillPage 1)) (bus 63 [] [])) ∧
      (issue (.writePage (fillPage 1)) (bus 63 [] [])).status = some 0xFF) ∧
    (exec .getcount { bus 0 [] [] with status := some 0xFF } = .next (issue .getcount { bus 0 [] [] with status := some 0xFF }) ∧
      (issue .getcount { bus 0 [] [] with status := some 0xFF }).status = some 0xFF) :=
  ⟨by decide, rfl, ⟨exec_issue _ _ rfl, by decide⟩, exec_issue _ _ rfl, by decide⟩

theorem witness_CooperativeBusSucceeds :
    (let s := bus 32704 [] []
     configOk s.cfg = true ∧ s.cfg.backend = .i2c ∧ Cooperative s ∧ AtCounter s 32704 ∧ 32704 < s.cfg.capacity ∧
       (fillPage 1).length = 64 ∧ 32704 % 64 = 0) ∧
    (let s := busBurst 32767 [] []
     configOk s.cfg = true ∧ s.cfg.backend = .i2c ∧ Cooperative s ∧ s.phase = .ready ∧ s.burst = .opened) := by decide

/-- A step that runs, on each backend. -/
theorem witness_InvariantIsKept :
    (Inv (asked (par 0 []) [0x03, 0x00, 0x00, 0x00]) ∧
      step (asked (par 0 []) [0x03, 0x00, 0x00, 0x00]) = .next { par 0 [] with result := some (.count 0) }) ∧
    (Inv (asked (bus 0 [] []) [0x02, 0x00, 0x00, 0x40]) ∧
      step (asked (bus 0 [] []) [0x02, 0x00, 0x00, 0x40]) = .next { bus 64 [] [] with result := some .unit }) :=
  ⟨⟨⟨rfl, rfl, (witness_inv_par 0 (by decide)).ctrBound, (by intro e; cases e), rfl, (by intro d e; cases e), rfl,
      (witness_inv_par 0 (by decide)).ptr, (witness_inv_par 0 (by decide)).parallel, (by intro e; cases e)⟩, rfl⟩,
   ⟨rfl, rfl, (witness_inv_bus 0 [] (by decide)).ctrBound, (by intro e; cases e), rfl, (by intro d e; cases e), rfl,
      (witness_inv_bus 0 [] (by decide)).ptr, (by intro e; cases e), (witness_inv_bus 0 [] (by decide)).i2c⟩, rfl⟩

theorem witness_InvariantAtReset :
    (configOk tcP = true ∧ configOk tcI = true ∧ configOk tcS = true) ∧
    (Memory.wf [(0, 0x00), (32767, 0x5A)] = true ∧ ∀ x ∈ ([(0, 0x00), (32767, 0x5A)] : Memory), x.1 < tcI.capacity) ∧
    Inv (busBurst 32767 [] []) := ⟨by decide, by decide, witness_inv_busBurst _ _ (by decide)⟩

theorem witness_BackendsAgreeOnPageWrite :
    (Inv (par 32704 []) ∧ Inv (bus 32704 [] [])) ∧
    (let p := par 32704 []
     let q := bus 32704 [] []
     p.cfg.backend = .parallel ∧ q.cfg.backend = .i2c ∧ p.cfg.capacity = q.cfg.capacity ∧ p.dev.mem = q.dev.mem ∧
       AtCounter p 32704 ∧ AtCounter q 32704 ∧ 32704 < p.cfg.capacity ∧ 32704 % 64 = 0 ∧ (fillPage 1).length = 64 ∧
       DeviceIdle p ∧ DeviceIdle q ∧ Unlocked p ∧ p.cfg.holdOk = true ∧ Cooperative q ∧ writeDelayOk p.cfg p.wdelay = true ∧
       writeDelayOk q.cfg q.wdelay = true) :=
  ⟨⟨witness_inv_par _ (by decide), witness_inv_bus _ _ (by decide)⟩, by decide⟩

/-! ### Boot and the command layer -/

theorem witness_BootState : tcP.backend = .parallel ∧ tcI.backend = .i2c := by decide

/-- The whole device from 0, and its last byte. -/
theorem witness_DumpReturnsTheMemory :
    (Inv (par 0 []) ∧ Inv (bus 32767 [] [])) ∧
    (let s := par 0 []
     AtCounter s 0 ∧ 0 < 32768 ∧ 0 + 32768 ≤ s.cfg.capacity ∧ s.cfg.backend ≠ .i2c ∧ DeviceIdle s ∧ s.cfg.holdOk = true) ∧
    (let s := bus 32767 [] []
     AtCounter s 32767 ∧ 0 < 1 ∧ 32767 + 1 ≤ s.cfg.capacity ∧ Cooperative s ∧ DeviceIdle s ∧ s.cfg.holdOk = true) :=
  ⟨⟨witness_inv_par _ (by decide), witness_inv_bus _ _ (by decide)⟩, by decide, by decide⟩

theorem witness_MisalignedUpblockRepliesFailed : (AtCounter (par 1 []) 1 ∧ 1 % 64 ≠ 0) ∧ (AtCounter (bus 63 [] []) 63 ∧ 63 % 64 ≠ 0) ∧
    (fillPage 0xAB).length = 64 := by decide

theorem witness_MeaninglessCommandsAreRefused : (63 : Nat) ≠ 64 ∧ (65 : Nat) ≠ 64 ∧ (1 : Nat) ≠ 0 := by decide

end Sys2Proof.Tests
end

/-! # Proofs for 00_scope.md: what a decoded request runs, and what every step keeps -/

namespace Sys2Proof

/-! ## What a decoded request was -/

/-- A word is put together from the opcode and the operand field of the instruction it encodes (rule R80). -/
theorem encodeWord_eq_of_fields {i : Instr} {w : Word} (hop : (opField w).toNat = i.opcode.toNat)
    (himm : immField w = i.imm) : encodeWord i = w := by
  rw [encodeWord, ← BitVec.eq_of_toNat_eq hop, ← himm, opField_append_immField]

theorem formatN_encodeWord {i j : Instr} {w : Word} (h : formatN i w = .ok j)
    (hop : (opField w).toNat = i.opcode.toNat) (himm : i.imm = 0) : encodeWord j = w := by
  obtain ⟨h0, rfl⟩ := (formatN_iff i j w).1 h
  exact encodeWord_eq_of_fields hop (h0.trans himm.symm)

theorem formatImm_encodeWord {mk : BitVec 24 → Instr} {j : Instr} {w : Word} (h : formatImm mk w = .ok j)
    (hop : (opField w).toNat = (mk (immField w)).opcode.toNat) (himm : ∀ x, (mk x).imm = x) : encodeWord j = w := by
  obtain rfl := (formatImm_iff mk j w).1 h
  exact encodeWord_eq_of_fields hop (himm _).symm

theorem formatB_encodeWord {mk : Byte → Instr} {j : Instr} {w : Word} (h : formatB mk w = .ok j)
    (hop : (opField w).toNat = (mk (byteField w)).opcode.toNat) (himm : ∀ v, (mk v).imm = 0#16 ++ v) :
    encodeWord j = w := by
  obtain ⟨h0, rfl⟩ := (formatB_iff mk j w).1 h
  exact encodeWord_eq_of_fields hop (h0.trans (himm _).symm)

theorem formatL_encodeWord {mk : Bool → Instr} {j : Instr} {w : Word} (h : formatL mk w = .ok j)
    (hop : (opField w).toNat = (mk (flagField w)).opcode.toNat) (himm : ∀ l, (mk l).imm = 0#23 ++ BitVec.ofBool l) :
    encodeWord j = w := by
  obtain ⟨h0, rfl⟩ := (formatL_iff mk j w).1 h
  exact encodeWord_eq_of_fields hop (h0.trans (himm _).symm)

theorem formatT_encodeWord {j : Instr} {w : Word} (h : formatT w = .ok j) (hop : (opField w).toNat = 0x63) :
    encodeWord j = w := by
  obtain ⟨role, h0, rfl⟩ := (formatT_iff j w).1 h
  exact encodeWord_eq_of_fields hop h0

/-- A word that decodes is the encoding of what it decodes to, one row of the opcode map after the other (rules R84, R86,
R87). -/
theorem encodeWord_of_decodeWord {w : Word} {i : Instr} (h : decodeWord w = .ok i) : encodeWord i = w := by
  unfold decodeWord at h
  split at h
  · exact formatN_encodeWord h ‹_› rfl
  · exact formatImm_encodeWord h ‹_› fun _ => rfl
  · exact formatN_encodeWord h ‹_› rfl
  · exact formatN_encodeWord h ‹_› rfl
  · exact formatN_encodeWord h ‹_› rfl
  · exact formatN_encodeWord h ‹_› rfl
  · exact formatL_encodeWord h ‹_› fun _ => rfl
  · exact formatB_encodeWord h ‹_› fun _ => rfl
  · exact formatN_encodeWord h ‹_› rfl
  · exact formatImm_encodeWord h ‹_› fun _ => rfl
  · exact formatN_encodeWord h ‹_› rfl
  · exact formatN_encodeWord h ‹_› rfl
  · exact formatN_encodeWord h ‹_› rfl
  · exact formatN_encodeWord h ‹_› rfl
  · exact formatN_encodeWord h ‹_› rfl
  · exact formatN_encodeWord h ‹_› rfl
  · exact formatB_encodeWord h ‹_› fun _ => rfl
  · exact formatL_encodeWord h ‹_› fun _ => rfl
  · exact formatN_encodeWord h ‹_› rfl
  · exact formatN_encodeWord h ‹_› rfl
  · exact formatN_encodeWord h ‹_› rfl
  · exact formatT_encodeWord h ‹_›
  · exact formatN_encodeWord h ‹_› rfl
  · exact formatN_encodeWord h ‹_› rfl
  · exact formatImm_encodeWord h ‹_› fun _ => rfl
  · cases h

theorem opcode_of_decodeWord {w : Word} {i : Instr} (h : decodeWord w = .ok i) : i.opcode = opField w := by
  rw [← encodeWord_of_decodeWord h, opField_encodeWord]

theorem opcode_of_pageOfBlock {w : Word} {rest : List Byte} {i : Instr} (h : pageOfBlock w rest = .ok i) :
    i.opcode = opWritePage := by
  unfold pageOfBlock at h
  split at h
  · split at h
    · cases h; rfl
    · cases h
  · cases h

/-- A request that decodes begins with the opcode of what it decodes to, and has its four bytes of word. -/
theorem stream_of_decode {bytes rest : List Byte} {i : Instr} (h : decode bytes = (.ok i, rest)) :
    ∃ b2 b1 b0 tail, bytes = i.opcode :: b2 :: b1 :: b0 :: tail := by
  unfold decode at h
  split at h
  · next b3 b2 b1 b0 tail =>
    have hop : i.opcode = opField (wordOfBytes b3 b2 b1 b0) := by
      simp only at h
      split at h
      · next hp => exact (opcode_of_pageOfBlock (congrArg Prod.fst h)).trans hp.symm
      · exact opcode_of_decodeWord (congrArg Prod.fst h)
    rw [hop, opField_wordOfBytes]
    exact ⟨b2, b1, b0, tail, rfl⟩
  · cases congrArg Prod.fst h

namespace Machine

/-! ## What a step can do -/

/-- A request that decodes is run unless a caller asks for a micro-operation (rule R88). -/
theorem fetch_of_decode {s : State} {i : Instr} {rest : List Byte} (h : decode s.stream = (.ok i, rest))
    (hi : s.origin = .block ∨ i.isMicro = false) : fetch s = .run i rest := by
  obtain ⟨b2, b1, b0, tail, hs⟩ := stream_of_decode h
  have hne : s.stream.isEmpty = false := by rw [hs]; rfl
  have hmicro : isInternalRequest s.stream = i.isMicro := by rw [hs]; rfl
  have hissue : (s.origin == .caller && isInternalRequest s.stream) = false := by
    rw [hmicro]
    rcases hi with hi | hi
    · rw [hi]; rfl
    · rw [hi, Bool.and_false]
  simp only [fetch, hne, hissue, h, Bool.false_eq_true, if_false]

/-- A step waits, refuses its request, or runs an instruction; the last two at the stream past the request. -/
theorem step_cases (s : State) : step s = .next s ∨
    (∃ r rest, step s = .next (marked { s with stream := rest } (.refused r))) ∨
    ∃ i rest, step s = exec i { s with stream := rest } := by
  unfold step
  split
  · exact .inl rfl
  · exact .inr (.inl ⟨_, _, rfl⟩)
  · exact .inr (.inr ⟨_, _, rfl⟩)

/-- Settles O4: the request is fetched, and the step runs it past the request. -/
theorem stepRunsTheDecodedInstruction : Obligations.StepRunsTheDecodedInstruction := by
  intro s i rest h hi
  simp only [step, fetch_of_decode h hi]
  rfl

/-! ## What a meaning answers -/

/-- t is s after an operation that sent its reply: the parameters, the issuer and the mark are as they were, the trace has only
grown, and there is a result. -/
structure Completes (s t : State) : Prop where
  cfg : t.cfg = s.cfg
  origin : t.origin = s.origin
  trace : s.trace <+: t.trace
  mark : t.mark = s.mark
  result : t.result ≠ none

/-- An answer from s: a mark and nothing else (rules R280, R281), or an operation that sent its reply (rule R13). -/
def Answers (s : State) (a : Answer) : Prop :=
  (∃ m, m ≠ .none ∧ a = .next (marked s m)) ∨ ∃ t, Completes s t ∧ a = .next t

theorem Answers.fault {s : State} {a : Answer} {r : Fault} (h : a = .next (marked s (.fault r))) : Answers s a :=
  .inl ⟨.fault r, Mark.noConfusion, h⟩

theorem Answers.refusal {s : State} {a : Answer} {r : Refusal} (h : a = .next (marked s (.refused r))) : Answers s a :=
  .inl ⟨.refused r, Mark.noConfusion, h⟩

/-- The actions of a meaning, then the registers it may set at its end, and its reply. -/
theorem Moves.answers {s u : State} {a : Answer} {p : Phase} {c : Option Nat} {d : Nat} {b : Burst} {v : OpResult}
    (h : Moves s u) (ha : a = .next { u with phase := p, ctr := c, wdelay := d, burst := b, result := some v }) :
    Answers s a :=
  .inr ⟨{ u with phase := p, ctr := c, wdelay := d, burst := b, result := some v },
    ⟨h.cfg, h.origin, h.trace, h.mark, Option.some_ne_none v⟩, ha⟩

/-! ## The meanings of the caller's operations -/

theorem execReset_answers (s : State) : Answers s (execReset s) := by
  rcases execReset_cases s with ⟨-, e⟩ | ⟨-, e⟩
  · exact .fault e
  · exact (resetHardware_moves s).answers e

theorem execAdvance_answers (n : BitVec 24) (s : State) : Answers s (execAdvance n s) := by
  rcases execAdvance_cases n s with ⟨-, e⟩ | ⟨-, -, e⟩ | ⟨c, -, -, -, e⟩ | ⟨c, -, -, -, e⟩
  · exact .fault e
  · exact .fault e
  · exact .fault e
  · exact (advanceHardware_moves n.toNat s).answers e

theorem execGetcount_answers (s : State) : Answers s (execGetcount s) := by
  rcases execGetcount_cases s with ⟨-, e⟩ | ⟨c, -, e⟩
  · exact .fault e
  · exact (Moves.refl s).answers e

theorem execInit_answers (s : State) : Answers s (execInit s) := by
  rcases execInit_cases s with ⟨-, e⟩ | ⟨-, e⟩
  · exact .fault e
  · exact (initBody_moves s).answers e

theorem execResetMemory_answers (s : State) : Answers s (execResetMemory s) := by
  rcases execResetMemory_cases s with ⟨-, e⟩ | ⟨-, e⟩
  · exact .fault e
  · exact (resetMemoryBody_moves s).answers e

theorem execStartSeqRead_answers (s : State) : Answers s (execStartSeqRead s) := by
  rcases execStartSeqRead_cases s with ⟨r, e, -⟩ | ⟨c, -, -, e⟩
  · exact .fault e
  · exact (startSeqReadBody_moves c s).answers e

theorem closeNextByte_answers {s : State} {q : Byte × Bool × State} (l : Bool) (h : Moves s q.2.2) :
    Answers s (closeNextByte l q) :=
  h.answers (closeNextByte_eq l q)

theorem execNextByte_answers (l : Bool) (s : State) : Answers s (execNextByte l s) := by
  rcases execNextByte_cases l s with ⟨r, e, -⟩ | ⟨c, -, -, -, -, -, e⟩ | ⟨-, -, -, e⟩
  · exact .fault e
  · exact e ▸ closeNextByte_answers l (nextByteParallel_moves l s)
  · exact e ▸ closeNextByte_answers l (nextByteI2c_moves l s)

theorem execWriteByte_answers (v : Byte) (s : State) : Answers s (execWriteByte v s) := by
  rcases execWriteByte_cases v s with ⟨r, e, -⟩ | ⟨c, -, -, e⟩
  · exact .fault e
  · exact (writeByteBody_moves c v s).answers e

theorem setStatus_moves (v : Option Byte) (s : State) : Moves s (s.setStatus v) := ⟨rfl, List.prefix_refl _⟩

theorem execWritePage_answers (page : List Byte) (s : State) : Answers s (execWritePage page s) := by
  rcases execWritePage_cases page s with ⟨-, e⟩ | ⟨-, ⟨r, e, -⟩ | ⟨c, -, -, e⟩ | ⟨c, -, -, -, e⟩⟩
  · exact .refusal e
  · exact .fault e
  · exact (setStatus_moves (some 0xFF) s).answers e
  · exact (writePageBody_moves c page s).answers e

theorem execLastFailure_answers (s : State) : Answers s (execLastFailure s) := by
  rcases execLastFailure_cases s with ⟨b, -, e⟩ | ⟨-, e⟩
  · exact (Moves.refl s).answers e
  · exact (draw_moves s).answers e

theorem sdpRun_answers (seq : List (Nat × Byte)) (s : State) : Answers s (sdpRun seq s) := by
  rcases sdpRun_cases seq s with ⟨-, e⟩ | ⟨-, -, ⟨r, e, -⟩ | ⟨-, -, -, e⟩⟩
  · exact .refusal e
  · exact .fault e
  · exact ((sdpSteps_moves seq s).trans (delay_moves s.wdelay _)).answers e

/-! ## The meanings of the micro-operations -/

theorem onParallel_answers {s u : State} (v : OpResult) (h : Moves s u) : Answers s (onParallel s (u.returns v)) := by
  rcases onParallel_cases s (u.returns v) with ⟨-, e⟩ | ⟨-, e⟩
  · exact h.answers (e.trans (returns_next u v))
  · exact .refusal e

theorem onI2c_answers {s u : State} (v : OpResult) (h : Moves s u) : Answers s (onI2c s (u.returns v)) := by
  rcases onI2c_cases s (u.returns v) with ⟨-, e⟩ | ⟨-, e⟩
  · exact h.answers (e.trans (returns_next u v))
  · exact .refusal e

/-- Every instruction answers with a mark alone or with a reply, in every state. -/
theorem exec_answers (i : Instr) (s : State) : Answers s (exec i s) := by
  cases i with
  | reset => exact execReset_answers s
  | advance n => exact execAdvance_answers n s
  | getcount => exact execGetcount_answers s
  | init => exact execInit_answers s
  | resetMemory => exact execResetMemory_answers s
  | startSeqRead => exact execStartSeqRead_answers s
  | nextByte l => exact execNextByte_answers l s
  | writeByte v => exact execWriteByte_answers v s
  | writePage page => exact execWritePage_answers page s
  | lastFailure => exact execLastFailure_answers s
  | setWriteDelay d => exact (Moves.refl s).answers (execSetWriteDelay_eq d s)
  | sdpEnable => exact sdpRun_answers s.cfg.sdpEnableSeq s
  | sdpDisable => exact sdpRun_answers s.cfg.sdpDisableSeq s
  | pIdle => exact onParallel_answers _ (pIdle_moves s)
  | pClkPulse => exact onParallel_answers _ (pClkPulse_moves s)
  | pRstPulse => exact onParallel_answers _ (pRstPulse_moves s)
  | pReadStrobe => exact onParallel_answers _ (pReadStrobe_moves s)
  | pWriteStrobe v => exact onParallel_answers _ (pWriteStrobe_moves v s)
  | pSelect l => exact onParallel_answers _ (pSelect_moves l s)
  | iStart => exact onI2c_answers _ (iStart_moves s)
  | iRepStart => exact onI2c_answers _ (iRepStart_moves s)
  | iStop => exact onI2c_answers _ (iStop_moves s)
  | iTx role v => exact onI2c_answers _ (iTx_moves role v s)
  | iRxAck => exact onI2c_answers _ (iRxAck_moves s)
  | iRxNack => exact onI2c_answers _ (iRxNack_moves s)
  | delay d => exact (delay_moves d.toNat s).answers (execDelay_eq d s)

/-- A step waits, or answers at the state whose stream has moved on. -/
theorem step_waits_or_answers (s : State) : step s = .next s ∨ ∃ rest, Answers { s with stream := rest } (step s) := by
  rcases step_cases s with e | ⟨r, rest, e⟩ | ⟨i, rest, e⟩
  · exact .inl e
  · exact .inr ⟨rest, .refusal e⟩
  · exact .inr ⟨rest, e ▸ exec_answers i _⟩

/-- Settles O48: a step that waits changes nothing, one that takes a mark changes only the mark and empties the result, and one that
sends a reply keeps the mark. -/
theorem stepKeepsConfigurationTraceAndMark : Obligations.StepKeepsConfigurationTraceAndMark := by
  intro s t h
  rcases step_waits_or_answers s with e | ⟨rest, ⟨m, hm, e⟩ | ⟨u, hu, e⟩⟩
  · obtain rfl := Host.Outcome.next.inj (e.symm.trans h)
    exact ⟨rfl, rfl, List.prefix_refl _, id, fun hne => absurd rfl hne⟩
  · obtain rfl := Host.Outcome.next.inj (e.symm.trans h)
    exact ⟨rfl, rfl, List.prefix_refl _, fun _ => hm, fun _ => rfl⟩
  · obtain rfl := Host.Outcome.next.inj (e.symm.trans h)
    exact ⟨hu.cfg, hu.origin, hu.trace, fun hs ht => hs (hu.mark.symm.trans ht), fun hne => absurd hu.mark hne⟩

end Machine
end Sys2Proof

/-! # Proofs for 10_state.md: power-on, the levels of the lines, the writers of each register, and the invariant -/

namespace Sys2Proof

open Machine

/-! ## Power -/

theorem powerOn_poweredOn (c : Config) (m : Memory) (n : Nat) : PoweredOn (State.powerOn c m n) :=
  ⟨rfl, rfl, rfl, rfl, rfl, ⟨rfl, rfl⟩, rfl, rfl, rfl, rfl, ⟨rfl, rfl⟩, rfl⟩

/-- No power-on value is the bus oracle's. -/
theorem poweredOn_setOracle {s : State} (h : PoweredOn s) (o : BusOracle) : PoweredOn (s.setOracle o) := h

theorem powerCycle_poweredOn (s : State) : PoweredOn s.powerCycle :=
  poweredOn_setOracle (powerOn_poweredOn s.cfg s.dev.mem (s.draws + 1)) s.oracle

/-- Settles O7: every value is the one power-on is given, and a power cycle is a power-on that keeps the oracle. -/
theorem powerOnState : Obligations.PowerOnState :=
  ⟨fun c m n => ⟨powerOn_poweredOn c m n, State.powerOn_cfg c m n, State.powerOn_mem c m n⟩,
   fun s => ⟨powerCycle_poweredOn s, s.powerCycle_cfg, s.powerCycle_mem⟩⟩

/-- Nothing the invariant speaks of is the bus oracle's. -/
theorem Inv.setOracle {s : State} (h : Inv s) (o : BusOracle) : Inv (s.setOracle o) :=
  ⟨h.config, h.origin, h.ctrBound, h.uninit, h.memWf, h.memBelow, h.pending, h.ptr, h.parallel, h.i2c⟩

/-- Power-on meets the invariant: the counter is unset, no line is driven, and the unknown values are cut to their width. -/
theorem inv_powerOn {c : Config} {m : Memory} (n : Nat) (hc : configOk c = true) (hwf : Memory.wf m = true)
    (hlt : ∀ x ∈ m, x.1 < c.capacity) : Inv (State.powerOn c m n) where
  config := hc
  origin := rfl
  ctrBound := nofun
  uninit := fun _ => ⟨rfl, rfl⟩
  memWf := hwf
  memBelow := hlt
  pending := rfl
  ptr := Nat.mod_lt _ (Nat.lt_of_lt_of_le (by decide) (configOk_pages hc).2)
  parallel := fun _ => ⟨nofun, Nat.mod_lt _ (Nat.two_pow_pos c.ctrBits), fun _ => ⟨rfl, rfl⟩, nofun, rfl, rfl⟩
  i2c := fun _ => ⟨fun _ => ⟨rfl, rfl⟩, nofun, rfl, rfl⟩

theorem inv_powerCycle {s : State} (h : Inv s) : Inv s.powerCycle :=
  (inv_powerOn (s.draws + 1) h.config h.memWf h.memBelow).setOracle s.oracle

/-- Settles O55: a power cycle is a power-on with the memory the invariant speaks of, and so is the reset state. -/
theorem invariantAtReset : Obligations.InvariantAtReset :=
  ⟨fun _ _ n hc hwf hlt => inv_powerOn n hc hwf hlt, fun _ h => inv_powerCycle h, inv_powerOn 0 (by decide) rfl nofun⟩

/-! ## The levels of the lines -/

theorem otherLevel_ne (pol : Level) : otherLevel pol ≠ pol := by cases pol <;> decide

/-- A line's state decides its level: POL_L, the other level, or none (rule R27). -/
theorem lineLevel_asserted {s : State} {l : LineName} (h : lineState s.lines l = .asserted) :
    lineLevel s l = some (polarity s.cfg l) := by rw [lineLevel, h]; rfl

theorem lineLevel_deasserted {s : State} {l : LineName} (h : lineState s.lines l = .deasserted) :
    ∃ level, lineLevel s l = some level ∧ level ≠ polarity s.cfg l :=
  ⟨otherLevel (polarity s.cfg l), by rw [lineLevel, h]; rfl, otherLevel_ne _⟩

theorem lineLevel_undriven {s : State} {l : LineName} (h : lineState s.lines l = .undriven) : lineLevel s l = none := by
  rw [lineLevel, h]; rfl

/-- The state INIT leaves on PARALLEL (rules R133, R150). -/
theorem exec_init_parallel {s : State} (h : s.phase = .uninit) (hb : s.cfg.backend = .parallel) :
    exec .init s = .next { pIdle s with phase := .ready, burst := .none, result := some .unit } := by
  rcases execInit_cases s with ⟨h', -⟩ | ⟨-, e⟩
  · rw [h] at h'; cases h'
  · refine e.trans ?_
    simp only [initBody, hb]; rfl

theorem startSeqReadBody_parallel {s : State} (c : Nat) (hb : s.cfg.backend = .parallel) :
    startSeqReadBody c s = (true, drawStatus (pSelect true s)) := by
  simp only [startSeqReadBody, hb]; rfl

theorem lineState_pIdle (s : State) (l : LineName) : lineState (pIdle s).lines l = .deasserted := by
  rw [pIdle_eq]; cases l <;> rfl

/-- Settles O45: the level follows the line's state; INIT deasserts every line, and a read burst asserts CE. -/
theorem lineLevelsFollowPolarity : Obligations.LineLevelsFollowPolarity := by
  refine ⟨fun s p hp => ?_, fun s hu hb => ⟨_, exec_init_parallel hu hb, fun p hp => ?_⟩, fun s c hat hlt hb => ?_⟩
  · have line : ∀ l : LineName, (lineState s.lines l = .asserted → lineLevel s l = some (polarity s.cfg l)) ∧
        (lineState s.lines l = .deasserted → ∃ level, lineLevel s l = some level ∧ level ≠ polarity s.cfg l) ∧
        (lineState s.lines l = .undriven → lineLevel s l = none) :=
      fun l => ⟨lineLevel_asserted, lineLevel_deasserted, lineLevel_undriven⟩
    simp only [List.mem_cons, List.not_mem_nil, or_false] at hp
    rcases hp with rfl | rfl | rfl | rfl | rfl
    exacts [line .ce, line .oe, line .we, line .clk, line .rst]
  · have idle : ∀ l : LineName, ∃ level,
        lineLevel { pIdle s with phase := .ready, burst := .none, result := some .unit } l = some level ∧
          level ≠ polarity s.cfg l := fun l => by
      have := lineLevel_deasserted (s := { pIdle s with phase := .ready, burst := .none, result := some .unit })
        (lineState_pIdle s l)
      rwa [show (pIdle s).cfg = s.cfg from (pIdle_moves s).cfg] at this
    simp only [List.mem_cons, List.not_mem_nil, or_false] at hp
    rcases hp with rfl | rfl | rfl | rfl | rfl
    exacts [idle .ce, idle .oe, idle .we, idle .clk, idle .rst]
  · refine ⟨_, exec_startSeqRead_ready hat hlt, ?_⟩
    rw [startSeqReadBody_parallel c hb]
    exact lineLevel_asserted rfl

/-! ## Who may write which register -/

/-- What the rules name the writers of; the device's memory, latch and pending writes are one. -/
inductive Register where
  | status
  | ctr
  | wdelay
  | phase
  | memory

/-- The registers an instruction may write (rules R21, R24, R26, R61 to R67, R124, R170). -/
def Instr.writes : Instr → List Register
  | .reset | .advance _ => [.ctr]
  | .init => [.phase]
  | .startSeqRead | .nextByte _ => [.status]
  | .writeByte _ => [.status, .memory]
  | .writePage _ => [.status, .ctr, .memory]
  | .setWriteDelay _ => [.wdelay]
  | .sdpEnable | .sdpDisable => [.ctr, .memory]
  | .pWriteStrobe _ | .iTx _ _ | .delay _ => [.memory]
  | .getcount | .resetMemory | .lastFailure | .pIdle | .pClkPulse | .pRstPulse | .pReadStrobe | .pSelect _
  | .iStart | .iRepStart | .iStop | .iRxAck | .iRxNack => []

/-- From s to t every register but those listed is as it was. -/
structure KeepsOthers (rs : List Register) (s t : State) : Prop where
  status : .status ∉ rs → t.status = s.status
  ctr : .ctr ∉ rs → t.ctr = s.ctr
  wdelay : .wdelay ∉ rs → t.wdelay = s.wdelay
  phase : .phase ∉ rs → t.phase = s.phase
  memory : .memory ∉ rs → KeepsMemory s t

/-- A mark is in no register (rules R280, R281). -/
theorem KeepsOthers.marked (rs : List Register) (s : State) (m : Mark) : KeepsOthers rs s (marked s m) :=
  ⟨fun _ => rfl, fun _ => rfl, fun _ => rfl, fun _ => rfl, fun _ => .of_dev rfl⟩

/-- Neither is the burst or the result. -/
theorem KeepsOthers.reply {rs : List Register} {s u : State} (k : KeepsOthers rs s u) (b : Burst) (r : Option OpResult) :
    KeepsOthers rs s { u with burst := b, result := r } :=
  ⟨k.status, k.ctr, k.wdelay, k.phase, fun h => have m := k.memory h; ⟨m.mem, m.latch, m.pending⟩⟩

/-- Actions of the lines, the bus and the device leave the write delay and the phase alone. -/
theorem Machine.Moves.keepsOthers {rs : List Register} {s u : State} (m : Moves s u)
    (status : .status ∉ rs → u.status = s.status) (ctr : .ctr ∉ rs → u.ctr = s.ctr)
    (memory : .memory ∉ rs → KeepsMemory s u) : KeepsOthers rs s u :=
  ⟨status, ctr, fun _ => m.wdelay, fun _ => m.phase, memory⟩

/-- Actions that leave the other three alone too. -/
theorem Machine.Moves.keepsAll {s u : State} (m : Moves s u) (q : Quiet s u) (k : KeepsMemory s u) : KeepsOthers [] s u :=
  m.keepsOthers (fun _ => q.status) (fun _ => q.ctr) (fun _ => k)

/-- The next state of an answer keeps the registers not listed. -/
def AnswerKeeps (rs : List Register) (s : State) (a : Answer) : Prop := ∀ t, a = .next t → KeepsOthers rs s t

theorem AnswerKeeps.mark {rs : List Register} {s : State} {a : Answer} {m : Mark} (e : a = .next (marked s m)) :
    AnswerKeeps rs s a := fun t h => by
  obtain rfl := Host.Outcome.next.inj (e.symm.trans h)
  exact .marked rs s m

/-- What the actions of a meaning keep is kept where it then closes or opens the burst and replies. -/
theorem KeepsOthers.answer {rs : List Register} {s u : State} {a : Answer} {b : Burst} {r : Option OpResult}
    (k : KeepsOthers rs s u) (e : a = .next { u with burst := b, result := r }) : AnswerKeeps rs s a := fun t h => by
  obtain rfl := Host.Outcome.next.inj (e.symm.trans h)
  exact k.reply b r

/-! ### The operations -/

theorem execReset_keepsOthers (s : State) : AnswerKeeps [.ctr] s (execReset s) := by
  rcases execReset_cases s with ⟨-, e⟩ | ⟨-, e⟩
  · exact .mark e
  · have k : KeepsOthers [.ctr] s ((resetHardware s).setCtr (some 0)) :=
      ((resetHardware_moves s).trans (setCtr_moves _ _)).keepsOthers (fun _ => by rw [resetHardware_eq]; rfl) (by simp)
        fun _ => .of_dev (by rw [resetHardware_eq]; rfl)
    exact k.answer e

theorem execAdvance_keepsOthers (n : BitVec 24) (s : State) : AnswerKeeps [.ctr] s (execAdvance n s) := by
  rcases execAdvance_cases n s with ⟨-, e⟩ | ⟨-, -, e⟩ | ⟨c, -, -, -, e⟩ | ⟨c, -, -, -, e⟩
  · exact .mark e
  · exact .mark e
  · exact .mark e
  · have k : KeepsOthers [.ctr] s ((advanceHardware n.toNat s).setCtr (some (c + n.toNat))) :=
      ((advanceHardware_moves n.toNat s).trans (setCtr_moves _ _)).keepsOthers (fun _ => by rw [advanceHardware_eq]; rfl)
        (by simp) fun _ => .of_dev (by rw [advanceHardware_eq]; rfl)
    exact k.answer e

theorem execGetcount_keepsOthers (s : State) : AnswerKeeps [] s (execGetcount s) := by
  rcases execGetcount_cases s with ⟨-, e⟩ | ⟨c, -, e⟩
  · exact .mark e
  · exact ((Moves.refl s).keepsAll (.refl s) (.refl s)).answer e

theorem execInit_keepsOthers (s : State) : AnswerKeeps [.phase] s (execInit s) := by
  rcases execInit_cases s with ⟨-, e⟩ | ⟨-, e⟩
  · exact .mark e
  · have k : KeepsOthers [.phase] s ((initBody s).setPhase .ready) := by
      rw [initBody_eq]
      exact ⟨fun _ => rfl, fun _ => rfl, fun _ => rfl, by simp, fun _ => .of_dev rfl⟩
    exact k.answer e

theorem resetMemoryBody_quiet (s : State) : Quiet s (resetMemoryBody s) := by
  unfold resetMemoryBody
  split
  · exact pIdle_quiet s
  · exact iStop_quiet s

theorem resetMemoryBody_keeps (s : State) : KeepsMemory s (resetMemoryBody s) := by
  unfold resetMemoryBody
  split
  · exact .of_dev (by rw [resetMemoryParallel, pIdle_eq])
  · exact iStop_keeps s

theorem execResetMemory_keepsOthers (s : State) : AnswerKeeps [] s (execResetMemory s) := by
  rcases execResetMemory_cases s with ⟨-, e⟩ | ⟨-, e⟩
  · exact .mark e
  · exact ((resetMemoryBody_moves s).keepsAll (resetMemoryBody_quiet s) (resetMemoryBody_keeps s)).answer e

theorem execStartSeqRead_keepsOthers (s : State) : AnswerKeeps [.status] s (execStartSeqRead s) := by
  rcases execStartSeqRead_cases s with ⟨r, e, -⟩ | ⟨c, -, -, e⟩
  · exact .mark e
  · have k : KeepsOthers [.status] s (startSeqReadBody c s).2 :=
      (startSeqReadBody_moves c s).keepsOthers (by simp) (fun _ => startSeqReadBody_ctr c s)
        fun _ => startSeqReadBody_keeps c s
    exact k.answer e

theorem execNextByte_keepsOthers (l : Bool) (s : State) : AnswerKeeps [.status] s (execNextByte l s) := by
  rcases execNextByte_cases l s with ⟨r, e, -⟩ | ⟨c, -, -, -, -, -, e⟩ | ⟨-, -, -, e⟩
  · exact .mark e
  · have k : KeepsOthers [.status] s (nextByteParallel l s).2.2 :=
      (nextByteParallel_moves l s).keepsOthers (by simp) (fun _ => nextByteParallel_ctr l s)
        fun _ => nextByteParallel_keeps l s
    exact k.answer (e.trans (closeNextByte_eq l _))
  · have k : KeepsOthers [.status] s (nextByteI2c l s).2.2 :=
      (nextByteI2c_moves l s).keepsOthers (by simp) (fun _ => nextByteI2c_ctr l s) fun _ => nextByteI2c_keeps l s
    exact k.answer (e.trans (closeNextByte_eq l _))

theorem execWriteByte_keepsOthers (v : Byte) (s : State) : AnswerKeeps [.status, .memory] s (execWriteByte v s) := by
  rcases execWriteByte_cases v s with ⟨r, e, -⟩ | ⟨c, -, -, e⟩
  · exact .mark e
  · have k : KeepsOthers [.status, .memory] s (writeByteBody c v s).2 :=
      (writeByteBody_moves c v s).keepsOthers (by simp) (fun _ => writeByteBody_ctr c v s) (by simp)
    exact k.answer e

theorem execWritePage_keepsOthers (page : List Byte) (s : State) :
    AnswerKeeps [.status, .ctr, .memory] s (execWritePage page s) := by
  rcases execWritePage_cases page s with ⟨-, e⟩ | ⟨-, ⟨r, e, -⟩ | ⟨c, -, -, e⟩ | ⟨c, -, -, -, e⟩⟩
  · exact .mark e
  · exact .mark e
  · exact ((setStatus_moves (some 0xFF) s).keepsOthers (by simp) (by simp) (by simp)).answer e
  · exact ((writePageBody_moves c page s).keepsOthers (by simp) (by simp) (by simp)).answer e

theorem execLastFailure_keepsOthers (s : State) : AnswerKeeps [] s (execLastFailure s) := by
  rcases execLastFailure_cases s with ⟨b, -, e⟩ | ⟨-, e⟩
  · exact ((Moves.refl s).keepsAll (.refl s) (.refl s)).answer e
  · exact ((draw_moves s).keepsAll ⟨rfl, rfl⟩ (.of_dev rfl)).answer e

theorem execSetWriteDelay_keepsOthers (d : BitVec 24) (s : State) : AnswerKeeps [.wdelay] s (execSetWriteDelay d s) := by
  have k : KeepsOthers [.wdelay] s (s.setWdelay d.toNat) :=
    ⟨fun _ => rfl, fun _ => rfl, by simp, fun _ => rfl, fun _ => .of_dev rfl⟩
  exact k.answer (execSetWriteDelay_eq d s)

theorem sdpRun_keepsOthers (seq : List (Nat × Byte)) (s : State) : AnswerKeeps [.ctr, .memory] s (sdpRun seq s) := by
  rcases sdpRun_cases seq s with ⟨-, e⟩ | ⟨-, -, ⟨r, e, -⟩ | ⟨-, -, -, e⟩⟩
  · exact .mark e
  · exact .mark e
  · have k : KeepsOthers [.ctr, .memory] s (delay s.wdelay (sdpSteps seq s)) :=
      ((sdpSteps_moves seq s).trans (delay_moves s.wdelay _)).keepsOthers
        (fun _ => (delay_quiet s.wdelay _).status.trans (sdpSteps_status seq s)) (by simp) (by simp)
    exact k.answer e

/-! ### The micro-operations -/

theorem onParallel_keepsOthers {rs : List Register} {s u : State} (k : KeepsOthers rs s u) (v : OpResult) :
    AnswerKeeps rs s (onParallel s (u.returns v)) := by
  rcases onParallel_cases s (u.returns v) with ⟨-, e⟩ | ⟨-, e⟩
  · exact k.answer (e.trans (returns_next u v))
  · exact .mark e

theorem onI2c_keepsOthers {rs : List Register} {s u : State} (k : KeepsOthers rs s u) (v : OpResult) :
    AnswerKeeps rs s (onI2c s (u.returns v)) := by
  rcases onI2c_cases s (u.returns v) with ⟨-, e⟩ | ⟨-, e⟩
  · exact k.answer (e.trans (returns_next u v))
  · exact .mark e

/-- Actions that leave status and counter alone, whatever the device does. -/
theorem Machine.Moves.keepsAllButMemory {s u : State} (m : Moves s u) (q : Quiet s u) : KeepsOthers [.memory] s u :=
  m.keepsOthers (fun _ => q.status) (fun _ => q.ctr) (by simp)

/-- Every instruction keeps the registers it is not a writer of. -/
theorem exec_keepsOthers (i : Instr) (s : State) : AnswerKeeps i.writes s (exec i s) := by
  cases i with
  | reset => exact execReset_keepsOthers s
  | advance n => exact execAdvance_keepsOthers n s
  | getcount => exact execGetcount_keepsOthers s
  | init => exact execInit_keepsOthers s
  | resetMemory => exact execResetMemory_keepsOthers s
  | startSeqRead => exact execStartSeqRead_keepsOthers s
  | nextByte l => exact execNextByte_keepsOthers l s
  | writeByte v => exact execWriteByte_keepsOthers v s
  | writePage page => exact execWritePage_keepsOthers page s
  | lastFailure => exact execLastFailure_keepsOthers s
  | setWriteDelay d => exact execSetWriteDelay_keepsOthers d s
  | sdpEnable => exact sdpRun_keepsOthers s.cfg.sdpEnableSeq s
  | sdpDisable => exact sdpRun_keepsOthers s.cfg.sdpDisableSeq s
  | pIdle => exact onParallel_keepsOthers ((pIdle_moves s).keepsAll (pIdle_quiet s) (.of_dev (by rw [pIdle_eq]))) _
  | pClkPulse => exact onParallel_keepsOthers ((pClkPulse_moves s).keepsAll ⟨rfl, rfl⟩ (.of_dev rfl)) _
  | pRstPulse => exact onParallel_keepsOthers ((pRstPulse_moves s).keepsAll ⟨rfl, rfl⟩ (.of_dev rfl)) _
  | pReadStrobe => exact onParallel_keepsOthers ((pReadStrobe_moves s).keepsAll (pReadStrobe_quiet s) (pReadStrobe_keeps s)) _
  | pWriteStrobe v => exact onParallel_keepsOthers ((pWriteStrobe_moves v s).keepsAllButMemory (pWriteStrobe_quiet v s)) _
  | pSelect l => exact onParallel_keepsOthers ((pSelect_moves l s).keepsAll (pSelect_quiet l s) (pSelect_keeps l s)) _
  | iStart => exact onI2c_keepsOthers ((iStart_moves s).keepsAll (iStart_quiet s) (iStart_keeps s)) _
  | iRepStart => exact onI2c_keepsOthers ((iRepStart_moves s).keepsAll (iRepStart_quiet s) (iRepStart_keeps s)) _
  | iStop => exact onI2c_keepsOthers ((iStop_moves s).keepsAll (iStop_quiet s) (iStop_keeps s)) _
  | iTx role v => exact onI2c_keepsOthers ((iTx_moves role v s).keepsAllButMemory (iTx_quiet role v s)) _
  | iRxAck => exact onI2c_keepsOthers ((iRxAck_moves s).keepsAll (iRxAck_quiet s) (iRxAck_keeps s)) _
  | iRxNack => exact onI2c_keepsOthers ((iRxNack_moves s).keepsAll (iRxNack_quiet s) (iRxNack_keeps s)) _
  | delay d => exact ((delay_moves d.toNat s).keepsAllButMemory (delay_quiet d.toNat s)).answer (execDelay_eq d s)

/-- Settles O49: an instruction that is none of a register's listed writers does not have it in its table. -/
theorem registersHaveTheirWriters : Obligations.RegistersHaveTheirWriters := by
  intro s t i h
  have k := exec_keepsOthers i s t h
  refine ⟨fun _ _ _ _ => k.status ?_, fun _ _ _ _ _ => k.ctr ?_, fun _ => k.wdelay ?_, fun _ => k.phase ?_,
    fun _ _ _ _ _ _ _ => ?_⟩
  · cases i <;> simp_all [Instr.writes]
  · cases i <;> simp_all [Instr.writes]
  · cases i <;> simp_all [Instr.writes]
  · cases i <;> simp_all [Instr.writes]
  · have untouched : .memory ∉ i.writes := by cases i <;> simp_all [Instr.writes]
    obtain ⟨mem, latch, pending⟩ := k.memory untouched
    exact ⟨mem, latch, pending⟩

/-! ## The invariant: the device's part -/

/-- The device between operations, of n bytes: canonical memory within it, nothing pending, the pointer within it. -/
structure DeviceInv (n : Nat) (d : Device) : Prop where
  memWf : Memory.wf d.mem = true
  memBelow : ∀ c ∈ d.mem, c.1 < n
  pending : d.pending = []
  ptr : d.ptr < n

theorem Inv.device {s : State} (h : Inv s) : DeviceInv s.cfg.capacity s.dev := ⟨h.memWf, h.memBelow, h.pending, h.ptr⟩

/-- Writes within the device keep its memory canonical and within it. -/
theorem DeviceInv.written {n : Nat} {d d' : Device} {A : Nat → Prop} (h : DeviceInv n d) (hw : WritesIn A d.mem d'.mem)
    (hA : ∀ a, A a → a < n) (hp : d'.pending = []) (hptr : d'.ptr < n) : DeviceInv n d' :=
  ⟨hw.wf h.memWf, hw.below hA h.memBelow, hp, hptr⟩

/-- Strobes within the device and a delay: what was loaded is written or lost, and nothing is pending. -/
theorem DeviceInv.delayed {n : Nat} {d : Device} {A : Nat → Prop} {u : State} (w : Nat) (h : DeviceInv n d)
    (hl : LoadsIn A d u.dev) (hA : ∀ a, A a → a < n) : DeviceInv n (devDelay w u).dev := by
  obtain ⟨hw, hp, hptr, -⟩ := hl.delayed w h.pending
  exact h.written hw hA hp (hptr ▸ h.ptr)

/-! ## The invariant: states it does not tell apart, and what is left to show of the others -/

/-- Nothing the invariant speaks of is the stream, the status, the delay, the trace, the mark, the result, or a draw. -/
theorem Inv.unseen {s t : State} (h : Inv s)
    (e : t = { s with stream := t.stream, status := t.status, wdelay := t.wdelay, trace := t.trace, mark := t.mark,
                      result := t.result, draws := t.draws }) : Inv t := by
  rw [e]
  exact ⟨h.config, h.origin, h.ctrBound, h.uninit, h.memWf, h.memBelow, h.pending, h.ptr, h.parallel, h.i2c⟩

theorem Inv.marked {s : State} (h : Inv s) (m : Mark) : Inv (marked s m) := h.unseen rfl

/-- In READY on PARALLEL the counters, the lines and the data bus are left to look at. -/
theorem Inv.parallel_next {s t : State} (h : Inv s) (hb : s.cfg.backend = .parallel)
    (e : t = { s with phase := t.phase, ctr := t.ctr, hwctr := t.hwctr, status := t.status, burst := t.burst,
                      lines := t.lines, dbusDir := t.dbusDir, dbusOut := t.dbusOut, trace := t.trace, result := t.result,
                      draws := t.draws })
    (hr : t.phase = .ready) (hc : ∀ c, t.ctr = some c → c ≤ s.cfg.capacity ∧ t.hwctr = c % 2 ^ s.cfg.ctrBits)
    (hw : t.hwctr < 2 ^ s.cfg.ctrBits) (hl : LinesBetween t) : Inv t := by
  obtain ⟨-, -, -, -, hbus, htx⟩ := h.parallel hb
  have hcfg : t.cfg = s.cfg := by rw [e]
  have hdev : t.dev = s.dev := by rw [e]
  have hnot : t.phase ≠ .uninit := by rw [hr]; nofun
  constructor
  case config => rw [hcfg]; exact h.config
  case origin => rw [e]; exact h.origin
  case ctrBound => rw [hcfg]; exact fun c k => (hc c k).1
  case uninit => exact fun k => absurd k hnot
  case memWf => rw [hdev]; exact h.memWf
  case memBelow => rw [hcfg, hdev]; exact h.memBelow
  case pending => rw [hdev]; exact h.pending
  case ptr => rw [hcfg, hdev]; exact h.ptr
  case parallel =>
    exact fun _ => ⟨by rw [hcfg]; exact fun c k => (hc c k).2, by rw [hcfg]; exact hw, fun k => absurd k hnot, fun _ => hl,
      by rw [e]; exact hbus, by rw [e]; exact htx⟩
  case i2c => rw [hcfg, hb]; nofun

/-- In READY on I2C the counter, the bus and the device are. -/
theorem Inv.i2c_next {s t : State} (h : Inv s) (hb : s.cfg.backend = .i2c)
    (e : t = { s with phase := t.phase, ctr := t.ctr, status := t.status, burst := t.burst, bus := t.bus,
                      txstate := t.txstate, trace := t.trace, result := t.result, oracle := t.oracle, draws := t.draws,
                      dev := t.dev })
    (hr : t.phase = .ready) (hc : ∀ c, t.ctr = some c → c ≤ s.cfg.capacity)
    (hnone : t.burst = .none → t.bus = .idle ∧ t.txstate = .idle)
    (hopened : t.burst = .opened → t.bus = .held ∧ (t.txstate = .slaveAddrReadAck ∨ t.txstate = .dataByteAck))
    (hd : DeviceInv s.cfg.capacity t.dev) : Inv t := by
  obtain ⟨-, -, hlines⟩ := h.i2c hb
  have hcfg : t.cfg = s.cfg := by rw [e]
  constructor
  case config => rw [hcfg]; exact h.config
  case origin => rw [e]; exact h.origin
  case ctrBound => rw [hcfg]; exact hc
  case uninit => exact fun k => by rw [hr] at k; cases k
  case memWf => exact hd.memWf
  case memBelow => rw [hcfg]; exact hd.memBelow
  case pending => exact hd.pending
  case ptr => rw [hcfg]; exact hd.ptr
  case parallel => rw [hcfg, hb]; nofun
  case i2c => exact fun _ => ⟨hnone, hopened, by rw [e]; exact hlines⟩

/-- So after bus steps, whatever the burst is set to and whatever is replied. -/
theorem Inv.busMoves {s u : State} {c : Option Nat} {b : Burst} {r : Option OpResult} (h : Inv s)
    (hb : s.cfg.backend = .i2c) (hr : s.phase = .ready) (m : BusMoves { s with ctr := c } u)
    (hc : ∀ x, c = some x → x ≤ s.cfg.capacity) (hd : DeviceInv s.cfg.capacity u.dev)
    (hnone : b = .none → u.bus = .idle ∧ u.txstate = .idle)
    (hopened : b = .opened → u.bus = .held ∧ (u.txstate = .slaveAddrReadAck ∨ u.txstate = .dataByteAck)) :
    Inv { u with burst := b, result := r } :=
  h.i2c_next hb (by rw [m.eq]) (m.moves.phase.trans hr) (fun x hx => hc x (m.ctr.symm.trans hx)) hnone hopened hd

/-- A delay after strobes within the device, from a state that meets the invariant but for what the strobes loaded. -/
theorem Inv.delayed {u : State} {d : Device} {A : Nat → Prop} (w : Nat) (h : Inv { u with dev := d })
    (hl : LoadsIn A d u.dev) (hA : ∀ a, A a → a < u.cfg.capacity) : Inv (delay w u) := by
  have hd : DeviceInv u.cfg.capacity (devDelay w u).dev := h.device.delayed w hl hA
  rw [delay_eq]
  exact ⟨h.config, h.origin, h.ctrBound, h.uninit, hd.memWf, hd.memBelow, hd.pending, hd.ptr, h.parallel, h.i2c⟩

/-- The next state of an answer meets the invariant. -/
def AnswerInv (a : Answer) : Prop := ∀ t, a = .next t → Inv t

theorem AnswerInv.of_next {a : Answer} {t : State} (e : a = .next t) (h : Inv t) : AnswerInv a := fun u hu => by
  obtain rfl := Host.Outcome.next.inj (e.symm.trans hu)
  exact h

/-! ## The operations keep the invariant -/

theorem execReset_inv {s : State} (h : Inv s) : AnswerInv (execReset s) := by
  rcases execReset_cases s with ⟨-, e⟩ | ⟨hr, e⟩
  · exact .of_next e (h.marked _)
  refine .of_next e ?_
  rw [resetHardware_eq]
  cases hb : s.cfg.backend with
  | parallel =>
    obtain ⟨-, -, -, hlines, -, -⟩ := h.parallel hb
    obtain ⟨hl, hdir⟩ := hlines hr
    refine h.parallel_next hb rfl hr (fun c hc => ?_) (Nat.two_pow_pos _) ⟨by simp only [hl, if_true], hdir⟩
    obtain rfl := Option.some.inj hc
    exact ⟨Nat.zero_le _, (Nat.zero_mod _).symm⟩
  | i2c =>
    obtain ⟨hnone, hopened, -⟩ := h.i2c hb
    refine h.i2c_next hb rfl hr (fun c hc => ?_) hnone hopened h.device
    obtain rfl := Option.some.inj hc
    exact Nat.zero_le _

theorem execAdvance_inv {s : State} (n : BitVec 24) (h : Inv s) : AnswerInv (execAdvance n s) := by
  rcases execAdvance_cases n s with ⟨-, e⟩ | ⟨-, -, e⟩ | ⟨c, -, -, -, e⟩ | ⟨c, hr, hctr, hle, e⟩
  · exact .of_next e (h.marked _)
  · exact .of_next e (h.marked _)
  · exact .of_next e (h.marked _)
  refine .of_next e ?_
  rw [advanceHardware_eq]
  cases hb : s.cfg.backend with
  | parallel =>
    obtain ⟨hhw, -, -, hlines, -, -⟩ := h.parallel hb
    obtain ⟨hl, hdir⟩ := hlines hr
    have hw : (if n.toNat = 0 then s.hwctr else (s.hwctr + n.toNat) % 2 ^ s.cfg.ctrBits) =
        (c + n.toNat) % 2 ^ s.cfg.ctrBits := by
      rw [hhw c hctr]
      split
      · next h0 => rw [h0, Nat.add_zero]
      · rw [Nat.mod_add_mod]
    simp only [if_true, hw]
    refine h.parallel_next hb rfl hr (fun x hx => ?_) (Nat.mod_lt _ (Nat.two_pow_pos _)) ⟨?_, hdir⟩
    · obtain rfl := Option.some.inj hx
      exact ⟨hle, rfl⟩
    · simp only [hl, ite_self]
  | i2c =>
    obtain ⟨hnone, hopened, -⟩ := h.i2c hb
    refine h.i2c_next hb rfl hr (fun x hx => ?_) hnone hopened h.device
    obtain rfl := Option.some.inj hx
    exact hle

theorem execGetcount_inv {s : State} (h : Inv s) : AnswerInv (execGetcount s) := by
  rcases execGetcount_cases s with ⟨-, e⟩ | ⟨c, -, e⟩
  · exact .of_next e (h.marked _)
  · exact .of_next e (h.unseen rfl)

theorem execInit_inv {s : State} (h : Inv s) : AnswerInv (execInit s) := by
  rcases execInit_cases s with ⟨-, e⟩ | ⟨hu, e⟩
  · exact .of_next e (h.marked _)
  refine .of_next e ?_
  have unset : ∀ c, s.ctr ≠ some c := fun c hc => nomatch (h.uninit hu).1.symm.trans hc
  rw [initBody_eq]
  cases hb : s.cfg.backend with
  | parallel =>
    obtain ⟨-, hw, -, -, -, -⟩ := h.parallel hb
    exact h.parallel_next hb rfl rfl (fun c hc => absurd hc (unset c)) hw ⟨rfl, rfl⟩
  | i2c => exact h.i2c_next hb rfl rfl (fun c hc => absurd hc (unset c)) (fun _ => ⟨rfl, rfl⟩) nofun h.device

theorem execResetMemory_inv {s : State} (h : Inv s) : AnswerInv (execResetMemory s) := by
  rcases execResetMemory_cases s with ⟨-, e⟩ | ⟨hr, e⟩
  · exact .of_next e (h.marked _)
  refine .of_next e ?_
  cases hb : s.cfg.backend with
  | parallel =>
    obtain ⟨hhw, hw, -, -, -, -⟩ := h.parallel hb
    simp only [resetMemoryBody, hb, resetMemoryParallel, pIdle_eq]
    exact h.parallel_next hb rfl hr (fun c hc => ⟨h.ctrBound c hc, hhw c hc⟩) hw ⟨rfl, rfl⟩
  | i2c =>
    simp only [resetMemoryBody, hb, resetMemoryI2c, iStop_eq]
    exact h.i2c_next hb rfl hr h.ctrBound (fun _ => ⟨rfl, rfl⟩) nofun ⟨h.memWf, h.memBelow, h.pending, h.ptr⟩

theorem execStartSeqRead_inv {s : State} (h : Inv s) : AnswerInv (execStartSeqRead s) := by
  rcases execStartSeqRead_cases s with ⟨r, e, -⟩ | ⟨c, ⟨hr, -, -⟩, hlt, e⟩
  · exact .of_next e (h.marked _)
  refine .of_next e ?_
  cases hb : s.cfg.backend with
  | parallel =>
    obtain ⟨hhw, hw, -, hlines, -, -⟩ := h.parallel hb
    obtain ⟨hl, hdir⟩ := hlines hr
    simp only [startSeqReadBody, hb, startSeqReadParallel, pSelect_true]
    exact h.parallel_next hb rfl hr (fun c hc => ⟨h.ctrBound c hc, hhw c hc⟩) hw ⟨by simp [hl], rfl⟩
  | i2c =>
    have h16 : c < 65536 := Nat.lt_of_lt_of_le hlt (configOk_i2c h.config hb).1
    obtain ⟨m, ⟨p, hi, hd, hp⟩, ok, bad⟩ := startSeqReadI2c_spec hlt h16 h.pending
    have hlt' : p < s.cfg.capacity := by
      rcases hp with rfl | rfl
      · exact hlt
      · exact h.ptr
    simp only [startSeqReadBody, hb]
    generalize startSeqReadI2c c s = q at *
    obtain ⟨success, u⟩ := q
    have hdev : DeviceInv s.cfg.capacity u.dev := hd ▸ ⟨h.memWf, h.memBelow, h.pending, hlt'⟩
    cases success with
    | true => exact h.busMoves hb hr m h.ctrBound hdev nofun fun _ => ⟨(ok rfl).1, .inl (ok rfl).2⟩
    | false => exact h.busMoves hb hr m h.ctrBound hdev (fun _ => bad rfl) nofun

/-- NEXT_BYTE's body on PARALLEL: OE is deasserted after the strobe, and CE too after the last byte (rule R158). -/
theorem nextByteParallel_spec (l : Bool) (s : State) : ∃ b tr x n, nextByteParallel l s = (b, true,
    { s with lines := { s.lines with oe := .deasserted, ce := if l then .deasserted else s.lines.ce }, trace := tr,
             status := x, draws := n }) := by
  obtain ⟨n, h⟩ := pReadStrobe_spec s
  unfold nextByteParallel
  cases l with
  | false => exact ⟨_, _, _, _, by simp only [Bool.false_eq_true, if_false, h]; rfl⟩
  | true => exact ⟨_, _, _, _, by simp only [if_true, h, pSelect_false]; rfl⟩

theorem execNextByte_inv {s : State} (l : Bool) (h : Inv s) : AnswerInv (execNextByte l s) := by
  rcases execNextByte_cases l s with ⟨r, e, -⟩ | ⟨c, hb, hr, ho, -, -, e⟩ | ⟨hb, hr, ho, e⟩
  · exact .of_next e (h.marked _)
  · obtain ⟨hhw, hw, -, hlines, -, -⟩ := h.parallel hb
    obtain ⟨hl, hdir⟩ := hlines hr
    obtain ⟨b, tr, x, n, hq⟩ := nextByteParallel_spec l s
    refine .of_next (e.trans (closeNextByte_eq l _)) ?_
    rw [hq]
    exact h.parallel_next hb rfl hr (fun c hc => ⟨h.ctrBound c hc, hhw c hc⟩) hw ⟨by cases l <;> simp [hl, ho], hdir⟩
  · obtain ⟨-, hopened, -⟩ := h.i2c hb
    obtain ⟨m, hd, more, last⟩ := nextByteI2c_spec l s h.pending
    have hlt : (s.dev.ptr + 1) % s.cfg.capacity < s.cfg.capacity := Nat.mod_lt _ (Nat.zero_lt_of_lt h.ptr)
    refine .of_next (e.trans (closeNextByte_eq l _)) ?_
    generalize nextByteI2c l s = q at *
    obtain ⟨b, ok, u⟩ := q
    have hdev : DeviceInv s.cfg.capacity u.dev := hd ▸ ⟨h.memWf, h.memBelow, h.pending, hlt⟩
    by_cases hend : ok = false ∨ l = true
    · have hclosed : (if l || !ok then Burst.none else u.burst) = .none := if_pos (by rcases hend with rfl | rfl <;> simp)
      exact h.busMoves hb hr m h.ctrBound hdev (fun _ => last hend) fun hopen => nomatch hclosed.symm.trans hopen
    · obtain ⟨rfl, rfl⟩ : ok = true ∧ l = false := by simpa using hend
      obtain ⟨hbus, htx⟩ := more rfl rfl
      exact h.busMoves hb hr m h.ctrBound hdev (fun hnone => nomatch (m.moves.burst.trans ho).symm.trans hnone)
        fun _ => ⟨hbus.trans (hopened ho).1, .inr htx⟩

/-- One strobe in READY on PARALLEL keeps the invariant but for what it loads. -/
theorem Inv.strobed {s : State} (h : Inv s) (hb : s.cfg.backend = .parallel) (hr : s.phase = .ready) (hn : s.burst = .none)
    (v : Byte) : Inv { pWriteStrobe v s with dev := s.dev } := by
  obtain ⟨hhw, hw, -, hlines, -, -⟩ := h.parallel hb
  obtain ⟨hl, -⟩ := hlines hr
  rw [pWriteStrobe_eq]
  exact h.parallel_next hb rfl hr (fun c hc => ⟨h.ctrBound c hc, hhw c hc⟩) hw ⟨by simp [hl, hn], rfl⟩

theorem execWriteByte_inv {s : State} (v : Byte) (h : Inv s) : AnswerInv (execWriteByte v s) := by
  rcases execWriteByte_cases v s with ⟨r, e, -⟩ | ⟨c, ⟨hr, hn, hctr⟩, hlt, e⟩
  · exact .of_next e (h.marked _)
  refine .of_next e ?_
  obtain ⟨h64, hpos⟩ := configOk_pages h.config
  cases hb : s.cfg.backend with
  | parallel =>
    have loads : LoadsIn (· = s.hwctr % s.cfg.capacity) s.dev (pWriteStrobe v s).dev := by
      rw [pWriteStrobe_eq]; exact devWrite_loads _ v s
    have within : ∀ a, a = s.hwctr % s.cfg.capacity → a < (pWriteStrobe v s).cfg.capacity := fun a ha => by
      rw [(pWriteStrobe_moves v s).cfg, ha]
      exact Nat.mod_lt _ (Nat.zero_lt_of_lt h.ptr)
    simp only [writeByteBody, hb, writeByteParallel]
    exact ((h.strobed hb hr hn v).delayed s.wdelay loads within).unseen rfl
  | i2c =>
    have h16 : c < 65536 := Nat.lt_of_lt_of_le hlt (configOk_i2c h.config hb).1
    obtain ⟨k, m, hbus, htx, -, -, hp, -, hw, hptr⟩ := writeTransaction_spec (count := false) (bytes := [v]) hlt h16 hctr
      h.pending (by simp; omega) (by simp) hb
    have hd : DeviceInv s.cfg.capacity (writeTransaction false c [v] s).2.dev :=
      h.device.written hw (fun a ha => by simp at ha; omega) hp (hptr _ h.ptr hlt h64)
    simp only [writeByteBody, hb, writeByteI2c]
    exact h.busMoves hb hr m h.ctrBound hd (fun _ => ⟨hbus, htx⟩) fun ho => nomatch (m.moves.burst.trans hn).symm.trans ho

theorem execWritePage_inv {s : State} (page : List Byte) (h : Inv s) : AnswerInv (execWritePage page s) := by
  rcases execWritePage_cases page s with ⟨-, e⟩ | ⟨hlen, ⟨r, e, -⟩ | ⟨c, -, -, e⟩ | ⟨c, ⟨hr, hn, hctr⟩, hal, hlt, e⟩⟩
  · exact .of_next e (h.marked _)
  · exact .of_next e (h.marked _)
  · exact .of_next e (h.unseen rfl)
  refine .of_next e ?_
  obtain ⟨h64, hpos⟩ := configOk_pages h.config
  have room : c + page.length ≤ s.cfg.capacity := by omega
  have hne : page ≠ [] := by rintro rfl; simp at hlen
  cases hb : s.cfg.backend with
  | parallel =>
    obtain ⟨hhw, hw, -, hlines, -, -⟩ := h.parallel hb
    obtain ⟨hl, -⟩ := hlines hr
    obtain ⟨o, d, n, hu, loads, -, -⟩ := strobePage_spec page s c hctr (hhw c hctr) room (configOk_parallel h.config hb).1
    have strobed : Inv { strobePage page s with dev := s.dev } := by
      rw [hu]
      refine h.parallel_next hb rfl hr (fun x hx => ?_) (Nat.mod_lt _ (Nat.two_pow_pos _)) ⟨?_, if_neg hne⟩
      · obtain rfl := Option.some.inj hx
        exact ⟨room, rfl⟩
      · simp [hl, hn, hne]
    have within : ∀ a, (c ≤ a ∧ a < c + page.length) → a < (strobePage page s).cfg.capacity := fun a ha => by
      rw [(strobePage_moves page s).cfg]; omega
    simp only [writePageBody, hb, writePageParallel]
    exact (strobed.delayed s.wdelay (by rw [hu]; exact loads) within).unseen rfl
  | i2c =>
    have h16 : c < 65536 := Nat.lt_of_lt_of_le hlt (configOk_i2c h.config hb).1
    obtain ⟨k, m, hbus, htx, done, stopped, hp, -, hw, hptr⟩ := writeTransaction_spec (count := true) (bytes := page) hlt h16
      hctr h.pending (by omega) (by omega) hb
    have hk : k ≤ page.length := by
      cases hok : (writeTransaction true c page s).1 with
      | true => exact Nat.le_of_eq (done hok)
      | false => exact Nat.le_of_lt (stopped hok)
    have hd : DeviceInv s.cfg.capacity (writeTransaction true c page s).2.dev :=
      h.device.written hw (fun a ha => by omega) hp (hptr _ h.ptr hlt h64)
    simp only [writePageBody, hb, writePageI2c]
    refine h.busMoves hb hr m (fun x hx => ?_) hd (fun _ => ⟨hbus, htx⟩)
      fun ho => nomatch (m.moves.burst.trans hn).symm.trans ho
    obtain rfl := Option.some.inj hx
    omega

theorem execLastFailure_inv {s : State} (h : Inv s) : AnswerInv (execLastFailure s) := by
  rcases execLastFailure_cases s with ⟨b, -, e⟩ | ⟨-, e⟩
  · exact .of_next e (h.unseen rfl)
  · exact .of_next e (h.unseen rfl)

/-- The counter after an SDP sequence is its last offset, and the hardware counter shows it (rule R170). -/
theorem sdpRun_inv {s : State} {seq : List (Nat × Byte)} (hseq : seq ≠ []) (h : Inv s) : AnswerInv (sdpRun seq s) := by
  rcases sdpRun_cases seq s with ⟨-, e⟩ | ⟨hb, -, ⟨r, e, -⟩ | ⟨hr, hn, hlt, e⟩⟩
  · exact .of_next e (h.marked _)
  · exact .of_next e (h.marked _)
  refine .of_next e ?_
  have hcap := (configOk_parallel h.config hb).1
  obtain ⟨-, -, -, hlines, -, -⟩ := h.parallel hb
  obtain ⟨hl, -⟩ := hlines hr
  obtain ⟨L, w, o, d, n, hu, loads, idle, -⟩ := sdpSteps_spec seq s hlt hcap
  obtain ⟨rfl, rfl⟩ := idle hseq (by rw [hl])
  have last : seq.getLast? = some (seq.getLast hseq) := List.getLast?_eq_some_getLast hseq
  have hlast : (seq.getLast hseq).1 < s.cfg.capacity := hlt _ (List.getLast_mem hseq)
  have hw : (seq.getLast hseq).1 < 2 ^ s.cfg.ctrBits := Nat.lt_of_lt_of_le hlast hcap
  have stepped : Inv { sdpSteps seq s with dev := s.dev } := by
    rw [hu, last]
    refine h.parallel_next hb rfl hr (fun x hx => ?_) hw ⟨by simp [hn], rfl⟩
    obtain rfl := Option.some.inj hx
    exact ⟨Nat.le_of_lt hlast, (Nat.mod_eq_of_lt hw).symm⟩
  have within : ∀ a ∈ seq.map (·.1), a < (sdpSteps seq s).cfg.capacity := fun a ha => by
    obtain ⟨p, hp, rfl⟩ := List.mem_map.1 ha
    rw [(sdpSteps_moves seq s).cfg]
    exact hlt p hp
  exact (stepped.delayed s.wdelay (by rw [hu]; exact loads) within).unseen rfl

/-- Every operation of the caller keeps the invariant. -/
theorem exec_inv {s : State} {i : Instr} (hi : i.isMicro = false) (h : Inv s) : AnswerInv (exec i s) := by
  obtain ⟨enable, disable⟩ := configOk_sdp h.config
  cases i with
  | reset => exact execReset_inv h
  | advance n => exact execAdvance_inv n h
  | getcount => exact execGetcount_inv h
  | init => exact execInit_inv h
  | resetMemory => exact execResetMemory_inv h
  | startSeqRead => exact execStartSeqRead_inv h
  | nextByte l => exact execNextByte_inv l h
  | writeByte v => exact execWriteByte_inv v h
  | writePage page => exact execWritePage_inv page h
  | lastFailure => exact execLastFailure_inv h
  | setWriteDelay d => exact .of_next (execSetWriteDelay_eq d s) (h.unseen rfl)
  | sdpEnable => exact sdpRun_inv (List.ne_nil_of_length_pos (by omega)) h
  | sdpDisable => exact sdpRun_inv (List.ne_nil_of_length_pos (by omega)) h
  | _ => cases hi

/-! ## The step keeps the invariant -/

/-- What a caller's stream is run for is no micro-operation (rule R88). -/
theorem isMicro_of_fetch {s : State} {i : Instr} {rest : List Byte} (ho : s.origin = .caller) (h : fetch s = .run i rest) :
    i.isMicro = false := by
  unfold fetch at h
  split at h
  · cases h
  split at h
  · cases h
  next hissue =>
    split at h
    · next hd =>
      cases h
      obtain ⟨b2, b1, b0, tail, hs⟩ := stream_of_decode hd
      rw [ho, hs] at hissue
      exact Bool.eq_false_of_not_eq_true hissue
    · cases h

/-- Settles O54: a step waits, refuses its request with a mark, or runs an operation of the caller past its request. -/
theorem invariantIsKept : Obligations.InvariantIsKept := by
  intro s t h
  suffices AnswerInv (step s) from this t
  have past (rest : List Byte) : Inv (s.setStream rest) := h.unseen rfl
  unfold step
  split
  · exact .of_next rfl h
  · next r rest _ => exact .of_next rfl ((past rest).marked (.refused r))
  · next i rest hf => exact exec_inv (isMicro_of_fetch h.origin hf) (past rest)

end Sys2Proof

/-! # Proofs for 20_memory.md: the round trip, the read step that aborts, and the writes that are lost -/

namespace Sys2Proof

open Machine

/-! ## The commit and the delay -/

namespace Machine

/-- A locked latch drops the pending writes that are no SDP sequence, as any number of them but six is (rules R64, R170). -/
theorem commit_locked {s : State} (hc : configOk s.cfg = true) (hb : s.cfg.backend = .parallel) (hsdp : s.cfg.devSdp = true)
    (hl : s.dev.latch = .locked) (h6 : s.dev.pending.length ≠ 6) : commit s = s := by
  obtain ⟨enable, disable⟩ := configOk_sdp hc
  have e1 : (s.dev.pending == s.cfg.sdpEnableSeq) = false := beq_eq_false_iff_ne.2 fun e => h6 (e ▸ enable)
  have e2 : (s.dev.pending == s.cfg.sdpDisableSeq) = false := beq_eq_false_iff_ne.2 fun e => h6 (e ▸ disable)
  simp only [commit, hb, commitParallel, e1, e2, hsdp, hl, Bool.and_false, Bool.false_eq_true, if_false, beq_self_eq_true,
    Bool.and_self, if_true]

/-- A delay too short for the device: what was pending is lost, and the write cycle goes on (rule R63). -/
theorem devDelay_short {s : State} {d : Nat} (h : devOccupied s = true) (hd : writeDelayOk s.cfg d = false) :
    devDelay d s = ((spoilAll (s.dev.pending.map (·.1)) s).setPending []).setBusy true := by
  simp only [devDelay, h, hd, if_true, Bool.false_eq_true, if_false]

theorem devOccupied_of_pending {s : State} (h : s.dev.pending ≠ []) : devOccupied s = true :=
  devOccupied_iff.2 fun hi => h hi.2

/-- A good delay brings a page's pending writes to the memory of an unlocked parallel device (rules R63, R64). -/
theorem devDelay_onePage {s : State} {d : Nat} (hc : configOk s.cfg = true) (hb : s.cfg.backend = .parallel)
    (hu : Unlocked s) (hne : s.dev.pending ≠ []) (hp : inOnePage s.dev.pending = true) (h6 : s.dev.pending.length ≠ 6)
    (hd : writeDelayOk s.cfg d = true) : devDelay d s =
      { s with dev := { s.dev with mem := memWriteAll s.dev.mem s.dev.pending, pending := [], busy := false } } := by
  rw [devDelay_good (devOccupied_of_pending hne) hd, commit_onePage hc hb hu hp h6]
  rfl

theorem length_consecutive (bytes : List Byte) : ∀ a, (consecutive a bytes).length = bytes.length := by
  induction bytes with
  | nil => exact fun _ => rfl
  | cons b l ih => exact fun a => by simp [consecutive, ih]

/-- Bytes written at consecutive addresses are read back in their order. -/
theorem map_memRead_consecutive (m : Memory) (c : Nat) (bytes : List Byte) :
    (List.range' c bytes.length).map (memRead (memWriteAll m (consecutive c bytes))) = bytes := by
  apply List.ext_getElem
  · simp
  · intro i _ hi
    rw [List.getElem_map, List.getElem_range', Nat.one_mul, memRead_consecutive bytes m c i hi, List.getD_eq_getElem _ _ hi]

/-! ## The bodies where nothing goes wrong -/

/-- WRITE_PAGE's body on PARALLEL to an idle, unlocked device with good holds and a good delay (rules R162, R62 to R64). -/
theorem writePageParallel_good {s : State} {c : Nat} {page : List Byte} (hc : configOk s.cfg = true)
    (hb : s.cfg.backend = .parallel) (hctr : s.ctr = some c) (hhw : s.hwctr = c % 2 ^ s.cfg.ctrBits) (ha : c % 64 = 0)
    (hroom : c + 64 ≤ s.cfg.capacity) (hp : page.length = 64) (hi : DeviceIdle s) (hu : Unlocked s)
    (hh : s.cfg.holdOk = true) (hd : writeDelayOk s.cfg s.wdelay = true) : ∃ o, writePageParallel page s = (true,
      { s with lines := ⟨.deasserted, .deasserted, .deasserted, .deasserted, s.lines.rst⟩, dbusDir := .input, dbusOut := o,
               ctr := some (c + 64), hwctr := (c + 64) % 2 ^ s.cfg.ctrBits,
               trace := s.trace ++ pageEvents page ++ [.delay s.wdelay], status := some (Config.freeByte s.draws),
               draws := s.draws + 1, dev := { s.dev with mem := memWriteAll s.dev.mem (consecutive c page) } }) := by
  obtain ⟨busy, pending⟩ := hi
  have hne : page ≠ [] := List.ne_nil_of_length_pos (by omega)
  have hlen : (consecutive c page).length = 64 := (length_consecutive page c).trans hp
  obtain ⟨o, d, n, hs, -, -, good⟩ := strobePage_spec page s c hctr hhw (by omega) (configOk_parallel hc hb).1
  obtain ⟨rfl, rfl⟩ := good busy hh
  rw [pending, List.nil_append, hp, if_neg hne, if_neg hne] at hs
  refine ⟨o, ?_⟩
  rw [writePageParallel, hs, delay_eq, devDelay_onePage]
  · simp [busy, pending, State.setStatus, State.setDraws]
  exacts [hc, hb, hu, List.ne_nil_of_length_pos (by simp only [hlen]; decide), inOnePage_consecutive ha (Nat.le_of_eq hp),
    by simp only [hlen]; decide, hd]

/-- START_SEQ_READ's body on I2C with the expected answers (rule R204). -/
theorem startSeqReadI2c_expected {s : State} {c : Nat} (hc : configOk s.cfg = true) (hlt : c < s.cfg.capacity)
    (h16 : c < 65536) (h : AnswersExpected 6 s.oracle) : startSeqReadI2c c s = (true,
      { s with bus := .held, txstate := .slaveAddrReadAck, status := some s.cfg.expSlaRAck, oracle := oracleAfter 6 s.oracle,
               trace := s.trace ++ readFrameEvents s.cfg c, dev := { s.dev with ptr := c, addrHi := addrHiByte c } }) := by
  simp only [startSeqReadI2c, readFrame_expected hc hlt h16 h, if_true]

/-- NEXT_BYTE's body on PARALLEL between operations of a burst, with an idle device and good holds (rules R158, R61). -/
theorem nextByteParallel_good {s : State} (l : Bool) (ho : s.burst = .opened) (hl : LinesBetween s) (hi : DeviceIdle s)
    (hh : s.cfg.holdOk = true) :
    let b := memRead s.dev.mem (s.hwctr % s.cfg.capacity)
    nextByteParallel l s = (b, true,
      { s with lines := ⟨if l then .deasserted else .asserted, .deasserted, .deasserted, .deasserted, .deasserted⟩,
               status := some (Config.freeByte s.draws), draws := s.draws + 1,
               trace := s.trace ++ (if l then [.pReadStrobe b, .pSelect false] else [.pReadStrobe b]) }) := by
  obtain ⟨hlines, hdir⟩ := hl
  rw [if_pos ho] at hlines
  have hr := pReadStrobe_good (by rw [hlines]) (by rw [hlines]) hdir (devOccupied_of_idle hi) hh
  cases l
  · simp only [nextByteParallel, hr, hlines]; rfl
  · simp only [nextByteParallel, hr, hlines, pSelect_false, List.append_assoc]; rfl

/-- NEXT_BYTE's body on I2C with the expected answer and an idle device (rules R205, R67). -/
theorem nextByteI2c_expected {s : State} (l : Bool) (hc : configOk s.cfg = true) (h : AnswersExpected 1 s.oracle)
    (hi : DeviceIdle s) :
    let b := memRead s.dev.mem s.dev.ptr
    nextByteI2c l s = (b, true,
      { s with oracle := oracleAfter 1 s.oracle, dev := { s.dev with ptr := (s.dev.ptr + 1) % s.cfg.capacity },
               bus := if l then .idle else s.bus, txstate := if l then .idle else .dataByteAck,
               status := some (if l then s.cfg.expRxNack else s.cfg.expRxAck),
               trace := s.trace ++ (if l then [.iRxNack b s.cfg.expRxNack .dataByteNack, .iStop .stop]
                 else [.iRxAck b s.cfg.expRxAck .dataByteAck]) }) := by
  have hd := devOccupied_of_idle hi
  obtain ⟨busy, pending⟩ := hi
  cases l
  · simp only [nextByteI2c, iRxAck_expected hc h hd, endNextByte, Bool.false_eq_true, if_false, if_true]; rfl
  · simp only [nextByteI2c, iRxNack_expected hc h hd, endNextByte, if_true, iStop_eq]
    simp [busy, pending, State.setStatus]

end Machine

/-! ## Reading back -/

/-- A state READY at counter c whose memory can be read: the device is idle, the holds are good and the bus is cooperative. -/
structure Readable (s : State) (c : Nat) : Prop where
  inv : Inv s
  ready : s.phase = .ready
  ctr : s.ctr = some c
  idle : DeviceIdle s
  hold : s.cfg.holdOk = true
  bus : s.cfg.backend = .i2c → Cooperative s

theorem issue_of_next {i : Instr} {s t : State} (h : exec i s = .next t) : issue i s = t := by rw [issue, h]

/-- An operation of the caller leaves a readable state where it leaves the device idle and uses up only answers of the bus. -/
theorem Readable.next {s t : State} {c c' : Nat} {i : Instr} (h : Readable s c) (hi : i.isMicro = false)
    (e : exec i s = .next t) (cfg : t.cfg = s.cfg) (ready : t.phase = s.phase) (ctr : t.ctr = some c') (idle : DeviceIdle t)
    {n : Nat} (oracle : t.oracle = oracleAfter n s.oracle) : Readable t c' where
  inv := exec_inv hi h.inv t e
  ready := ready.trans h.ready
  ctr := ctr
  idle := idle
  hold := cfg ▸ h.hold
  bus := fun hb => cooperative_after (h.bus (cfg ▸ hb)) oracle

theorem Readable.linesBetween {s : State} {c : Nat} (h : Readable s c) (hb : s.cfg.backend = .parallel) : LinesBetween s := by
  obtain ⟨-, -, -, lines, -, -⟩ := h.inv.parallel hb
  exact lines h.ready

/-- The hardware counter shows the counter (rule R22). -/
theorem Readable.hwctr {s : State} {c : Nat} (h : Readable s c) (hb : s.cfg.backend = .parallel) :
    s.hwctr = c % 2 ^ s.cfg.ctrBits :=
  (h.inv.parallel hb).1 c h.ctr

/-- So the device sees it as its address (rules R22, R57). -/
theorem Readable.address {s : State} {c : Nat} (h : Readable s c) (hb : s.cfg.backend = .parallel)
    (hlt : c < s.cfg.capacity) : s.hwctr % s.cfg.capacity = c := by
  have hcap := (configOk_parallel h.inv.config hb).1
  rw [h.hwctr hb, Nat.mod_eq_of_lt (Nat.lt_of_lt_of_le hlt hcap), Nat.mod_eq_of_lt hlt]

/-! ### RESET and ADVANCE -/

theorem Readable.reset {s : State} {c : Nat} (h : Readable s c) : ∃ t, exec .reset s = .next t ∧ Readable t 0 ∧
    t.cfg = s.cfg ∧ t.burst = s.burst ∧ t.dev = s.dev := by
  rcases execReset_cases s with ⟨hu, -⟩ | ⟨-, e⟩
  · cases h.ready.symm.trans hu
  rw [resetHardware_eq] at e
  exact ⟨_, e, h.next (i := .reset) rfl e rfl rfl rfl h.idle (n := 0) rfl, rfl, rfl, rfl⟩

theorem Readable.advance {s : State} {c : Nat} (h : Readable s c) {n : BitVec 24} (hle : c + n.toNat ≤ s.cfg.capacity) :
    ∃ t, exec (.advance n) s = .next t ∧ Readable t (c + n.toNat) ∧
      t.cfg = s.cfg ∧ t.burst = s.burst ∧ t.dev = s.dev ∧ t.result = some .unit := by
  have e := exec_advance_ready h.ready h.ctr hle
  rw [advanceHardware_eq] at e
  exact ⟨_, e, h.next (i := .advance n) rfl e rfl rfl rfl h.idle (n := 0) rfl, rfl, rfl, rfl, rfl⟩

/-! ### WRITE_PAGE -/

/-- A page written with a good delay to an unlocked device is in memory, on both backends. -/
theorem Readable.writePage {s : State} {c : Nat} (h : Readable s c) {page : List Byte} (hn : s.burst = .none)
    (hlt : c < s.cfg.capacity) (ha : c % 64 = 0) (hp : page.length = 64) (hu : Unlocked s)
    (hd : writeDelayOk s.cfg s.wdelay = true) : ∃ t, exec (.writePage page) s = .next t ∧ Readable t (c + 64) ∧
      t.cfg = s.cfg ∧ t.burst = .none ∧ t.result = some (.flag true) ∧
      t.dev.mem = memWriteAll s.dev.mem (consecutive c page) := by
  have e := exec_writePage_ready ⟨h.ready, hn, h.ctr⟩ hlt ha hp
  have hc := h.inv.config
  obtain ⟨h64, -⟩ := configOk_pages hc
  cases hb : s.cfg.backend with
  | parallel =>
    obtain ⟨o, hw⟩ := writePageParallel_good hc hb h.ctr (h.hwctr hb) ha (by omega) hp h.idle hu h.hold hd
    simp only [writePageBody, hb, hw] at e
    exact ⟨_, e, h.next rfl e rfl rfl rfl h.idle (n := 0) rfl, rfl, hn, rfl, rfl⟩
  | i2c =>
    have h16 : c < 65536 := Nat.lt_of_lt_of_le hlt (configOk_i2c hc hb).1
    obtain ⟨p, hw⟩ := writeTransaction_expected (count := true) (bytes := page) hc hb hlt h16
      (List.ne_nil_of_length_pos (by omega)) (by omega) (answersExpected_of_cooperative (h.bus hb) _) h.idle.1 h.idle.2 hd
    simp only [writePageBody, hb, writePageI2c, hw] at e
    refine ⟨_, e, h.next rfl e rfl rfl ?_ h.idle rfl, rfl, hn, rfl, rfl⟩
    simp [h.ctr, hp]

/-! ### The dump -/

/-- k bytes of the memory m, from counter c on, are still to be dumped: the burst is open while any is left, and the I2C device's
pointer follows the counter (rules R59, R246). -/
structure Dumping (m : Memory) (k : Nat) (s : State) (c : Nat) : Prop extends Readable s c where
  mem : s.dev.mem = m
  burst : s.burst = if k = 0 then .none else .opened
  room : c + k ≤ s.cfg.capacity
  ptr : s.cfg.backend = .i2c → s.dev.ptr = c % s.cfg.capacity

theorem Readable.startSeqRead {s : State} {c : Nat} (h : Readable s c) {n : Nat} (hn : s.burst = .none) (hpos : 0 < n)
    (room : c + n ≤ s.cfg.capacity) :
    ∃ t, exec .startSeqRead s = .next t ∧ Dumping s.dev.mem n t c ∧ t.result = some (.flag true) := by
  have hlt : c < s.cfg.capacity := by omega
  have e := exec_startSeqRead_ready ⟨h.ready, hn, h.ctr⟩ hlt
  have opened : Burst.opened = if n = 0 then .none else .opened := (if_neg (by omega)).symm
  cases hb : s.cfg.backend with
  | parallel =>
    rw [startSeqReadBody_parallel c hb, pSelect_true] at e
    have k := h.next rfl e rfl rfl h.ctr h.idle (n := 0) rfl
    exact ⟨_, e, ⟨k, rfl, opened, room, fun hi => nomatch hb.symm.trans hi⟩, rfl⟩
  | i2c =>
    have h16 : c < 65536 := Nat.lt_of_lt_of_le hlt (configOk_i2c h.inv.config hb).1
    have hs := startSeqReadI2c_expected h.inv.config hlt h16 (answersExpected_of_cooperative (h.bus hb) 6)
    simp only [startSeqReadBody, hb, hs] at e
    have k := h.next rfl e rfl rfl h.ctr h.idle rfl
    exact ⟨_, e, ⟨k, rfl, opened, room, fun _ => (Nat.mod_eq_of_lt hlt).symm⟩, rfl⟩

/-- NEXT_BYTE in a dump returns the byte at the counter, and closes the burst on the last one. -/
theorem Dumping.nextByte {m : Memory} {k c : Nat} {s : State} (h : Dumping m (k + 1) s c) :
    ∃ t, exec (.nextByte (k == 0)) s = .next t ∧ Readable t c ∧ t.cfg = s.cfg ∧ t.dev.mem = m ∧
      t.burst = (if k = 0 then .none else .opened) ∧ (s.cfg.backend = .i2c → t.dev.ptr = (c + 1) % s.cfg.capacity) ∧
      t.result = some (.byteFlag (memRead m c) true) := by
  have ho : s.burst = .opened := h.burst
  have hlt : c < s.cfg.capacity := by have := h.room; omega
  cases hb : s.cfg.backend with
  | parallel =>
    have e := exec_nextByte_parallel (k == 0) h.ready ho h.ctr hlt hb
    rw [nextByteParallel_good _ ho (h.linesBetween hb) h.idle h.hold, closeNextByte_eq, h.address hb hlt, h.mem] at e
    refine ⟨_, e, h.next rfl e rfl rfl h.ctr h.idle (n := 0) rfl, rfl, h.mem, ?_, nofun, rfl⟩
    simp [ho]
  | i2c =>
    have e := exec_nextByte_i2c (k == 0) h.ready ho hb
    rw [nextByteI2c_expected _ h.inv.config (answersExpected_of_cooperative (h.bus hb) 1) h.idle, closeNextByte_eq,
      h.ptr hb, Nat.mod_eq_of_lt hlt, h.mem] at e
    refine ⟨_, e, h.next rfl e rfl rfl h.ctr h.idle rfl, rfl, h.mem, ?_, fun _ => rfl, rfl⟩
    simp [ho]

/-- One round of the dump: NEXT_BYTE, then ADVANCE 1. -/
theorem Dumping.round {m : Memory} {k c : Nat} {s : State} (h : Dumping m (k + 1) s c) (acc : List Byte) :
    ∃ u, dumpLoop (k + 1) s acc = dumpLoop k u (acc ++ [memRead m c]) ∧ Dumping m k u (c + 1) := by
  obtain ⟨t, et, ht, tcfg, tmem, tburst, tptr, tresult⟩ := h.nextByte
  have room : c + 1 + k ≤ t.cfg.capacity := by have := h.room; rw [tcfg]; omega
  obtain ⟨u, eu, hu, ucfg, uburst, udev, uresult⟩ := ht.advance (n := 1) (by simp; omega)
  refine ⟨u, ?_, hu, by rw [udev, tmem], uburst.trans tburst, by rw [ucfg]; exact room, fun hb => ?_⟩
  · simp only [dumpLoop, issue_of_next et, tresult, issue_of_next eu, uresult, Option.isSome_some, if_true]
  · rw [udev, ucfg, tcfg]
    rw [ucfg, tcfg] at hb
    exact tptr hb

theorem Dumping.loop {m : Memory} (k : Nat) : ∀ {s : State} {c : Nat} (acc : List Byte), Dumping m k s c →
    ∃ t, dumpLoop k s acc = ⟨acc ++ (List.range' c k).map (memRead m), t, .done⟩ ∧ Dumping m 0 t (c + k) := by
  induction k with
  | zero => exact fun {s c} acc h => ⟨s, by simp [dumpLoop], h⟩
  | succ k ih =>
    intro s c acc h
    obtain ⟨u, eu, hu⟩ := h.round acc
    obtain ⟨t, et, ht⟩ := ih (acc ++ [memRead m c]) hu
    refine ⟨t, ?_, by rwa [Nat.add_right_comm] at ht⟩
    rw [eu, et, List.range'_succ, List.map_cons, List.append_assoc, List.singleton_append]

/-- A dump from a readable state returns the bytes of memory from the counter on, with the counter behind them and the memory as it
was (rule R246). -/
theorem Readable.dump {s : State} {c n : Nat} (h : Readable s c) (hn : s.burst = .none) (hpos : 0 < n)
    (room : c + n ≤ s.cfg.capacity) : ∃ t, dump n s = ⟨(List.range' c n).map (memAt s), t, .done⟩ ∧
      Dumping s.dev.mem 0 t (c + n) := by
  obtain ⟨u, eu, hu, uresult⟩ := h.startSeqRead hn hpos room
  obtain ⟨t, et, ht⟩ := hu.loop n []
  refine ⟨t, ?_, ht⟩
  simp only [Machine.dump, if_neg (Nat.ne_of_gt hpos), issue_of_next eu, uresult, et, List.nil_append]

/-- Settles O36: the page is in memory after the write, RESET and ADVANCE leave the device alone, and the dump reads it from there. -/
theorem roundTripLaw : Obligations.RoundTripLaw := by
  intro s c page hinv hat hlt ha h24 hp hbus hi hu hh hd
  obtain ⟨hr, hn, hctr⟩ := hat
  have h : Readable s c := ⟨hinv, hr, hctr, hi, hh, hbus⟩
  have room : c + 64 ≤ s.cfg.capacity := by have := (configOk_pages hinv.config).1; omega
  obtain ⟨t, et, ht, tcfg, tburst, tresult, tmem⟩ := h.writePage hn hlt ha hp hu hd
  obtain ⟨t', et', ht', tcfg', tburst', tdev'⟩ := ht.reset
  have hofNat : (BitVec.ofNat 24 c).toNat = c := by rw [BitVec.toNat_ofNat, Nat.mod_eq_of_lt h24]
  obtain ⟨u, eu, hu', ucfg, uburst, udev, -⟩ := ht'.advance (n := BitVec.ofNat 24 c) (by rw [hofNat, tcfg', tcfg]; omega)
  rw [hofNat, Nat.zero_add] at hu'
  obtain ⟨v, ev, hv⟩ := hu'.dump (n := 64) (by rw [uburst, tburst', tburst]) (by decide) (by rw [ucfg, tcfg', tcfg]; exact room)
  have hmem : u.dev.mem = memWriteAll s.dev.mem (consecutive c page) := by rw [udev, tdev', tmem]
  simp only [issue_of_next et, issue_of_next et', issue_of_next eu, ev]
  refine ⟨tresult, ht.ctr, ?_, trivial, hv.ctr, hv.burst⟩
  have back := map_memRead_consecutive s.dev.mem c page
  rw [hp, ← hmem] at back
  exact back

/-! ## The read step that aborts -/

/-- A read step whose code did not match ends NEXT_BYTE: the bus is stopped, the burst closed, and a draw returned (rules R127,
R202). -/
theorem closeNextByte_refused {exp code b : Byte} (l : Bool) (f : State → State) (u : State) (hne : code ≠ exp) :
    closeNextByte l (endNextByte exp f (b, code, u)) = .next
      { u with status := some code, bus := .idle, txstate := .idle, trace := u.trace ++ [.iStop .stop], draws := u.draws + 1,
               dev := { u.dev with busy := u.dev.busy || !u.dev.pending.isEmpty }, burst := .none,
               result := some (.byteFlag (Config.freeByte u.draws) false) } := by
  rcases endNextByte_cases exp f b code u with ⟨he, -⟩ | ⟨-, e⟩
  · exact absurd he hne
  · rw [e, closeNextByte_eq]
    simp only [Bool.not_false, Bool.or_true, if_true]

/-- Settles O25: the scripted answer is the step's code, and a code that does not match ends the burst. -/
theorem i2cNextByteMismatchAborts : Obligations.I2cNextByteMismatchAborts := by
  intro s l raw r hr ho hb hs hm
  have ho1 : oracleAfter 1 s.oracle = { s.oracle with script := r } := by simp [oracleAfter, hs]
  rw [exec_nextByte_i2c l hr ho hb]
  cases l with
  | true =>
    obtain ⟨raw', n, b, m, h, -, scripted, -, -⟩ := iRxNack_spec s
    obtain ⟨rfl, rfl⟩ := scripted raw r hs
    rw [if_pos rfl] at hm
    simp only [nextByteI2c, if_true, h, closeNextByte_refused _ _ _ hm, ho1]
    exact ⟨_, b, m + 1, by simp, m, rfl⟩
  | false =>
    obtain ⟨raw', n, b, m, h, -, scripted, -, -⟩ := iRxAck_spec s
    obtain ⟨rfl, rfl⟩ := scripted raw r hs
    rw [if_neg Bool.false_ne_true] at hm
    simp only [nextByteI2c, Bool.false_eq_true, if_false, h, closeNextByte_refused _ _ _ hm, ho1]
    exact ⟨_, b, m + 1, by simp, m, rfl⟩

/-! ## Writes that are lost -/

/-- A strobe to an idle device with good holds is pending, and nothing is drawn (rule R62). -/
theorem pWriteStrobe_idle {s : State} (v : Byte) (hi : DeviceIdle s) (hh : s.cfg.holdOk = true) :
    (pWriteStrobe v s).dev = { s.dev with pending := [(s.hwctr % s.cfg.capacity, v)] } ∧
      (pWriteStrobe v s).draws = s.draws := by
  obtain ⟨busy, pending⟩ := hi
  rw [pWriteStrobe_eq, devWrite_eq]
  simp [busy, pending, hh]

/-- WRITE_BYTE on PARALLEL returns true whatever becomes of the byte (rule R161). -/
theorem exec_writeByte_parallel {s : State} {c : Nat} (v : Byte) (hat : AtCounter s c) (hlt : c < s.cfg.capacity)
    (hb : s.cfg.backend = .parallel) : exec (.writeByte v) s =
      .next { drawStatus (delay s.wdelay (pWriteStrobe v s)) with result := some (.flag true) } := by
  rw [exec_writeByte_ready v hat hlt]
  simp only [writeByteBody, hb, writeByteParallel]

theorem drawStatus_delay_dev (d : Nat) (s : State) : (drawStatus (delay d s)).dev = (devDelay d s).dev := by
  rw [delay_eq]; rfl

/-- Settles O34: the one pending write is spoiled by the short delay, and dropped by the locked latch. -/
theorem lostParallelWriteReturnsTrue : Obligations.LostParallelWriteReturnsTrue := by
  intro s c v hc hat hlt hb hi hh
  have cfg := (pWriteStrobe_moves v s).cfg
  obtain ⟨dev, draws⟩ := pWriteStrobe_idle v hi hh
  have occupied : devOccupied (pWriteStrobe v s) = true := devOccupied_of_pending (by rw [dev]; simp)
  have e := exec_writeByte_parallel v hat hlt hb
  refine ⟨fun short => ⟨_, e, rfl, ?_⟩, fun good sdp locked => ⟨_, e, rfl, ?_⟩⟩
  · have lost : (drawStatus (delay s.wdelay (pWriteStrobe v s))).dev = { s.dev with
        mem := memWrite s.dev.mem (s.hwctr % s.cfg.capacity) (Config.freeByte s.draws), pending := [], busy := true } := by
      rw [drawStatus_delay_dev, devDelay_short occupied (cfg ▸ short), spoilAll_eq]
      simp [dev, draws, drawnCells, memWriteAll]
    simp only [memAt, lost, memRead_write, if_true, true_and]
    exact fun x hx => if_neg hx
  · have kept := commit_locked (s := pWriteStrobe v s) (cfg ▸ hc) (cfg ▸ hb) (cfg ▸ sdp) (by rw [dev]; exact locked)
      (by rw [dev]; simp)
    obtain ⟨busy, pending⟩ := hi
    refine (drawStatus_delay_dev _ _).trans ?_
    rw [devDelay_good occupied (cfg ▸ good), kept]
    simp [dev, ← busy, ← pending]

/-- WRITE_BYTE's body on I2C to a busy device, with the expected answers and a good delay: the byte is spoiled, and the delay ends
the write cycle (rules R65, R313). -/
theorem writeByteI2c_busy {s : State} {c : Nat} (v : Byte) (hc : configOk s.cfg = true) (hb : s.cfg.backend = .i2c)
    (hlt : c < s.cfg.capacity) (h : AnswersExpected 5 s.oracle) (busy : s.dev.busy = true) (hp : s.dev.pending = [])
    (hd : writeDelayOk s.cfg s.wdelay = true) : writeByteI2c c v s = (true,
      { s with bus := .idle, txstate := .idle, status := some s.cfg.expTxAck, oracle := oracleAfter 5 s.oracle,
               trace := s.trace ++ frameEvents s.cfg c ++
                 [.iTx .data v s.cfg.expTxAck .dataByteAck, .iStop .stop, .delay s.wdelay],
               dev := { s.dev with mem := memWrite s.dev.mem c (Config.freeByte s.draws), busy := false,
                                   ptr := nextInPage c, addrHi := addrHiByte c },
               draws := s.draws + 1 }) := by
  have h16 : c < 65536 := Nat.lt_of_lt_of_le hlt (configOk_i2c hc hb).1
  have h4 : AnswersExpected 4 s.oracle := h.mono (by decide)
  have h1 : AnswersExpected 1 (oracleAfter 4 s.oracle) := h.after
  simp only [writeByteI2c, writeTransaction, frame_expected hc hlt h16 h4, if_true, sendBytes]
  rw [stepTx_expected .data v (by exact hc) (by exact h1), thenStep_true]
  simp only [Bool.false_eq_true, if_false, if_true, iStop_eq, delay_eq]
  rw [devDelay_good (by simp [devOccupied, devTx_eq, busy]) (by exact hd)]
  simp [commit, hb, commitI2c, devTx_eq, busy, hp, memWriteAll, oracleAfter_add, txExpected, txNamed]

/-- Settles O35: the frame sets the pointer to the counter, and the busy device spoils that address. -/
theorem busyDeviceSpoilsTheI2cByte : Obligations.BusyDeviceSpoilsTheI2cByte := by
  intro s c v hc hat hlt hb hbus busy hp hd
  have e := exec_writeByte_ready v hat hlt
  simp only [writeByteBody, hb,
    writeByteI2c_busy v hc hb hlt (answersExpected_of_cooperative hbus 5) busy hp hd] at e
  refine ⟨_, e, rfl, ⟨rfl, hp⟩, ?_, fun x hx => ?_⟩
  · exact (memRead_write _ _ _ _).trans (if_pos rfl)
  · exact (memRead_write _ _ _ _).trans (if_neg hx)

end Sys2Proof

/-! # Proofs for 30_encoding.md: the decoder and the encoder agree, and the requests that are refused -/

namespace Sys2Proof

open Machine

/-! ## What decode reads -/

/-- WRITE_PAGE is told by its opcode alone, and takes its block with it; any other request is its word (rules R80, R92). -/
theorem decode_cons (b3 b2 b1 b0 : Byte) (tail : List Byte) : decode (b3 :: b2 :: b1 :: b0 :: tail) =
    if b3 = opWritePage then decodePage (wordOfBytes b3 b2 b1 b0) tail else (decodeWord (wordOfBytes b3 b2 b1 b0), tail) := by
  simp only [decode, opField_wordOfBytes]

theorem decode_bytesOfWord (w : Word) (tail : List Byte) : decode (bytesOfWord w ++ tail) =
    if opField w = opWritePage then decodePage w tail else (decodeWord w, tail) := by
  refine (decode_cons _ _ _ _ tail).trans ?_
  rw [wordOfBytes_bytesOfWord]
  rfl

/-- A page's word has no operand, and its block is the 64 bytes after the word (rules R81, R91). -/
theorem pageOfBlock_iff (w : Word) (tail : List Byte) (i : Instr) : pageOfBlock w tail = .ok i ↔
    immField w = 0 ∧ pageSize ≤ tail.length ∧ i = .writePage (tail.take pageSize) := by
  unfold pageOfBlock
  split
  · next h0 =>
    split
    · next hlen => simp [h0, hlen, eq_comm]
    · next hlen => simp [hlen]
  · next h0 => exact ⟨nofun, fun ⟨h, _⟩ => absurd h h0⟩

/-- Every instruction but WRITE_PAGE is its word alone, and well formed. -/
theorem block_wellFormed_of_opcode {i : Instr} (h : i.opcode ≠ opWritePage) : i.block = [] ∧ i.wellFormed = true := by
  cases i with
  | writePage page => exact absurd rfl h
  | _ => exact ⟨rfl, rfl⟩

/-- The opcode of WRITE_PAGE is no other row's (rule R84). -/
theorem writePage_of_opcode {i : Instr} (h : i.opcode = opWritePage) : ∃ page, i = .writePage page := by
  cases i with
  | writePage page => exact ⟨page, rfl⟩
  | _ => simp [Instr.opcode, opWritePage] at h

/-! ## Decoding what was encoded -/

/-- The byte of formats B and T is the low end of the operand field, whatever stands above it (rule R82). -/
theorem byteField_of_imm {w : Word} {x : BitVec 16} {v : Byte} (h : immField w = (x ++ v : BitVec (16 + 8))) :
    byteField w = v := by
  rw [byteField, field_of_imm w 0 8 (by decide), h]
  exact BitVec.extractLsb'_append_eq_right

/-- So is the flag of format L. -/
theorem flagField_of_imm {w : Word} {x : BitVec 23} {l : Bool} (h : immField w = (x ++ BitVec.ofBool l : BitVec (23 + 1))) :
    flagField w = l := by
  rw [flag_of_imm, h, BitVec.getLsbD_append]
  simp

/-- Each row of the opcode map undoes the encoder, by the row's format (rules R81, R84, R86, R87). -/
theorem decodeWord_encodeWord {i : Instr} (h : i.opcode ≠ opWritePage) : decodeWord (encodeWord i) = .ok i := by
  have imm := immField_encodeWord i
  unfold decodeWord
  rw [opField_encodeWord]
  cases i with
  | writePage page => exact absurd rfl h
  | advance n | setWriteDelay d | delay d => exact (formatImm_iff _ _ _).2 (congrArg _ imm.symm)
  | writeByte v | pWriteStrobe v =>
    have field : byteField _ = v := byteField_of_imm imm
    exact (formatB_iff _ _ _).2 ⟨by rw [field]; exact imm, by rw [field]⟩
  | nextByte l | pSelect l =>
    have field : flagField _ = l := flagField_of_imm imm
    exact (formatL_iff _ _ _).2 ⟨by rw [field]; exact imm, by rw [field]⟩
  | iTx role v =>
    have field : byteField _ = v := byteField_of_imm imm
    exact (formatT_iff _ _).2 ⟨role, by rw [field]; exact imm, by rw [field]⟩
  | _ => exact (formatN_iff _ _ _).2 ⟨imm, rfl⟩

/-- A page of 64 bytes before any bytes is read back, and they are left (rule R92). -/
theorem decodePage_encodeWord {page : List Byte} (hp : page.length = pageSize) (rest : List Byte) :
    decodePage (encodeWord (.writePage page)) (page ++ rest) = (.ok (.writePage page), rest) := by
  have block : pageOfBlock (encodeWord (.writePage page)) (page ++ rest) = .ok (.writePage page) :=
    (pageOfBlock_iff _ _ _).2 ⟨immField_encodeWord _, by simp [hp], by rw [List.take_left' hp]⟩
  rw [decodePage, block, List.drop_left' hp]

/-- Settles O1: the opcode says whether a block follows the word; then the block, or the word's row, is read back. -/
theorem decodeOfEncode : Obligations.DecodeOfEncode := by
  intro i rest hi
  rw [encode, List.append_assoc, decode_bytesOfWord, opField_encodeWord]
  by_cases hop : i.opcode = opWritePage
  · rw [if_pos hop]
    obtain ⟨page, rfl⟩ := writePage_of_opcode hop
    exact decodePage_encodeWord (eq_of_beq hi) rest
  · obtain ⟨block, -⟩ := block_wellFormed_of_opcode hop
    rw [if_neg hop, decodeWord_encodeWord hop, block, List.nil_append]

/-! ## What decodes was encoded -/

/-- A page that decodes was the encoding of its word and the block. -/
theorem of_pageOfBlock {w : Word} {tail : List Byte} {i : Instr} (h : pageOfBlock w tail = .ok i)
    (hop : opField w = opWritePage) :
    encodeWord i = w ∧ tail = i.block ++ tail.drop pageSize ∧ i.wellFormed = true := by
  obtain ⟨h0, hlen, rfl⟩ := (pageOfBlock_iff w tail i).1 h
  refine ⟨encodeWord_eq_of_fields (congrArg BitVec.toNat hop) h0, (List.take_append_drop pageSize tail).symm, ?_⟩
  simp [Instr.wellFormed, hlen]

/-- Settles O2: a page is its word and the block taken from the stream, any other instruction is its word alone. -/
theorem decodedBytesAreTheEncoding : Obligations.DecodedBytesAreTheEncoding := by
  intro bytes rest i h
  obtain ⟨b2, b1, b0, tail, rfl⟩ := stream_of_decode h
  suffices encodeWord i = wordOfBytes i.opcode b2 b1 b0 ∧ tail = i.block ++ rest ∧ i.wellFormed = true by
    obtain ⟨word, block, wf⟩ := this
    refine ⟨?_, wf⟩
    rw [encode, word, bytesOfWord_wordOfBytes, List.append_assoc, ← block]
    rfl
  rw [decode_cons] at h
  split at h
  · next hop =>
    obtain ⟨hi, rfl⟩ := Prod.mk.inj h
    exact of_pageOfBlock hi ((opField_wordOfBytes _ _ _ _).trans hop)
  · next hop =>
    obtain ⟨hi, rfl⟩ := Prod.mk.inj h
    obtain ⟨block, wf⟩ := block_wellFormed_of_opcode hop
    exact ⟨encodeWord_of_decodeWord hi, by rw [block, List.nil_append], wf⟩

/-- Settles O3: each of the nine words is decoded. -/
theorem workedEncodings : Obligations.WorkedEncodings := by
  unfold Obligations.WorkedEncodings
  decide

/-! ## The requests a step refuses -/

theorem isInternalOp_iff (op : Byte) : isInternalOp op = true ↔ 0x40 ≤ op.toNat ∧ op.toNat ≤ 0x7F := by
  simp only [isInternalOp, Bool.and_eq_true, decide_eq_true_eq]

/-- A step that refuses its request takes the refusal past it (rule R281). -/
theorem step_of_refuse {s : State} {r : Refusal} {rest : List Byte} (h : fetch s = .refuse r rest) :
    step s = .next (marked { s with stream := rest } (.refused r)) := by
  simp only [step, h]
  rfl

/-- A caller's micro-operation is refused before it is decoded (rules R88, R285). -/
theorem fetch_internal {s : State} {op b2 b1 b0 : Byte} {rest : List Byte} (hs : s.stream = op :: b2 :: b1 :: b0 :: rest)
    (ho : s.origin = .caller) (hop : isInternalOp op = true) : fetch s = .refuse .internal rest := by
  simp [fetch, hs, ho, isInternalRequest, hop]

/-- Any other request that does not decode is refused for the decoder's reason (rules R91, R285). -/
theorem fetch_undecodable {s : State} {op b2 b1 b0 : Byte} {rest rest' : List Byte} {e : Invalid}
    (hs : s.stream = op :: b2 :: b1 :: b0 :: rest) (hop : isInternalOp op = false)
    (hd : decode s.stream = (.error e, rest')) : fetch s = .refuse (.reserved e) rest' := by
  rw [hs] at hd
  simp [fetch, hs, isInternalRequest, hop, hd]

/-- What is left of a request does not depend on whether it decodes (rule R92). -/
theorem decode_rest (op b2 b1 b0 : Byte) (rest : List Byte) :
    (decode (op :: b2 :: b1 :: b0 :: rest)).2 = if op = 0x15 then rest.drop 64 else rest := by
  rw [decode_cons]
  exact apply_ite Prod.snd _ _ _

/-- Settles O5: the request is refused before it is decoded, and its four bytes are taken. -/
theorem callerCannotIssueMicroOperations : Obligations.CallerCannotIssueMicroOperations :=
  fun _ op _ _ _ _ hs ho low high => step_of_refuse (fetch_internal hs ho ((isInternalOp_iff op).2 ⟨low, high⟩))

/-- Settles O6: the request is refused for the decoder's reason, and what it leaves is what the decoder leaves. -/
theorem undecodableRequestIsRefused : Obligations.UndecodableRequestIsRefused := by
  intro s op b2 b1 b0 rest rest' e hs hop hd
  have external : isInternalOp op = false := Bool.eq_false_iff.2 fun h => hop ((isInternalOp_iff op).1 h)
  refine ⟨step_of_refuse (fetch_undecodable hs external hd), ?_⟩
  rw [hs] at hd
  rw [← decode_rest op b2 b1 b0 rest, hd]

/-! ## The SDP operations' refusal and fault -/

/-- The offset recorded is the first one beyond the device (rule R170; log 34). -/
theorem offsetBeyond_append {n o : Nat} {pre : List (Nat × Byte)} (b : Byte) (post : List (Nat × Byte))
    (hpre : ∀ p ∈ pre, p.1 < n) (ho : n ≤ o) : offsetBeyond n (pre ++ (o, b) :: post) = some o := by
  have within : pre.find? (fun p => decide (n ≤ p.1)) = none := Option.map_eq_none_iff.1 ((offsetBeyond_none n pre).2 hpre)
  simp [offsetBeyond, List.find?_append, within, ho]

theorem sdpRun_unavailable (seq : List (Nat × Byte)) {s : State} (h : s.cfg.backend = .i2c ∨ s.cfg.sdpPresent = false) :
    sdpRun seq s = .next (marked s (.refused .backend)) := by
  rcases sdpRun_cases seq s with ⟨-, e⟩ | ⟨hb, hp, -⟩
  · exact e
  · simp [hb, hp] at h

theorem sdpRun_overflow {seq : List (Nat × Byte)} {s : State} {o : Nat} (hb : s.cfg.backend = .parallel)
    (hp : s.cfg.sdpPresent = true) (hr : s.phase = .ready) (hn : s.burst = .none)
    (ho : offsetBeyond s.cfg.capacity seq = some o) : sdpRun seq s = .next (marked s (.fault (.overflow 0 o))) := by
  have available : sdpAvailable s.cfg = true := (sdpAvailable_iff _).2 ⟨hb, hp⟩
  simp only [sdpRun, available, hr, hn, ho]
  rfl

/-- Settles O37: both operations run a sequence, so one refusal and one fault serve both. -/
theorem sdpRefusalAndOffsetFault : Obligations.SdpRefusalAndOffsetFault := by
  refine ⟨fun s h => ⟨sdpRun_unavailable _ h, sdpRun_unavailable _ h⟩, fun s pre post o b hb hp hr hn hpre ho => ?_⟩
  have overflow {seq : List (Nat × Byte)} (h : seq = pre ++ (o, b) :: post) :
      sdpRun seq s = .next (marked s (.fault (.overflow 0 o))) :=
    sdpRun_overflow hb hp hr hn (h ▸ offsetBeyond_append b post hpre ho)
  exact ⟨overflow, overflow⟩

end Sys2Proof

/-! # Proofs for 40_address_counter.md: RESET, ADVANCE, GETCOUNT, the monotone counter, and the accesses that need it -/

namespace Sys2Proof

open Machine

/-! ## The bytes of a request -/

/-- A request is its opcode, its operand field in three bytes, most significant first, and its block (rules R80, R81). -/
theorem encode_eq (i : Instr) : encode i =
    i.opcode :: i.imm.extractLsb' 16 8 :: i.imm.extractLsb' 8 8 :: i.imm.extractLsb' 0 8 :: i.block := by
  have field (k : Nat) (h : k + 8 ≤ 24) : (encodeWord i).extractLsb' k 8 = i.imm.extractLsb' k 8 := by
    rw [field_of_imm _ k 8 h, immField_encodeWord]
  have op : (encodeWord i).extractLsb' 24 8 = i.opcode := opField_encodeWord i
  rw [encode, bytesOfWord, op, field 16 (by decide), field 8 (by decide), field 0 (by decide)]
  rfl

/-! ## The counter's operations -/

theorem exec_reset_ready {s : State} (h : s.phase = .ready) :
    exec .reset s = .next { resetHardware s with ctr := some 0, result := some .unit } := by
  rcases execReset_cases s with ⟨hu, -⟩ | ⟨-, e⟩
  · cases h.symm.trans hu
  · exact e

/-- Settles O10: past the phase check the reset pulse is the whole hardware side. -/
theorem resetSetsTheCounterToZero : Obligations.ResetSetsTheCounterToZero := by
  refine ⟨encode_eq .reset, fun _ hu => if_pos hu, fun s hr hb => ?_, fun s hr hb => ?_⟩
  · rw [exec_reset_ready hr, resetHardware_eq]
    simp only [hb, if_true]
  · rw [exec_reset_ready hr, resetHardware_eq]
    simp only [hb, reduceCtorEq, if_false]

theorem exec_advance_unset {s : State} (n : BitVec 24) (hr : s.phase = .ready) (hc : s.ctr = none) :
    exec (.advance n) s = .next (marked s (.fault .counterUnset)) := by
  simp only [exec, execAdvance, hr, hc, reduceCtorEq, if_false]
  rfl

theorem exec_advance_overflow {s : State} {n : BitVec 24} {c : Nat} (hr : s.phase = .ready) (hc : s.ctr = some c)
    (hl : s.cfg.capacity < c + n.toNat) : exec (.advance n) s = .next (marked s (.fault (.overflow c n.toNat))) := by
  simp only [exec, execAdvance, hr, hc, if_pos hl, reduceCtorEq, if_false]
  rfl

/-- Settles O11: the three faults in their order, then the clock pulses as the whole hardware side. -/
theorem advanceAddsToTheCounter : Obligations.AdvanceAddsToTheCounter := by
  refine ⟨fun n => encode_eq (.advance n), fun _ _ hu => if_pos hu, fun _ => exec_advance_unset,
    fun _ _ _ => exec_advance_overflow, fun s n c hr hc hl hb => ?_, fun s n c hr hc hl hb => ?_⟩
  · rw [exec_advance_ready hr hc hl, advanceHardware_eq]
    simp only [hb, if_true]
  · rw [exec_advance_ready hr hc hl, advanceHardware_eq]
    simp only [hb, reduceCtorEq, if_false]

/-- Settles O12: the counter is all that GETCOUNT looks at. -/
theorem getcountReturnsTheCounter : Obligations.GetcountReturnsTheCounter := by
  refine ⟨encode_eq .getcount, fun s hc => ?_, fun s c hc => ?_⟩
  · rcases execGetcount_cases s with ⟨-, e⟩ | ⟨c, hset, -⟩
    · exact e
    · cases hc.symm.trans hset
  · rcases execGetcount_cases s with ⟨hunset, -⟩ | ⟨c', hset, e⟩
    · cases hc.symm.trans hunset
    · obtain rfl := Option.some.inj (hset.symm.trans hc)
      exact e

/-! ## The counter does not go down -/

/-- The next state of an answer has a counter no lower. -/
def AnswerUp (s : State) (a : Answer) : Prop := ∀ t, a = .next t → Up s t

theorem AnswerUp.of_next {s t : State} {a : Answer} (e : a = .next t) (h : Up s t) : AnswerUp s a := fun u hu => by
  obtain rfl := Host.Outcome.next.inj (e.symm.trans hu)
  exact h

theorem AnswerUp.mark {s : State} {a : Answer} {m : Mark} (e : a = .next (marked s m)) : AnswerUp s a :=
  .of_next e (Up.of_eq rfl)

theorem execAdvance_up (n : BitVec 24) (s : State) : AnswerUp s (execAdvance n s) := by
  rcases execAdvance_cases n s with ⟨-, e⟩ | ⟨-, -, e⟩ | ⟨c, -, -, -, e⟩ | ⟨c, -, hc, -, e⟩
  · exact .mark e
  · exact .mark e
  · exact .mark e
  · refine .of_next e fun c₀ h₀ => ⟨c + n.toNat, rfl, ?_⟩
    obtain rfl := Option.some.inj (hc.symm.trans h₀)
    exact Nat.le_add_right _ _

theorem execWritePage_up (page : List Byte) (s : State) : AnswerUp s (execWritePage page s) := by
  rcases execWritePage_cases page s with ⟨-, e⟩ | ⟨-, ⟨r, e, -⟩ | ⟨c, -, -, e⟩ | ⟨c, -, -, -, e⟩⟩
  · exact .mark e
  · exact .mark e
  · exact .of_next e (Up.of_eq rfl)
  · exact .of_next e (writePageBody_up c page s)

/-- Settles O13: the counter's writers but RESET and the SDP sequences add to it, and every other instruction keeps it. -/
theorem counterIsMonotone : Obligations.CounterIsMonotone := by
  intro s t i c hreset henable hdisable hc h
  suffices Up s t from this c hc
  cases i with
  | reset => exact absurd rfl hreset
  | sdpEnable => exact absurd rfl henable
  | sdpDisable => exact absurd rfl hdisable
  | advance n => exact execAdvance_up n s t h
  | writePage page => exact execWritePage_up page s t h
  | _ => exact Up.of_eq ((exec_keepsOthers _ s t h).ctr (by simp [Instr.writes]))

/-! ## The accesses at the counter -/

theorem atCounter_unset {s : State} (hr : s.phase = .ready) (hn : s.burst = .none) (hc : s.ctr = none) (go : Nat → Answer) :
    atCounter s go = .next (marked s (.fault .counterUnset)) := by
  simp only [atCounter, hr, hn, hc, reduceCtorEq, if_false]
  rfl

theorem belowCapacity_of_le {s : State} {c : Nat} (n : Nat) (h : s.cfg.capacity ≤ c) (go : Answer) :
    belowCapacity c n s go = .next (marked s (.fault (.overflow c n))) := if_pos h

theorem exec_writePage_unset {s : State} {page : List Byte} (hr : s.phase = .ready) (hn : s.burst = .none) (hc : s.ctr = none)
    (hp : page.length = 64) : exec (.writePage page) s = .next (marked s (.fault .counterUnset)) :=
  (if_neg (not_not_intro hp)).trans (atCounter_unset hr hn hc _)

/-- The alignment check passes before the overflow check is made (rule R125). -/
theorem exec_writePage_overflow {s : State} {c : Nat} {page : List Byte} (h : AtCounter s c) (hl : s.cfg.capacity ≤ c)
    (ha : c % 64 = 0) (hp : page.length = 64) : exec (.writePage page) s = .next (marked s (.fault (.overflow c 64))) :=
  calc exec (.writePage page) s
    _ = atCounter s _ := if_neg (not_not_intro hp)
    _ = if pageAligned c = true then _ else _ := atCounter_ready h _
    _ = belowCapacity c 64 s _ := if_pos ((pageAligned_iff c).2 ha)
    _ = .next (marked s (.fault (.overflow c 64))) := belowCapacity_of_le 64 hl _

/-- Within a burst a PARALLEL NEXT_BYTE is left with the checks of the counter (rule R158). -/
theorem exec_nextByte_parallel_unset {s : State} (l : Bool) (hb : s.cfg.backend = .parallel) (hr : s.phase = .ready)
    (ho : s.burst = .opened) (hc : s.ctr = none) : exec (.nextByte l) s = .next (marked s (.fault .counterUnset)) := by
  simp only [exec, execNextByte, hr, ho, hb, hc, reduceCtorEq, if_false]
  rfl

theorem exec_nextByte_parallel_overflow {s : State} {c : Nat} (l : Bool) (hb : s.cfg.backend = .parallel)
    (hr : s.phase = .ready) (ho : s.burst = .opened) (hc : s.ctr = some c) (hl : s.cfg.capacity ≤ c) :
    exec (.nextByte l) s = .next (marked s (.fault (.overflow c 0))) := by
  simp only [exec, execNextByte, hr, ho, hb, hc, belowCapacity_of_le 0 hl, reduceCtorEq, if_false]

/-- Settles O14: the counter is looked at after phase and burst, first whether it is set, then whether it is below
CAPACITY. -/
theorem accessNeedsACounterBelowCapacity : Obligations.AccessNeedsACounterBelowCapacity := by
  refine ⟨fun s c hat hl => ⟨?_, fun v => ?_, fun page hp ha => exec_writePage_overflow hat hl ha hp⟩,
    fun _ _ => exec_nextByte_parallel_overflow,
    fun s hr hn hc => ⟨?_, fun v => ?_, fun page hp => exec_writePage_unset hr hn hc hp⟩,
    fun _ => exec_nextByte_parallel_unset⟩
  · exact (atCounter_ready hat _).trans (belowCapacity_of_le 0 hl _)
  · exact (atCounter_ready hat _).trans (belowCapacity_of_le 0 hl _)
  · exact atCounter_unset hr hn hc _
  · exact atCounter_unset hr hn hc _

end Sys2Proof

/-! # Proofs for 41_backend_contract.md: the gates, the control operations, reading, writing, and how an operation fails -/

namespace Sys2Proof

open Machine

/-! ## The gates of phase and burst -/

theorem atCounter_opened {s : State} (hr : s.phase = .ready) (ho : s.burst = .opened) (go : Nat → Answer) :
    atCounter s go = .next (marked s (.fault .burst)) := by
  simp only [atCounter, hr, ho, reduceCtorEq, if_false, if_true]
  rfl

/-- A page of 64 bytes leaves WRITE_PAGE with the checks of an access at the counter (rule R129). -/
theorem exec_writePage_checked {s t : State} {page : List Byte} (hp : page.length = 64)
    (h : ∀ go, atCounter s go = .next t) : exec (.writePage page) s = .next t :=
  (if_neg (not_not_intro hp)).trans (h _)

/-- An available SDP operation is left with the checks of phase and burst (rules R90, R285). -/
theorem sdpRun_uninit {s : State} (seq : List (Nat × Byte)) (ha : sdpAvailable s.cfg = true) (hu : s.phase = .uninit) :
    sdpRun seq s = .next (marked s (.fault .uninit)) := by
  simp only [sdpRun, ha, hu, Bool.not_true, Bool.false_eq_true, if_false, if_true]
  rfl

theorem sdpRun_opened {s : State} (seq : List (Nat × Byte)) (ha : sdpAvailable s.cfg = true) (hr : s.phase = .ready)
    (ho : s.burst = .opened) : sdpRun seq s = .next (marked s (.fault .burst)) := by
  simp only [sdpRun, ha, hr, ho, Bool.not_true, Bool.false_eq_true, reduceCtorEq, if_false, if_true]
  rfl

theorem exec_nextByte_closed {s : State} (l : Bool) (hr : s.phase = .ready) (hn : s.burst = .none) :
    exec (.nextByte l) s = .next (marked s (.fault .burst)) := by
  simp only [exec, execNextByte, hr, hn, reduceCtorEq, if_false, if_true]
  rfl

/-- The faults of phase and burst an instruction can take (rules R121, R122). -/
def Instr.gates : Instr → List Fault
  | .reset | .advance _ | .resetMemory => [.uninit]
  | .init => [.reinit]
  | .startSeqRead | .nextByte _ | .writeByte _ | .writePage _ | .sdpEnable | .sdpDisable => [.uninit, .burst]
  | .getcount | .lastFailure | .setWriteDelay _ | .pIdle | .pClkPulse | .pRstPulse | .pReadStrobe | .pWriteStrobe _ | .pSelect _
  | .iStart | .iRepStart | .iStop | .iTx _ _ | .iRxAck | .iRxNack | .delay _ => []

/-- What a fault at s of an instruction with these gates says: a phase fault is one of them and goes with its phase, a burst fault
is one of them. -/
def Gated (gates : List Fault) (s : State) : Fault → Prop
  | .uninit => .uninit ∈ gates ∧ s.phase = .uninit
  | .reinit => .reinit ∈ gates ∧ s.phase = .ready
  | .burst => .burst ∈ gates
  | .counterUnset => True
  | .overflow _ _ => True

/-- Every fault the answer can take at s is gated so. -/
def AnswerGated (gates : List Fault) (s : State) (a : Answer) : Prop :=
  ∀ r, a = .next (marked s (.fault r)) → Gated gates s r

theorem AnswerGated.fault {gates : List Fault} {s : State} {a : Answer} {r : Fault} (e : a = .next (marked s (.fault r)))
    (h : Gated gates s r) : AnswerGated gates s a := fun r' e' => by
  obtain rfl := Mark.fault.inj (congrArg State.mark (Host.Outcome.next.inj (e.symm.trans e')))
  exact h

theorem AnswerGated.refusal {gates : List Fault} {s : State} {a : Answer} {r : Refusal}
    (e : a = .next (marked s (.refused r))) : AnswerGated gates s a := fun _ e' =>
  nomatch congrArg State.mark (Host.Outcome.next.inj (e.symm.trans e'))

/-- An operation that replies takes no fault. -/
theorem AnswerGated.reply {gates : List Fault} {s t : State} {a : Answer} (e : a = .next t) (h : t.result ≠ none) :
    AnswerGated gates s a := fun _ e' =>
  absurd (congrArg State.result (Host.Outcome.next.inj (e.symm.trans e'))) h

/-- The faults of an access at the counter (rules R128 to R130). -/
theorem Gated.access {s : State} {r : Fault} {n : Nat}
    (h : (r = .uninit ∧ s.phase = .uninit) ∨ (r = .burst ∧ s.phase = .ready ∧ s.burst = .opened) ∨
      (r = .counterUnset ∧ s.phase = .ready ∧ s.ctr = none) ∨
      ∃ c, r = .overflow c n ∧ s.phase = .ready ∧ s.ctr = some c ∧ s.cfg.capacity ≤ c) : Gated [.uninit, .burst] s r := by
  rcases h with ⟨rfl, h⟩ | ⟨rfl, -, -⟩ | ⟨rfl, -, -⟩ | ⟨c, rfl, -, -, -⟩
  · exact ⟨List.mem_cons_self, h⟩
  · exact List.mem_cons_of_mem _ List.mem_cons_self
  · trivial
  · trivial

theorem closeNextByte_gated (gates : List Fault) (s : State) (l : Bool) (q : Byte × Bool × State) :
    AnswerGated gates s (closeNextByte l q) :=
  .reply (closeNextByte_eq l q) (Option.some_ne_none _)

theorem execNextByte_gated (l : Bool) (s : State) : AnswerGated [.uninit, .burst] s (execNextByte l s) := by
  rcases execNextByte_cases l s with
    ⟨r, e, ⟨rfl, h⟩ | ⟨rfl, -, -⟩ | ⟨-, ⟨rfl, -, -⟩ | ⟨c, rfl, -, -, -⟩⟩⟩ | ⟨c, -, -, -, -, -, e⟩ | ⟨-, -, -, e⟩
  · exact .fault e ⟨List.mem_cons_self, h⟩
  · exact .fault e (List.mem_cons_of_mem _ List.mem_cons_self)
  · exact .fault e trivial
  · exact .fault e trivial
  · exact e ▸ closeNextByte_gated _ s l _
  · exact e ▸ closeNextByte_gated _ s l _

theorem execWritePage_gated (page : List Byte) (s : State) : AnswerGated [.uninit, .burst] s (execWritePage page s) := by
  rcases execWritePage_cases page s with ⟨-, e⟩ | ⟨-, ⟨r, e, h⟩ | ⟨c, -, -, e⟩ | ⟨c, -, -, -, e⟩⟩
  · exact .refusal e
  · exact .fault e (.access h)
  · exact .reply e (Option.some_ne_none _)
  · exact .reply e (Option.some_ne_none _)

theorem sdpRun_gated (seq : List (Nat × Byte)) (s : State) : AnswerGated [.uninit, .burst] s (sdpRun seq s) := by
  rcases sdpRun_cases seq s with
    ⟨-, e⟩ | ⟨-, -, ⟨r, e, ⟨rfl, h⟩ | ⟨rfl, -, -⟩ | ⟨o, rfl, -, -⟩⟩ | ⟨-, -, -, e⟩⟩
  · exact .refusal e
  · exact .fault e ⟨List.mem_cons_self, h⟩
  · exact .fault e (List.mem_cons_of_mem _ List.mem_cons_self)
  · exact .fault e trivial
  · exact .reply e (Option.some_ne_none _)

theorem onParallel_gated (gates : List Fault) (s u : State) (v : OpResult) :
    AnswerGated gates s (onParallel s (u.returns v)) := by
  rcases onParallel_cases s (u.returns v) with ⟨-, e⟩ | ⟨-, e⟩
  · exact .reply (e.trans (returns_next u v)) (Option.some_ne_none v)
  · exact .refusal e

theorem onI2c_gated (gates : List Fault) (s u : State) (v : OpResult) : AnswerGated gates s (onI2c s (u.returns v)) := by
  rcases onI2c_cases s (u.returns v) with ⟨-, e⟩ | ⟨-, e⟩
  · exact .reply (e.trans (returns_next u v)) (Option.some_ne_none v)
  · exact .refusal e

/-- Every instruction takes the faults of its gates only, in the phase they speak of. -/
theorem exec_gated (i : Instr) (s : State) : AnswerGated i.gates s (exec i s) := by
  cases i with
  | reset =>
    rcases execReset_cases s with ⟨h, e⟩ | ⟨-, e⟩
    · exact .fault e ⟨List.mem_cons_self, h⟩
    · exact .reply e (Option.some_ne_none _)
  | advance n =>
    rcases execAdvance_cases n s with ⟨h, e⟩ | ⟨-, -, e⟩ | ⟨c, -, -, -, e⟩ | ⟨c, -, -, -, e⟩
    · exact .fault e ⟨List.mem_cons_self, h⟩
    · exact .fault e trivial
    · exact .fault e trivial
    · exact .reply e (Option.some_ne_none _)
  | getcount =>
    rcases execGetcount_cases s with ⟨-, e⟩ | ⟨c, -, e⟩
    · exact .fault e trivial
    · exact .reply e (Option.some_ne_none _)
  | init =>
    rcases execInit_cases s with ⟨h, e⟩ | ⟨-, e⟩
    · exact .fault e ⟨List.mem_cons_self, h⟩
    · exact .reply e (Option.some_ne_none _)
  | resetMemory =>
    rcases execResetMemory_cases s with ⟨h, e⟩ | ⟨-, e⟩
    · exact .fault e ⟨List.mem_cons_self, h⟩
    · exact .reply e (Option.some_ne_none _)
  | startSeqRead =>
    rcases execStartSeqRead_cases s with ⟨r, e, h⟩ | ⟨c, -, -, e⟩
    · exact .fault e (.access h)
    · exact .reply e (Option.some_ne_none _)
  | nextByte l => exact execNextByte_gated l s
  | writeByte v =>
    rcases execWriteByte_cases v s with ⟨r, e, h⟩ | ⟨c, -, -, e⟩
    · exact .fault e (.access h)
    · exact .reply e (Option.some_ne_none _)
  | writePage page => exact execWritePage_gated page s
  | lastFailure =>
    rcases execLastFailure_cases s with ⟨b, -, e⟩ | ⟨-, e⟩
    · exact .reply e (Option.some_ne_none _)
    · exact .reply e (Option.some_ne_none _)
  | setWriteDelay d => exact .reply (execSetWriteDelay_eq d s) (Option.some_ne_none _)
  | sdpEnable => exact sdpRun_gated s.cfg.sdpEnableSeq s
  | sdpDisable => exact sdpRun_gated s.cfg.sdpDisableSeq s
  | pIdle | pClkPulse | pRstPulse | pReadStrobe | pWriteStrobe v | pSelect l => exact onParallel_gated _ s _ _
  | iStart | iRepStart | iStop | iTx role v | iRxAck | iRxNack => exact onI2c_gated _ s _ _
  | delay d => exact .reply (execDelay_eq d s) (Option.some_ne_none _)

/-- A fault that an instruction is not gated for is not its next state. -/
theorem exec_ne_fault {s t : State} {i : Instr} {r : Fault} (h : exec i s = .next t) (hr : ¬ Gated i.gates s r) :
    t ≠ marked s (.fault r) := by
  rintro rfl
  exact hr (exec_gated i s r h)

/-- Settles O8: an operation's phase check comes before its others, and the table of gates says which operations have one. -/
theorem phaseGating : Obligations.PhaseGating := by
  refine ⟨fun s hu => ⟨fun i hi => ?_, fun n => if_pos hu, fun l => if_pos hu, fun v => if_pos hu,
    fun page hp => exec_writePage_checked hp fun go => if_pos hu, fun hb hp i hi => ?_⟩, fun s hr => if_pos hr,
    fun s t i hi hu h => ?_, fun s t i hi hr h => ?_⟩
  · simp only [List.mem_cons, List.not_mem_nil, or_false] at hi
    rcases hi with rfl | rfl | rfl
    exacts [if_pos hu, if_pos hu, if_pos hu]
  · have available := (sdpAvailable_iff s.cfg).2 ⟨hb, hp⟩
    simp only [List.mem_cons, List.not_mem_nil, or_false] at hi
    rcases hi with rfl | rfl
    exacts [sdpRun_uninit _ available hu, sdpRun_uninit _ available hu]
  · have ungated : .uninit ∉ i.gates := by
      simp only [List.mem_cons, List.not_mem_nil, or_false] at hi
      rcases hi with (rfl | rfl | rfl) | ⟨d, rfl⟩ <;> simp [Instr.gates]
    exact ⟨exec_ne_fault h fun ⟨g, _⟩ => ungated g, exec_ne_fault h fun ⟨_, hr⟩ => nomatch hu.symm.trans hr⟩
  · have ungated : .reinit ∉ i.gates := by cases i <;> simp_all [Instr.gates]
    exact ⟨exec_ne_fault h fun ⟨_, hu⟩ => (nomatch hr.symm.trans hu), exec_ne_fault h fun ⟨g, _⟩ => ungated g⟩

/-- Settles O9: the burst check follows the phase check, and the table of gates says which operations have one. -/
theorem burstGating : Obligations.BurstGating := by
  refine ⟨fun s hr ho => ⟨atCounter_opened hr ho _, fun v => atCounter_opened hr ho _,
    fun page hp => exec_writePage_checked hp (atCounter_opened hr ho), fun hb hp i hi => ?_⟩,
    fun s hr hn l => exec_nextByte_closed l hr hn, fun s t i hi h => exec_ne_fault h ?_, fun s t hr h => ?_⟩
  · have available := (sdpAvailable_iff s.cfg).2 ⟨hb, hp⟩
    simp only [List.mem_cons, List.not_mem_nil, or_false] at hi
    rcases hi with rfl | rfl
    exacts [sdpRun_opened _ available hr ho, sdpRun_opened _ available hr ho]
  · simp only [List.mem_cons, List.not_mem_nil, or_false] at hi
    rcases hi with (rfl | rfl | rfl | rfl) | ⟨n, rfl⟩ | ⟨d, rfl⟩ <;> simp [Gated, Instr.gates]
  · rcases execResetMemory_cases s with ⟨hu, -⟩ | ⟨-, e⟩
    · cases hr.symm.trans hu
    · rw [← Host.Outcome.next.inj (e.symm.trans h)]

/-! ## The control operations -/

/-- The state INIT leaves on I2C (rules R133, R203). -/
theorem exec_init_i2c {s : State} (h : s.phase = .uninit) (hb : s.cfg.backend = .i2c) :
    exec .init s = .next { initI2c s with phase := .ready, burst := .none, result := some .unit } := by
  rcases execInit_cases s with ⟨h', -⟩ | ⟨-, e⟩
  · cases h.symm.trans h'
  · refine e.trans ?_
    simp only [initBody, hb]

/-- Settles O15: past the phase check INIT is the backend's body. -/
theorem initMakesTheBlockReady : Obligations.InitMakesTheBlockReady := by
  refine ⟨encode_eq .init, fun s hr => if_pos hr, fun s hu hb => ?_, fun s hu hb => exec_init_i2c hu hb⟩
  rw [exec_init_parallel hu hb, pIdle_eq]

theorem exec_resetMemory_ready {s : State} (h : s.phase = .ready) :
    exec .resetMemory s = .next { resetMemoryBody s with burst := .none, result := some .unit } := by
  rcases execResetMemory_cases s with ⟨hu, -⟩ | ⟨-, e⟩
  · cases h.symm.trans hu
  · exact e

/-- A STOP with nothing pending starts no write cycle (rule R65; log 24). -/
theorem iStop_nothingPending {s : State} (hp : s.dev.pending = []) : iStop s =
    { s with bus := .idle, txstate := .idle, trace := s.trace ++ [.iStop .stop] } := by
  simp only [iStop, devStop, hp, List.isEmpty_nil, if_true]
  rfl

/-- Settles O16: past the phase check RESET_MEMORY is P_IDLE or a STOP, which starts no write cycle with nothing pending. -/
theorem resetMemoryIdlesLinesAndBus : Obligations.ResetMemoryIdlesLinesAndBus := by
  refine ⟨encode_eq .resetMemory, fun s hu => if_pos hu, fun s hr hb => ?_, fun s hr hb hp => ?_⟩
  · rw [exec_resetMemory_ready hr]
    simp only [resetMemoryBody, hb, resetMemoryParallel, pIdle_eq]
  · rw [exec_resetMemory_ready hr]
    simp only [resetMemoryBody, hb, resetMemoryI2c, iStop_nothingPending hp]

/-- Settles O17: the status is all that LAST_FAILURE looks at. -/
theorem lastFailureReturnsTheStatus : Obligations.LastFailureReturnsTheStatus := by
  refine ⟨encode_eq .lastFailure, fun s b h => ?_, fun s h => ?_⟩
  · rcases execLastFailure_cases s with ⟨b', hset, e⟩ | ⟨hunset, -⟩
    · obtain rfl := Option.some.inj (hset.symm.trans h)
      exact e
    · cases h.symm.trans hunset
  · rcases execLastFailure_cases s with ⟨b, hset, -⟩ | ⟨-, e⟩
    · cases h.symm.trans hset
    · exact e

/-- Settles O18: SET_WRITE_DELAY makes no check. -/
theorem setWriteDelaySetsTheDelay : Obligations.SetWriteDelaySetsTheDelay :=
  ⟨fun d => encode_eq (.setWriteDelay d), fun s d => execSetWriteDelay_eq d s⟩

/-- What a delay does to a device that is not idle (rule R63): writes at pending addresses only, and with a short delay free values
at each of them. -/
theorem devDelay_occupied {s : State} (d : Nat) (h : devOccupied s = true) :
    (devDelay d s).dev.pending = [] ∧ (devDelay d s).dev.busy = !writeDelayOk s.cfg d ∧
      (devDelay d s).dev.ptr = s.dev.ptr ∧ WritesIn (· ∈ s.dev.pending.map (·.1)) s.dev.mem (devDelay d s).dev.mem ∧
      (writeDelayOk s.cfg d = false → ∀ c ∈ s.dev.pending,
        ∃ n, s.draws ≤ n ∧ memRead (devDelay d s).dev.mem c.1 = Config.freeByte n) := by
  obtain ⟨m, l, n, e, hw⟩ := devDelay_spec d s
  refine ⟨by rw [e], by rw [e, h]; rfl, by rw [e], by rw [e]; exact hw, fun short c hc => ?_⟩
  rw [devDelay_short h short, spoilAll_eq]
  exact memRead_drawn (List.mem_map_of_mem hc) s.draws s.dev.mem

/-- Settles O19: DELAY is the device's side and one event. -/
theorem delayActsOnTheDeviceOnly : Obligations.DelayActsOnTheDeviceOnly := by
  refine ⟨fun d => encode_eq (.delay d), fun s d => ⟨_, execDelay_eq d s, by rw [delay_eq], fun hi => ?_, fun hi => ?_⟩⟩
  · rw [delay_eq, devDelay_idle d.toNat hi.1 hi.2]
    exact ⟨rfl, rfl⟩
  · obtain ⟨pending, busy, ptr, writes, lost⟩ := devDelay_occupied d.toNat (devOccupied_iff.2 hi)
    rw [delay_eq]
    refine ⟨pending, busy, ptr, fun a ha => writes.read fun hm => ?_, lost⟩
    obtain ⟨c, hc, rfl⟩ := List.mem_map.1 hm
    exact ha c hc rfl

/-! ## Reading -/

/-- Settles O20: past the checks START_SEQ_READ selects the device and draws a status. -/
theorem parallelReadBurstOpens : Obligations.ParallelReadBurstOpens := by
  intro s c hat hlt hb
  rw [exec_startSeqRead_ready hat hlt, startSeqReadBody_parallel c hb, pSelect_true]
  rfl

/-- A counter within an I2C device fits the two address bytes (rules R54, R57). -/
theorem lt_65536_of_i2c {s : State} {c : Nat} (hc : configOk s.cfg = true) (hb : s.cfg.backend = .i2c)
    (hlt : c < s.cfg.capacity) : c < 65536 :=
  Nat.lt_of_lt_of_le hlt (configOk_i2c hc hb).1

/-- START_SEQ_READ on I2C past the checks (rules R130, R204). -/
theorem exec_startSeqRead_i2c {s : State} {c : Nat} (hat : AtCounter s c) (hlt : c < s.cfg.capacity)
    (hb : s.cfg.backend = .i2c) : exec .startSeqRead s = .next
      { (startSeqReadI2c c s).2 with burst := if (startSeqReadI2c c s).1 then .opened else .none,
                                     result := some (.flag (startSeqReadI2c c s).1) } := by
  rw [exec_startSeqRead_ready hat hlt]
  simp only [startSeqReadBody, hb]

/-- Settles O21: each of the six steps gets its expected answer. -/
theorem i2cReadBurstOpens : Obligations.I2cReadBurstOpens := by
  intro s c hc hat hlt hb hbus
  have e := exec_startSeqRead_i2c hat hlt hb
  rw [startSeqReadI2c_expected hc hlt (lt_65536_of_i2c hc hb hlt) (answersExpected_of_cooperative hbus 6)] at e
  exact ⟨_, e, rfl, cooperative_after hbus rfl, rfl⟩

/-- NEXT_BYTE's body on PARALLEL with an occupied device or bad holds: the byte is a draw, and the status the next one (rules R158,
R61). -/
theorem nextByteParallel_draw {s : State} (l : Bool) (ho : s.burst = .opened) (hl : LinesBetween s)
    (h : ¬ DeviceIdle s ∨ s.cfg.holdOk = false) :
    let b := Config.freeByte s.draws
    nextByteParallel l s = (b, true,
      { s with lines := ⟨if l then .deasserted else .asserted, .deasserted, .deasserted, .deasserted, .deasserted⟩,
               status := some (Config.freeByte (s.draws + 1)), draws := s.draws + 2,
               trace := s.trace ++ (if l then [.pReadStrobe b, .pSelect false] else [.pReadStrobe b]) }) := by
  obtain ⟨hlines, -⟩ := hl
  rw [if_pos ho] at hlines
  have hr := pReadStrobe_draw (h.imp_left devOccupied_iff.2)
  cases l
  · simp only [nextByteParallel, hr, hlines]; rfl
  · simp only [nextByteParallel, hr, hlines, pSelect_false, List.append_assoc]; rfl

/-- Settles O23: the read strobe's byte is the device's or a draw, and only the last byte deselects the device. -/
theorem parallelNextByteReadsMemory : Obligations.ParallelNextByteReadsMemory := by
  intro s c l hr ho hctr hlt hb hl
  have e := exec_nextByte_parallel l hr ho hctr hlt hb
  rw [closeNextByte_eq] at e
  refine ⟨fun hi hh => ?_, fun h => ?_⟩
  · simpa only [nextByteParallel_good l ho hl hi hh, Bool.not_true, Bool.or_false, ho] using e
  · simpa only [nextByteParallel_draw l ho hl h, Bool.not_true, Bool.or_false, ho] using e

/-- Settles O24: the read step gets its expected answer, and the device's byte with it. -/
theorem i2cNextByteReadsMemory : Obligations.I2cNextByteReadsMemory := by
  intro s l hc hr ho hb hbus hi
  have e := exec_nextByte_i2c l hr ho hb
  rw [nextByteI2c_expected l hc (answersExpected_of_cooperative hbus 1) hi, closeNextByte_eq] at e
  refine ⟨_, e, cooperative_after hbus rfl, ?_⟩
  simp only [Bool.not_true, Bool.or_false, ho]

/-! ## Writing -/

/-- Settles O26: the alignment check stands before the overflow check and the backend's body. -/
theorem misalignedPageWriteFails : Obligations.MisalignedPageWriteFails := by
  intro s c page hat hp ha
  calc exec (.writePage page) s
    _ = atCounter s _ := if_neg (not_not_intro hp)
    _ = if pageAligned c = true then _ else _ := atCounter_ready hat _
    _ = (s.setStatus (some sentinel)).returns (.flag false) := if_neg fun h => ha ((pageAligned_iff c).1 h)

/-- A strobe to an idle device with good holds, in full (rules R157, R62). -/
theorem pWriteStrobe_good {s : State} (v : Byte) (hi : DeviceIdle s) (hh : s.cfg.holdOk = true) : pWriteStrobe v s =
    { s with lines := { s.lines with ce := .deasserted, oe := .deasserted, we := .deasserted }, dbusDir := .input,
             dbusOut := v, trace := s.trace ++ [.pWriteStrobe v],
             dev := { s.dev with pending := [(s.hwctr % s.cfg.capacity, v)] } } := by
  obtain ⟨dev, draws⟩ := pWriteStrobe_idle v hi hh
  simp only [pWriteStrobe_eq] at dev draws ⊢
  rw [dev, draws]

/-- Settles O27: the strobe's byte is pending alone, and the good delay brings it to memory. -/
theorem parallelWriteByteStores : Obligations.ParallelWriteByteStores := by
  intro s c v hc hat hlt hb hi hu hh hd
  rw [exec_writeByte_parallel v hat hlt hb, pWriteStrobe_good v hi hh, delay_eq,
    devDelay_onePage]
  · obtain ⟨busy, pending⟩ := hi
    simp [busy, pending, memWriteAll, State.setStatus, State.setDraws]
  exacts [hc, hb, hu, List.cons_ne_nil _ _, rfl, by simp, hd]

/-- WRITE_BYTE and WRITE_PAGE on I2C past the checks are a transaction (rules R206, R207). -/
theorem exec_writeByte_i2c {s : State} {c : Nat} (v : Byte) (hat : AtCounter s c) (hlt : c < s.cfg.capacity)
    (hb : s.cfg.backend = .i2c) : exec (.writeByte v) s = .next
      { (writeTransaction false c [v] s).2 with result := some (.flag (writeTransaction false c [v] s).1) } := by
  rw [exec_writeByte_ready v hat hlt]
  simp only [writeByteBody, hb, writeByteI2c]

theorem exec_writePage_i2c {s : State} {c : Nat} {page : List Byte} (hat : AtCounter s c) (hlt : c < s.cfg.capacity)
    (ha : c % 64 = 0) (hp : page.length = 64) (hb : s.cfg.backend = .i2c) : exec (.writePage page) s = .next
      { (writeTransaction true c page s).2 with result := some (.flag (writeTransaction true c page s).1) } := by
  rw [exec_writePage_ready hat hlt ha hp]
  simp only [writePageBody, hb, writePageI2c]

/-- Settles O28: the frame, the one data byte, STOP and DELAY, each step with its expected answer. -/
theorem i2cWriteByteStores : Obligations.I2cWriteByteStores := by
  intro s c v hc hat hlt hb hbus hi hd
  have room : c % 64 + [v].length ≤ 64 := by simp; omega
  obtain ⟨p, hw⟩ := writeTransaction_expected (count := false) (bytes := [v]) hc hb hlt (lt_65536_of_i2c hc hb hlt) (by simp)
    room (answersExpected_of_cooperative hbus _) hi.1 hi.2 hd
  have e := exec_writeByte_i2c v hat hlt hb
  rw [hw] at e
  refine ⟨_, e, cooperative_after hbus rfl, ?_⟩
  simp [dataEvents, consecutive, memWriteAll]

/-! ## What a write does to the device -/

/-- d' is d after a write that has run its course: nothing is pending, the latch is as it was, and memory has been written at
addresses of A only. -/
structure DeviceWritten (A : Nat → Prop) (d d' : Device) : Prop where
  pending : d'.pending = []
  latch : d'.latch = d.latch
  writes : WritesIn A d.mem d'.mem

/-- The addresses of the page written at c. -/
def InPage (c a : Nat) : Prop := c ≤ a ∧ a < c + 64

theorem DeviceWritten.outsidePage {c : Nat} {d d' : Device} (h : DeviceWritten (InPage c) d d') {x : Nat}
    (hx : x < c ∨ c + 64 ≤ x) : memRead d'.mem x = memRead d.mem x :=
  h.writes.read fun ⟨low, high⟩ => by omega

/-- Pending writes that are not six are no SDP sequence, and leave the latch alone (rules R64, R170). -/
theorem devDelay_latch_of_length {s : State} (d : Nat) (hc : configOk s.cfg = true) (h6 : s.dev.pending.length ≠ 6) :
    (devDelay d s).dev.latch = s.dev.latch := by
  obtain ⟨enable, disable⟩ := configOk_sdp hc
  exact devDelay_latch d (.inr ⟨fun e => h6 (e ▸ enable), fun e => h6 (e ▸ disable)⟩)

/-- Strobes and a delay (rules R62, R63). -/
theorem Machine.LoadsIn.written {A : Nat → Prop} {d : Device} {u : State} (n : Nat) (h : LoadsIn A d u.dev)
    (hp : d.pending = []) (hc : configOk u.cfg = true) (h6 : u.dev.pending.length ≠ 6) :
    DeviceWritten A d (devDelay n u).dev := by
  obtain ⟨writes, pending, -, -⟩ := h.delayed n hp
  obtain ⟨m, l, e, -, -⟩ := h
  exact ⟨pending, (devDelay_latch_of_length n hc h6).trans (by rw [e]), writes⟩

/-! ## The frame of a write on PARALLEL -/

theorem writeByteParallel_written {s : State} (v : Byte) (hc : configOk s.cfg = true) (hp : s.dev.pending = []) :
    DeviceWritten (· = s.hwctr % s.cfg.capacity) s.dev (devDelay s.wdelay (pWriteStrobe v s)).dev := by
  obtain ⟨-, pending⟩ := devWrite_pending (s.hwctr % s.cfg.capacity) v s
  have loads := devWrite_loads (s.hwctr % s.cfg.capacity) v s
  have dev : (pWriteStrobe v s).dev = (devWrite (s.hwctr % s.cfg.capacity) v s).dev := by rw [pWriteStrobe_eq]
  rw [← dev] at pending loads
  refine loads.written s.wdelay hp ((pWriteStrobe_moves v s).cfg ▸ hc) ?_
  rw [pending, hp]
  split <;> simp

/-- WRITE_PAGE on PARALLEL returns true whatever becomes of the page: 64 strobes, pulses and counts, and one DELAY (rule R162). -/
theorem exec_writePage_parallel {s : State} {c : Nat} {page : List Byte} (hc : configOk s.cfg = true) (hat : AtCounter s c)
    (hlt : c < s.cfg.capacity) (ha : c % 64 = 0) (hp : page.length = 64) (hb : s.cfg.backend = .parallel)
    (hw : s.hwctr = c % 2 ^ s.cfg.ctrBits) : ∃ o x n d, exec (.writePage page) s = .next
      { s with lines := ⟨.deasserted, .deasserted, .deasserted, .deasserted, s.lines.rst⟩, dbusDir := .input, dbusOut := o,
               ctr := some (c + 64), hwctr := (c + 64) % 2 ^ s.cfg.ctrBits,
               trace := s.trace ++ pageEvents page ++ [.delay s.wdelay], status := some x, draws := n, dev := d,
               result := some (.flag true) } ∧
      (s.dev.pending = [] → DeviceWritten (InPage c) s.dev d) := by
  have ⟨_, _, hctr⟩ := hat
  obtain ⟨hcap, h64, -⟩ := configOk_parallel hc hb
  have hne : page ≠ [] := List.ne_nil_of_length_pos (by omega)
  obtain ⟨o, d, n, hs, loads, ⟨-, pending⟩, -⟩ := strobePage_spec page s c hctr hw (by omega) hcap
  rw [hp] at hs loads pending
  rw [if_neg hne, if_neg hne] at hs
  have e := exec_writePage_ready hat hlt ha hp
  simp only [writePageBody, hb, writePageParallel, hs, delay_eq] at e
  refine ⟨o, _, _, _, e, fun hnone => LoadsIn.written s.wdelay loads hnone hc ?_⟩
  simp only [pending, hnone]
  split <;> decide

/-! ## Pages in memory -/

/-- A page written at c is read back there, and every other address as before. -/
theorem pageStored {m : Memory} {c : Nat} {page : List Byte} (hp : page.length = 64) :
    (∀ i, i < 64 → memRead (memWriteAll m (consecutive c page)) (c + i) = pageByte page i) ∧
      ∀ x, x < c ∨ c + 64 ≤ x → memRead (memWriteAll m (consecutive c page)) x = memRead m x := by
  refine ⟨fun i hi => memRead_consecutive page m c i (hp ▸ hi), fun x hx => ?_⟩
  exact (writesIn_consecutive m c page).read fun ⟨low, high⟩ => by omega

/-- Settles O30: the 64 strobes are in one page, and the good delay brings them to memory. -/
theorem parallelWritePageStores : Obligations.ParallelWritePageStores := by
  intro s c page hc hat hlt ha hp hb hw
  have ⟨_, _, hctr⟩ := hat
  obtain ⟨o, x, n, d, e, -⟩ := exec_writePage_parallel hc hat hlt ha hp hb hw
  refine ⟨_, e, rfl, Option.some_ne_none x, fun hi hu hh hd => ?_⟩
  have room : c + 64 ≤ s.cfg.capacity := by have := (configOk_pages hc).1; omega
  obtain ⟨o', good⟩ := writePageParallel_good hc hb hctr hw ha room hp hi hu hh hd
  have e' := exec_writePage_ready hat hlt ha hp
  simp only [writePageBody, hb, good] at e'
  obtain rfl : d = { s.dev with mem := memWriteAll s.dev.mem (consecutive c page) } :=
    congrArg State.dev (Host.Outcome.next.inj (e.symm.trans e'))
  obtain ⟨stored, others⟩ := pageStored (m := s.dev.mem) (c := c) hp
  exact ⟨hi, stored, others⟩

/-- WRITE_PAGE on I2C with the expected answers, an idle device and a good delay (rules R207, R65). -/
theorem exec_writePage_i2c_expected {s : State} {c : Nat} {page : List Byte} (hc : configOk s.cfg = true)
    (hat : AtCounter s c) (hlt : c < s.cfg.capacity) (ha : c % 64 = 0) (hp : page.length = 64) (hb : s.cfg.backend = .i2c)
    (hbus : Cooperative s) (hi : DeviceIdle s) (hd : writeDelayOk s.cfg s.wdelay = true) :
    ∃ p, exec (.writePage page) s = .next
      { s with ctr := some (c + 64), bus := .idle, txstate := .idle, status := some s.cfg.expTxAck,
               oracle := oracleAfter 68 s.oracle, result := some (.flag true),
               trace := s.trace ++ frameEvents s.cfg c ++ dataEvents s.cfg page ++ [.iStop .stop, .delay s.wdelay],
               dev := { s.dev with mem := memWriteAll s.dev.mem (consecutive c page), ptr := p, addrHi := addrHiByte c } } := by
  have ⟨_, _, hctr⟩ := hat
  obtain ⟨busy, pending⟩ := hi
  obtain ⟨p, hw⟩ := writeTransaction_expected (count := true) (bytes := page) hc hb hlt (lt_65536_of_i2c hc hb hlt)
    (List.ne_nil_of_length_pos (by omega)) (by omega) (answersExpected_of_cooperative hbus _) busy pending hd
  refine ⟨p, ?_⟩
  rw [exec_writePage_i2c hat hlt ha hp hb, hw, hp, hctr]
  rfl

/-- Settles O31: the frame, 64 data bytes, STOP and DELAY, each step with its expected answer. -/
theorem i2cWritePageStores : Obligations.I2cWritePageStores := by
  intro s c page hc hat hlt ha hp hb hbus hi hd
  obtain ⟨p, e⟩ := exec_writePage_i2c_expected hc hat hlt ha hp hb hbus hi hd
  obtain ⟨stored, others⟩ := pageStored (m := s.dev.mem) (c := c) hp
  exact ⟨_, e, cooperative_after hbus rfl, rfl, hi, rfl, stored, others⟩

/-- Settles O56: on both backends the page is written to the memory they agree on. -/
theorem backendsAgreeOnPageWrite : Obligations.BackendsAgreeOnPageWrite := by
  intro p q c page hinvp hinvq hbp hbq hcap hmem hatp hatq hlt ha hp hip hiq hu hh hbus hdp hdq
  obtain ⟨hr, hn, hctr⟩ := hatp
  have readable : Readable p c := ⟨hinvp, hr, hctr, hip, hh, fun hb => nomatch hbp.symm.trans hb⟩
  obtain ⟨t, et, ht, -, -, tresult, tmem⟩ := readable.writePage hn hlt ha hp hu hdp
  obtain ⟨x, eu⟩ := exec_writePage_i2c_expected hinvq.config hatq (hcap ▸ hlt) ha hp hbq hbus hiq hdq
  exact ⟨t, _, et, eu, tresult, ht.ctr, tmem.trans (by rw [hmem])⟩

/-! ## The frame of the writes -/

/-- A write transaction for every answer of the bus, with nothing pending before it: its first k bytes are counted, all of them after
a success and fewer after a failure. -/
theorem writeTransaction_frame (count : Bool) {c : Nat} {bytes : List Byte} {s : State} (hc : configOk s.cfg = true)
    (hb : s.cfg.backend = .i2c) (hlt : c < s.cfg.capacity) (hctr : s.ctr = some c) (hp : s.dev.pending = [])
    (hroom : c % 64 + bytes.length ≤ 64) (hpos : 0 < bytes.length) :
    ∃ k, BusMoves { s with ctr := if count then some (c + k) else s.ctr } (writeTransaction count c bytes s).2 ∧
      ((writeTransaction count c bytes s).1 = true → k = bytes.length) ∧
      ((writeTransaction count c bytes s).1 = false → k < bytes.length) ∧
      DeviceWritten (fun a => c ≤ a ∧ a < c + bytes.length) s.dev (writeTransaction count c bytes s).2.dev := by
  obtain ⟨k, moves, -, -, all, fewer, pending, latch, writes, -⟩ := writeTransaction_spec (count := count) hlt
    (lt_65536_of_i2c hc hb hlt) hctr hp hroom hpos hb
  exact ⟨k, moves, all, fewer, pending, latch, writes⟩

/-- A single byte's range is its address. -/
theorem DeviceWritten.oneByte {c : Nat} {v : Byte} {d d' : Device}
    (h : DeviceWritten (fun a => c ≤ a ∧ a < c + [v].length) d d') {x : Nat} (hx : x ≠ c) :
    memRead d'.mem x = memRead d.mem x :=
  h.writes.read fun ⟨low, high⟩ => hx (by simp at high; omega)

/-- Settles O29: on PARALLEL one strobe and a delay, on I2C a transaction of one byte. -/
theorem writeByteFrame : Obligations.WriteByteFrame := by
  intro s t c v hc hat hlt hp h
  have ⟨_, _, hctr⟩ := hat
  cases hb : s.cfg.backend with
  | parallel =>
    obtain rfl := Host.Outcome.next.inj ((exec_writeByte_parallel v hat hlt hb).symm.trans h)
    have written := writeByteParallel_written v hc hp
    rw [← drawStatus_delay_dev] at written
    exact ⟨by rw [delay_eq, pWriteStrobe_eq]; rfl, written.pending, written.latch, fun x hx => written.writes.read hx⟩
  | i2c =>
    obtain rfl := Host.Outcome.next.inj ((exec_writeByte_i2c v hat hlt hb).symm.trans h)
    obtain ⟨k, m, -, -, written⟩ := writeTransaction_frame false (bytes := [v]) hc hb hlt hctr hp (by simp; omega) (by simp)
    exact ⟨by rw [m.eq]; rfl, written.pending, written.latch, fun x hx => written.oneByte hx⟩

/-- Settles O33: on PARALLEL the whole page is strobed, on I2C the transaction counts the bytes it gets through. -/
theorem pageWriteFrame : Obligations.PageWriteFrame := by
  intro s t c page hc hat hlt ha hp hnone hw h
  have ⟨_, _, hctr⟩ := hat
  cases hb : s.cfg.backend with
  | parallel =>
    obtain ⟨o, x, n, d, e, written⟩ := exec_writePage_parallel hc hat hlt ha hp hb (hw hb)
    obtain rfl := Host.Outcome.next.inj (e.symm.trans h)
    refine ⟨rfl, (written hnone).pending, (written hnone).latch, ⟨c + 64, rfl, ?_⟩, .inl rfl,
      fun x hx => (written hnone).outsidePage hx⟩
    exact ⟨Nat.le_add_right _ _, Nat.le_refl _, fun _ => rfl, nofun⟩
  | i2c =>
    obtain rfl := Host.Outcome.next.inj ((exec_writePage_i2c hat hlt ha hp hb).symm.trans h)
    obtain ⟨k, m, all, fewer, written⟩ := writeTransaction_frame true (bytes := page) hc hb hlt hctr hnone (by omega) (by omega)
    rw [hp] at written all fewer
    generalize writeTransaction true c page s = q at *
    obtain ⟨ok, u⟩ := q
    cases ok with
    | true =>
      obtain rfl := all rfl
      exact ⟨by rw [m.eq], written.pending, written.latch, ⟨c + 64, m.ctr, by omega, Nat.le_refl _, fun _ => rfl, nofun⟩,
        .inl rfl, fun x hx => written.outsidePage hx⟩
    | false =>
      have hk : k < 64 := fewer rfl
      exact ⟨by rw [m.eq], written.pending, written.latch, ⟨c + k, m.ctr, by omega, by omega, nofun, fun _ => by omega⟩,
        .inr rfl, fun x hx => written.outsidePage hx⟩

/-! ## Writes that are refused -/

namespace Machine

/-- The count of draws does not go down over a byte. -/
theorem le_devTx_draws {n : Nat} {s : State} (h : n ≤ s.draws) (role : Role) (v : Byte) (acked : Bool) :
    n ≤ (devTx role v acked s).draws := by
  rw [devTx_eq]
  cases role with
  | slaW | slaR => exact h
  | addrHi | addrLo => simp only; split <;> exact h
  | data =>
    simp only
    split
    · exact Nat.le_succ_of_le h
    · split <;> exact h

/-- Data bytes with the expected answers to any device: each is counted, and the device has what it makes of them. -/
theorem sendBytes_answered (count : Bool) (bytes : List Byte) : ∀ s : State, configOk s.cfg = true →
    AnswersExpected bytes.length s.oracle → ∃ x y d n, sendBytes count bytes s = (true,
      { s with ctr := if count then s.ctr.map (· + bytes.length) else s.ctr, txstate := x, status := y,
               oracle := oracleAfter bytes.length s.oracle, trace := s.trace ++ dataEvents s.cfg bytes, dev := d,
               draws := n }) ∧ s.draws ≤ n := by
  induction bytes with
  | nil =>
    intro s _ _
    refine ⟨s.txstate, s.status, s.dev, s.draws, ?_, Nat.le_refl _⟩
    cases count <;> simp [sendBytes, dataEvents, oracleAfter]
  | cons b l ih =>
    intro s hc h
    simp only [List.length_cons] at h
    have h1 : AnswersExpected 1 s.oracle := h.mono (by omega)
    have hl : AnswersExpected l.length (oracleAfter 1 s.oracle) := (h.mono (by omega : 1 + l.length ≤ l.length + 1)).after
    obtain ⟨x, y, d, n, e, hn⟩ := ih { s with
      ctr := if count then s.ctr.map (· + 1) else s.ctr, oracle := oracleAfter 1 s.oracle, txstate := .dataByteAck,
      status := some s.cfg.expTxAck, dev := (devTx .data b true s).dev, draws := (devTx .data b true s).draws,
      trace := s.trace ++ [.iTx .data b s.cfg.expTxAck .dataByteAck] } hc hl
    refine ⟨x, y, d, n, ?_, Nat.le_trans (le_devTx_draws (Nat.le_refl _) .data b true) hn⟩
    rw [sendBytes, stepTx_expected .data b hc h1, thenStep_true, counted_eq]
    refine Eq.trans e ?_
    cases count <;> simp [oracleAfter_add, dataEvents, Function.comp_def, Nat.add_comm, Nat.add_assoc]

/-- A write transaction whose frame is refused at step k: the bus is stopped, and the device has at most kept an address-high byte
(rules R201, R202). -/
theorem writeTransaction_frameRefused {count : Bool} {s : State} {c k : Nat} {raw exp : Byte} {event : Byte → Event}
    {l : List (Option Byte)} (bytes : List Byte) (hc : configOk s.cfg = true) (hp : s.dev.pending = []) (hk : k < 4)
    (hs : s.oracle.script = List.replicate k none ++ some raw :: l) (he : (readSteps s.cfg c)[k]? = some (exp, event))
    (hm : raw &&& s.cfg.statusMask ≠ exp) : ∃ hi, writeTransaction count c bytes s = (false,
      { s with bus := .idle, txstate := .idle, status := some (raw &&& s.cfg.statusMask),
               oracle := { s.oracle with script := l },
               trace := s.trace ++ (frameEvents s.cfg c).take k ++ [event (raw &&& s.cfg.statusMask), .iStop .stop],
               dev := { s.dev with addrHi := hi } }) := by
  obtain ⟨x, hi, e⟩ := frame_refused hc hk hs he hm
  refine ⟨hi, ?_⟩
  simp only [writeTransaction, e, Bool.false_eq_true, if_false, abort]
  rw [iStop_nothingPending (by exact hp)]
  simp

/-- Data bytes of which b is the first to be refused: the ones before it are counted. -/
theorem sendBytes_refused (count : Bool) {s : State} {raw : Byte} {l : List (Option Byte)} (pre : List Byte) (b : Byte)
    (post : List Byte) (hc : configOk s.cfg = true) (hs : s.oracle.script = List.replicate pre.length none ++ some raw :: l)
    (hm : raw &&& s.cfg.statusMask ≠ s.cfg.expTxAck) : ∃ x d n, sendBytes count (pre ++ b :: post) s = (false,
      { s with ctr := if count then s.ctr.map (· + pre.length) else s.ctr, txstate := x,
               status := some (raw &&& s.cfg.statusMask), oracle := { s.oracle with script := l },
               trace := s.trace ++ dataEvents s.cfg pre ++ [.iTx .data b (raw &&& s.cfg.statusMask) .dataByteAck],
               dev := d, draws := n }) ∧ s.draws ≤ n := by
  have refused : (oracleAfter pre.length s.oracle).script = some raw :: l := by simp [oracleAfter, hs]
  have rest : oracleAfter 1 (oracleAfter pre.length s.oracle) = { s.oracle with script := l } := by
    rw [oracleAfter, refused]
    rfl
  obtain ⟨x, y, d, n, sent, hn⟩ := sendBytes_answered count pre s hc (answersExpected_of_script hs)
  rw [sendBytes_append, sent, thenStep_true, sendBytes, stepTx_refused (raw := raw) (l := l) b (by exact refused) (by exact hm),
    thenStep_false]
  simp only [rest]
  exact ⟨x, _, _, rfl, le_devTx_draws hn .data b false⟩

/-- A write transaction whose data byte b is the first step to be refused: the bytes before it are counted, the bus is stopped, and
the abort leaves the device busy with a draw at each address of the range (rules R202, R206, R207, R68). -/
theorem writeTransaction_dataRefused (count : Bool) {s : State} {c : Nat} {raw : Byte} {l : List (Option Byte)}
    (pre : List Byte) (b : Byte) (post : List Byte) (hc : configOk s.cfg = true) (hlt : c < s.cfg.capacity) (h16 : c < 65536)
    (hs : s.oracle.script = List.replicate (4 + pre.length) none ++ some raw :: l)
    (hm : raw &&& s.cfg.statusMask ≠ s.cfg.expTxAck) : ∃ d n, writeTransaction count c (pre ++ b :: post) s = (false,
      { s with ctr := if count then s.ctr.map (· + pre.length) else s.ctr, bus := .idle, txstate := .idle,
               status := some (raw &&& s.cfg.statusMask), oracle := { s.oracle with script := l },
               trace := s.trace ++ frameEvents s.cfg c ++ dataEvents s.cfg pre ++
                 [.iTx .data b (raw &&& s.cfg.statusMask) .dataByteAck, .iStop .stop],
               dev := d, draws := n }) ∧ d.busy = true ∧
      ∀ a ∈ addressRange c (pre ++ b :: post).length, ∃ k, s.draws ≤ k ∧ memRead d.mem a = Config.freeByte k := by
  have answers : AnswersExpected 4 s.oracle := (answersExpected_of_script hs).mono (by omega)
  obtain ⟨x, d, n, sent, hn⟩ := sendBytes_refused count (raw := raw) (l := l) pre b post
    (s := { s with bus := .held, txstate := .loAddrByteAck, status := some s.cfg.expTxAck, oracle := oracleAfter 4 s.oracle,
                   trace := s.trace ++ frameEvents s.cfg c, dev := { s.dev with ptr := c, addrHi := addrHiByte c } })
    hc (by simp [oracleAfter, hs, List.drop_append, List.drop_replicate]) hm
  refine ⟨{ d with mem := memWriteAll d.mem (drawnCells (addressRange c (pre ++ b :: post).length) n), pending := [],
                   busy := true }, n + (addressRange c (pre ++ b :: post).length).length, ?_, rfl, fun a ha => ?_⟩
  · rw [writeTransaction, frame_expected hc hlt h16 answers, if_pos rfl, sent, if_neg Bool.false_ne_true]
    simp only [abort, iStop_eq, devAbort_eq, List.append_assoc, List.singleton_append]
    rfl
  · obtain ⟨k, hk, e⟩ := memRead_drawn ha n d.mem
    exact ⟨k, Nat.le_trans hn hk, e⟩

/-- START_SEQ_READ whose step k is refused: the bus is stopped, and of the device at most the pointer and the address-high byte have
changed (rules R202, R204). -/
theorem startSeqReadI2c_refused {s : State} {c k : Nat} {raw exp : Byte} {event : Byte → Event} {l : List (Option Byte)}
    (hc : configOk s.cfg = true) (hlt : c < s.cfg.capacity) (h16 : c < 65536) (hp : s.dev.pending = [])
    (hs : s.oracle.script = List.replicate k none ++ some raw :: l) (he : (readSteps s.cfg c)[k]? = some (exp, event))
    (hm : raw &&& s.cfg.statusMask ≠ exp) : ∃ p hi, startSeqReadI2c c s = (false,
      { s with bus := .idle, txstate := .idle, status := some (raw &&& s.cfg.statusMask),
               oracle := { s.oracle with script := l },
               trace := s.trace ++ (readFrameEvents s.cfg c).take k ++ [event (raw &&& s.cfg.statusMask), .iStop .stop],
               dev := { s.dev with ptr := p, addrHi := hi } }) := by
  obtain ⟨x, p, hi, e⟩ := readFrame_refused hc hlt h16 hs he hm
  refine ⟨p, hi, ?_⟩
  simp only [startSeqReadI2c, e, Bool.false_eq_true, if_false, abort]
  rw [iStop_nothingPending (by exact hp)]
  simp

/-- A slave that does not answer its address: the frame ends before the device has taken any byte. -/
theorem startSeqReadI2c_noSlave {s : State} {c : Nat} {raw : Byte} {l : List (Option Byte)} (hc : configOk s.cfg = true)
    (hp : s.dev.pending = []) (hs : s.oracle.script = none :: some raw :: l)
    (hm : raw &&& s.cfg.statusMask ≠ s.cfg.expSlaWAck) : startSeqReadI2c c s = (false,
      { s with bus := .idle, txstate := .idle, status := some (raw &&& s.cfg.statusMask),
               oracle := { s.oracle with script := l },
               trace := s.trace ++ [.iStart s.cfg.expStart .start,
                 .iTx .slaW (s.cfg.devAddr7 ++ 0#1) (raw &&& s.cfg.statusMask) .slaveAddrAck, .iStop .stop] }) := by
  have start := stepStart_expected hc (answersExpected_of_script (n := 1) hs)
  have rest : oracleAfter 1 (oracleAfter 1 s.oracle) = { s.oracle with script := l } := by simp [oracleAfter, hs]
  simp only [startSeqReadI2c, readFrame, frame, start, thenStep_true]
  rw [stepTx_refused (raw := raw) (l := l) _ (by simp [oracleAfter, hs]) (by exact hm)]
  simp only [thenStep_false, Bool.false_eq_true, if_false, abort, devTx_eq]
  rw [iStop_nothingPending (by exact hp)]
  simp [rest, txNamed, slaWByte]

end Machine

/-- The steps of WRITE_BYTE before its data byte are the frame's. -/
theorem writeByteSteps_frame {cfg : Config} {c k : Nat} {v : Byte} (hk : k < 4) :
    (writeByteSteps cfg c v)[k]? = (readSteps cfg c)[k]? := by
  have four : k < ((readSteps cfg c).take 4).length := by simpa [readSteps] using hk
  rw [writeByteSteps, List.getElem?_append_left four, List.getElem?_take_of_lt hk]

/-- The fifth is the data byte's, and there is no sixth. -/
theorem writeByteSteps_data {cfg : Config} {c k : Nat} {v exp : Byte} {event : Byte → Event} (hk : ¬ k < 4)
    (h : (writeByteSteps cfg c v)[k]? = some (exp, event)) :
    k = 4 ∧ exp = cfg.expTxAck ∧ event = fun x => .iTx .data v x .dataByteAck := by
  have five : k < 5 := by simpa [writeByteSteps, readSteps] using (List.getElem?_eq_some_iff.1 h).1
  obtain rfl : k = 4 := by omega
  simpa [writeByteSteps, readSteps, eq_comm] using h

/-- Settles O22: the steps before the refused one get their expected answers, and the abort stops the bus; only a data byte's abort
spoils what was addressed. -/
theorem mismatchStopsTheBus : Obligations.MismatchStopsTheBus := by
  refine ⟨fun s c raw l hc hat hlt hb hp hs hm => ?_, fun s c k raw exp event l hc hat hlt hb hp hs hm =>
    ⟨fun he => ?_, fun v he => ?_, fun page hlen ha hk he => ?_⟩⟩
  · rw [exec_startSeqRead_i2c hat hlt hb, startSeqReadI2c_noSlave hc hp hs hm]
    rfl
  · obtain ⟨p, hi, e⟩ := startSeqReadI2c_refused hc hlt (lt_65536_of_i2c hc hb hlt) hp hs he hm
    refine ⟨_, exec_startSeqRead_i2c hat hlt hb, ?_⟩
    rw [e]
    rfl
  · have e := exec_writeByte_i2c v hat hlt hb
    by_cases hk : k < 4
    · rw [writeByteSteps_frame hk] at he
      obtain ⟨hi, refused⟩ := writeTransaction_frameRefused (count := false) [v] hc hp hk hs he hm
      rw [refused] at e
      exact ⟨_, e, rfl, fun _ => ⟨rfl, rfl⟩, fun h4 => absurd h4 (Nat.ne_of_lt hk)⟩
    · obtain ⟨rfl, rfl, rfl⟩ := writeByteSteps_data hk he
      have ⟨_, _, hctr⟩ := hat
      obtain ⟨d, n, refused, busy, spoiled⟩ := writeTransaction_dataRefused false [] v [] hc hlt
        (lt_65536_of_i2c hc hb hlt) hs hm
      obtain ⟨-, -, -, -, written⟩ := writeTransaction_frame false (bytes := [v]) hc hb hlt hctr hp (by simp; omega) (by simp)
      simp only [List.nil_append] at refused spoiled
      rw [refused] at e written
      have here : c ∈ addressRange c [v].length := by simp [addressRange]
      refine ⟨_, e, ?_, fun h => absurd h hk,
        fun _ => ⟨written.pending, busy, written.latch, spoiled c here, fun x hx => written.oneByte hx⟩⟩
      simp [dataEvents, frameEvents]
  · obtain ⟨hi, refused⟩ := writeTransaction_frameRefused (count := true) page hc hp hk hs he hm
    refine ⟨_, exec_writePage_i2c hat hlt ha hlen hb, ?_⟩
    rw [refused]

/-- Settles O32: the k bytes before the refused one are counted, and the abort spoils the page. -/
theorem partialPageAdvance : Obligations.PartialPageAdvance := by
  intro s c k page raw l hc hat hlt ha hlen hk hb hi hs hm
  have ⟨_, _, hctr⟩ := hat
  obtain ⟨-, pending⟩ := hi
  have taken : (page.take k).length = k := by simp; omega
  have pieces : page.take k ++ pageByte page k :: page.drop (k + 1) = page := by
    rw [pageByte, List.getD_eq_getElem _ _ (hlen ▸ hk), List.cons_getElem_drop_succ, List.take_append_drop]
  obtain ⟨d, n, refused, busy, -⟩ := writeTransaction_dataRefused true (page.take k) (pageByte page k) (page.drop (k + 1))
    hc hlt (lt_65536_of_i2c hc hb hlt) (by rw [taken]; exact hs) hm
  obtain ⟨-, -, -, -, written⟩ := writeTransaction_frame true (bytes := page) hc hb hlt hctr pending (by omega) (by omega)
  have e := exec_writePage_i2c hat hlt ha hlen hb
  rw [pieces, taken] at refused
  rw [refused] at e written
  rw [hlen] at written
  exact ⟨_, e, by simp [hctr], written.pending, busy, written.latch, fun x hx => written.outsidePage hx⟩

/-! ## After a failure -/

/-- An operation has returned false to its caller (rule R123). -/
def Failed (r : Option OpResult) : Prop := r = some (.flag false) ∨ ∃ b, r = some (.byteFlag b false)

/-- A false answer leaves the block READY and without a burst. -/
def AnswerFailsReady (a : Answer) : Prop := ∀ t, a = .next t → Failed t.result → t.phase = .ready ∧ t.burst = .none

theorem AnswerFailsReady.of_next {a : Answer} {t : State} (e : a = .next t)
    (h : Failed t.result → t.phase = .ready ∧ t.burst = .none) : AnswerFailsReady a := fun u hu => by
  obtain rfl := Host.Outcome.next.inj (e.symm.trans hu)
  exact h

/-- An answer that is not false. -/
theorem AnswerFailsReady.of_reply {a : Answer} {t : State} (e : a = .next t) (h : ¬ Failed t.result) : AnswerFailsReady a :=
  .of_next e fun hf => absurd hf h

theorem not_failed_none : ¬ Failed none := by simp [Failed]
theorem not_failed_unit : ¬ Failed (some .unit) := by simp [Failed]
theorem not_failed_count (n : Nat) : ¬ Failed (some (.count n)) := by simp [Failed]
theorem not_failed_byte (b : Byte) : ¬ Failed (some (.byte b)) := by simp [Failed]
theorem failed_flag {ok : Bool} : Failed (some (.flag ok)) ↔ ok = false := by simp [Failed]
theorem failed_byteFlag {b : Byte} {ok : Bool} : Failed (some (.byteFlag b ok)) ↔ ok = false := by simp [Failed]

theorem execStartSeqRead_failsReady (s : State) : AnswerFailsReady (execStartSeqRead s) := by
  rcases execStartSeqRead_cases s with ⟨r, e, -⟩ | ⟨c, hat, -, e⟩
  · exact .of_reply e not_failed_none
  · exact .of_next e fun hf => ⟨(startSeqReadBody_moves c s).phase.trans hat.1, by simp [failed_flag.1 hf]⟩

theorem closeNextByte_failsReady {s : State} {q : Byte × Bool × State} (l : Bool) (hr : s.phase = .ready) (m : Moves s q.2.2) :
    AnswerFailsReady (closeNextByte l q) :=
  .of_next (closeNextByte_eq l q) fun hf => ⟨m.phase.trans hr, by simp [failed_byteFlag.1 hf]⟩

theorem execNextByte_failsReady (l : Bool) (s : State) : AnswerFailsReady (execNextByte l s) := by
  rcases execNextByte_cases l s with ⟨r, e, -⟩ | ⟨c, -, hr, -, -, -, e⟩ | ⟨-, hr, -, e⟩
  · exact .of_reply e not_failed_none
  · exact e ▸ closeNextByte_failsReady l hr (nextByteParallel_moves l s)
  · exact e ▸ closeNextByte_failsReady l hr (nextByteI2c_moves l s)

/-- The writes run in READY without a burst, and leave both alone. -/
theorem Machine.Moves.failsReady {s u : State} {a : Answer} {c : Nat} {r : Option OpResult} (m : Moves s u) (hat : AtCounter s c)
    (e : a = .next { u with result := r }) : AnswerFailsReady a :=
  .of_next e fun _ => ⟨m.phase.trans hat.1, m.burst.trans hat.2.1⟩

theorem execWriteByte_failsReady (v : Byte) (s : State) : AnswerFailsReady (execWriteByte v s) := by
  rcases execWriteByte_cases v s with ⟨r, e, -⟩ | ⟨c, hat, -, e⟩
  · exact .of_reply e not_failed_none
  · exact (writeByteBody_moves c v s).failsReady hat e

theorem execWritePage_failsReady (page : List Byte) (s : State) : AnswerFailsReady (execWritePage page s) := by
  rcases execWritePage_cases page s with ⟨-, e⟩ | ⟨-, ⟨r, e, -⟩ | ⟨c, hat, -, e⟩ | ⟨c, hat, -, -, e⟩⟩
  · exact .of_reply e not_failed_none
  · exact .of_reply e not_failed_none
  · exact (setStatus_moves (some 0xFF) s).failsReady hat e
  · exact (writePageBody_moves c page s).failsReady hat e

theorem sdpRun_failsReady (seq : List (Nat × Byte)) (s : State) : AnswerFailsReady (sdpRun seq s) := by
  rcases sdpRun_cases seq s with ⟨-, e⟩ | ⟨-, -, ⟨r, e, -⟩ | ⟨-, -, -, e⟩⟩
  · exact .of_reply e not_failed_none
  · exact .of_reply e not_failed_none
  · exact .of_reply e not_failed_unit

/-- The operations without a Bool in their result never answer false; the other four do so in READY without a burst. -/
theorem exec_failsReady {i : Instr} (hi : i.isMicro = false) (s : State) : AnswerFailsReady (exec i s) := by
  cases i with
  | reset =>
    rcases execReset_cases s with ⟨-, e⟩ | ⟨-, e⟩
    · exact .of_reply e not_failed_none
    · exact .of_reply e not_failed_unit
  | advance n =>
    rcases execAdvance_cases n s with ⟨-, e⟩ | ⟨-, -, e⟩ | ⟨c, -, -, -, e⟩ | ⟨c, -, -, -, e⟩
    · exact .of_reply e not_failed_none
    · exact .of_reply e not_failed_none
    · exact .of_reply e not_failed_none
    · exact .of_reply e not_failed_unit
  | getcount =>
    rcases execGetcount_cases s with ⟨-, e⟩ | ⟨c, -, e⟩
    · exact .of_reply e not_failed_none
    · exact .of_reply e (not_failed_count c)
  | init =>
    rcases execInit_cases s with ⟨-, e⟩ | ⟨-, e⟩
    · exact .of_reply e not_failed_none
    · exact .of_reply e not_failed_unit
  | resetMemory =>
    rcases execResetMemory_cases s with ⟨-, e⟩ | ⟨-, e⟩
    · exact .of_reply e not_failed_none
    · exact .of_reply e not_failed_unit
  | startSeqRead => exact execStartSeqRead_failsReady s
  | nextByte l => exact execNextByte_failsReady l s
  | writeByte v => exact execWriteByte_failsReady v s
  | writePage page => exact execWritePage_failsReady page s
  | lastFailure =>
    rcases execLastFailure_cases s with ⟨b, -, e⟩ | ⟨-, e⟩
    · exact .of_reply e (not_failed_byte b)
    · exact .of_reply e (not_failed_byte _)
  | setWriteDelay d => exact .of_reply (execSetWriteDelay_eq d s) not_failed_unit
  | sdpEnable => exact sdpRun_failsReady s.cfg.sdpEnableSeq s
  | sdpDisable => exact sdpRun_failsReady s.cfg.sdpDisableSeq s
  | _ => cases hi

/-- Between operations the bus is idle where no burst is open, on both backends (rule R29). -/
theorem Inv.busIdle {s : State} (h : Inv s) (hn : s.burst = .none) : s.bus = .idle ∧ s.txstate = .idle := by
  cases hb : s.cfg.backend with
  | parallel =>
    obtain ⟨-, -, -, -, idle⟩ := h.parallel hb
    exact idle
  | i2c =>
    obtain ⟨idle, -, -⟩ := h.i2c hb
    exact idle hn

/-- Settles O51: a failure leaves no burst open, and the invariant, which the operation keeps, then says that the bus is idle. -/
theorem failureLeavesTheBusIdle : Obligations.FailureLeavesTheBusIdle := by
  intro s t i h hi e failed
  obtain ⟨ready, closed⟩ := exec_failsReady hi s t e failed
  exact ⟨ready, closed, (exec_inv hi h t e).busIdle closed⟩

end Sys2Proof

/-! # Proofs for 42_parallel_sequencer.md: the micro-operations, the SDP sequences, and the one way to fail on PARALLEL -/

namespace Sys2Proof

open Machine

/-! ## The micro-operations on PARALLEL -/

theorem onParallel_of_parallel {s : State} (hb : s.cfg.backend = .parallel) (a : Answer) : onParallel s a = a := by
  rcases onParallel_cases s a with ⟨-, e⟩ | ⟨hi, -⟩
  · exact e
  · cases hb.symm.trans hi

/-- A parallel micro-operation answers what it leaves, with its reply. -/
theorem onParallel_returns {s u : State} (hb : s.cfg.backend = .parallel) (v : OpResult) :
    onParallel s (u.returns v) = .next { u with result := some v } :=
  (onParallel_of_parallel hb _).trans (returns_next u v)

/-- Settles O40: on PARALLEL each of the four is its line actions and its event, with an empty reply. -/
theorem parallelLineMicroOperations : Obligations.ParallelLineMicroOperations := by
  intro s hb
  have reply (u : State) := onParallel_returns (u := u) hb .unit
  exact ⟨(reply (pRstPulse s)).trans (by rw [pRstPulse_eq]), (reply (pClkPulse s)).trans (by rw [pClkPulse_eq]),
    (reply (pIdle s)).trans (by rw [pIdle_eq]), (reply (pSelect true s)).trans (by rw [pSelect_true]),
    (reply (pSelect false s)).trans (by rw [pSelect_false])⟩

/-- Settles O41: the read strobe's byte is the device's or a draw, and the write strobe is the device's `DevWrite` at the
hardware counter's address. -/
theorem parallelStrobesReachTheDevice : Obligations.ParallelStrobesReachTheDevice := by
  refine ⟨fun s hb hce hwe hin => ⟨fun hi hh => ?_, fun h => ?_⟩, fun s v hb => ?_⟩
  · refine (onParallel_returns hb _).trans ?_
    rw [pReadStrobe_good hce hwe hin (devOccupied_of_idle hi) hh]
  · refine (onParallel_returns hb _).trans ?_
    rw [pReadStrobe_draw (h.imp_left devOccupied_iff.2)]
  · refine ⟨_, onParallel_returns hb .unit, by rw [pWriteStrobe_eq], fun idle good => ?_, fun idle bad => ?_, fun busy => ?_⟩
    · simp [pWriteStrobe_eq, devWrite_eq, idle, good]
    · simp [pWriteStrobe_eq, devWrite_eq, idle, bad]
    · simp [pWriteStrobe_eq, devWrite_eq, busy]

/-! ## The SDP sequences -/

/-- The latch after a device with one has committed the writes p (rule R64): the enable sequence is looked at first. -/
def committedLatch (c : Config) (p : List Host.Cell) (l : Latch) : Latch :=
  if p = c.sdpEnableSeq then .locked else if p = c.sdpDisableSeq then .unlocked else l

theorem commit_latch {s : State} (hb : s.cfg.backend = .parallel) (hsdp : s.cfg.devSdp = true) :
    (commit s).dev.latch = committedLatch s.cfg s.dev.pending s.dev.latch := by
  simp only [commit, hb, commitParallel, hsdp, Bool.true_and, beq_iff_eq, spoilAll_eq, committedLatch]
  by_cases enable : s.dev.pending = s.cfg.sdpEnableSeq
  · rw [if_pos enable, if_pos enable]; rfl
  by_cases disable : s.dev.pending = s.cfg.sdpDisableSeq
  · rw [if_neg enable, if_pos disable, if_neg enable, if_pos disable]; rfl
  simp only [if_neg enable, if_neg disable]
  split
  · rfl
  split
  · rfl
  · rfl

/-- Whatever was strobed and however the delay ends, the I2C side of the device is as it was. -/
theorem Machine.LoadsIn.delayed_pointer {A : Nat → Prop} {d : Device} {u : State} (n : Nat) (h : LoadsIn A d u.dev) :
    (devDelay n u).dev.ptr = d.ptr ∧ (devDelay n u).dev.addrHi = d.addrHi := by
  obtain ⟨m, l, loaded, -, -⟩ := h
  obtain ⟨m', l', k, e, -⟩ := devDelay_spec n u
  rw [e, loaded]
  exact ⟨rfl, rfl⟩

/-- SDP_RUN past its checks (rules R170, R64), for any sequence within the device: the steps and one DELAY; a device with a latch
that takes the whole sequence sets the latch by it, and changes no other address. -/
theorem sdpRun_ready {s : State} {seq : List (Nat × Byte)} {o : Nat} {b : Byte} (hc : configOk s.cfg = true)
    (hb : s.cfg.backend = .parallel) (hp : s.cfg.sdpPresent = true) (hr : s.phase = .ready) (hn : s.burst = .none)
    (hlt : ∀ p ∈ seq, p.1 < s.cfg.capacity) (hlast : seq.getLast? = some (o, b)) :
    ∃ t, sdpRun seq s = .next t ∧ t =
      { s with lines := t.lines, dbusDir := t.dbusDir, dbusOut := t.dbusOut, ctr := some o, hwctr := o,
               trace := s.trace ++ sdpEvents seq ++ [.delay s.wdelay], draws := t.draws, dev := t.dev,
               result := some .unit } ∧
      t.dev.ptr = s.dev.ptr ∧ t.dev.addrHi = s.dev.addrHi ∧
      (DeviceIdle s → s.cfg.holdOk = true → writeDelayOk s.cfg s.wdelay = true → s.cfg.devSdp = true →
        t.dev.latch = committedLatch s.cfg seq s.dev.latch ∧ DeviceIdle t ∧
        ∀ x, (∀ p ∈ seq, p.1 ≠ x) → memAt t x = memAt s x) := by
  have run : sdpRun seq s = .next { delay s.wdelay (sdpSteps seq s) with result := some .unit } := by
    simp only [sdpRun, (sdpAvailable_iff _).2 ⟨hb, hp⟩, hr, hn, (offsetBeyond_none _ _).2 hlt]
    rfl
  obtain ⟨L, w, out, d, n, steps, loads, -, good⟩ := sdpSteps_spec seq s hlt (configOk_parallel hc hb).1
  simp only [hlast, Option.map_some, Option.some_or, Option.getD_some] at steps
  rw [delay_eq] at run
  generalize sdpSteps seq s = u at run steps
  have dev : u.dev = d := by rw [steps]
  rw [← dev] at loads good
  have cfg : u.cfg = s.cfg := by rw [steps]
  obtain ⟨ptr, addrHi⟩ := loads.delayed_pointer s.wdelay
  refine ⟨_, run, by simp only [steps], ptr, addrHi, fun ⟨busy, nothing⟩ hold wait sdp => ?_⟩
  have loaded : u.dev = { s.dev with pending := seq } := by rw [(good busy hold).2, nothing, List.nil_append]
  have occupied : devOccupied u = true :=
    devOccupied_of_pending (by rw [loaded]; exact List.ne_nil_of_mem (List.mem_of_getLast? hlast))
  obtain ⟨writes, -, -, -⟩ := loads.delayed s.wdelay nothing
  have ended := devDelay_good occupied (cfg ▸ wait)
  refine ⟨?_, ?_, fun x hx => writes.read fun hm => ?_⟩
  · calc (devDelay s.wdelay u).dev.latch
      _ = (commit u).dev.latch := by rw [ended]; rfl
      _ = committedLatch u.cfg u.dev.pending u.dev.latch := commit_latch (cfg ▸ hb) (cfg ▸ sdp)
      _ = committedLatch s.cfg seq s.dev.latch := by rw [cfg, loaded]
  · rw [ended]; exact ⟨rfl, rfl⟩
  · obtain ⟨p, hp, rfl⟩ := List.mem_map.1 hm
    exact hx p hp rfl

/-- Settles O38: SDP_ENABLE runs the enable sequence, which locks. -/
theorem sdpEnableLocksTheLatch : Obligations.SdpEnableLocksTheLatch := by
  intro s o b hc hb hp hr hn hlt hlast
  obtain ⟨t, e, ht, ptr, addrHi, taken⟩ := sdpRun_ready hc hb hp hr hn hlt hlast
  refine ⟨t, e, ht, ptr, addrHi, fun hi hold wait sdp => ?_⟩
  obtain ⟨latch, rest⟩ := taken hi hold wait sdp
  exact ⟨latch.trans (if_pos rfl), rest⟩

/-- Settles O39: SDP_DISABLE runs the disable sequence, which unlocks where the commit does not take it for the enable
sequence. -/
theorem sdpDisableUnlocksTheLatch : Obligations.SdpDisableUnlocksTheLatch := by
  intro s o b hc hb hp hr hn hlt hlast
  obtain ⟨t, e, ht, ptr, addrHi, taken⟩ := sdpRun_ready hc hb hp hr hn hlt hlast
  refine ⟨t, e, ht, ptr, addrHi, fun hi hold wait sdp hne => ?_⟩
  obtain ⟨latch, rest⟩ := taken hi hold wait sdp
  exact ⟨latch.trans ((if_neg hne).trans (if_pos rfl)), rest⟩

/-! ## How an operation fails on PARALLEL -/

/-- The answer, if a next state, is not false. -/
def AnswerSucceeds (a : Answer) : Prop := ∀ t, a = .next t → ¬ Failed t.result

theorem AnswerSucceeds.of_next {a : Answer} {t : State} (e : a = .next t) (h : ¬ Failed t.result) : AnswerSucceeds a :=
  fun u hu => by
    obtain rfl := Host.Outcome.next.inj (e.symm.trans hu)
    exact h

theorem not_failed_true : ¬ Failed (some (.flag true)) := fun hf => nomatch failed_flag.1 hf

theorem onParallel_succeeds {s u : State} {v : OpResult} (h : ¬ Failed (some v)) :
    AnswerSucceeds (onParallel s (u.returns v)) := by
  rcases onParallel_cases s (u.returns v) with ⟨-, e⟩ | ⟨-, e⟩
  · exact .of_next (e.trans (returns_next u v)) h
  · exact .of_next e not_failed_none

theorem onI2c_succeeds_parallel {s : State} (hb : s.cfg.backend = .parallel) (a : Answer) : AnswerSucceeds (onI2c s a) := by
  rcases onI2c_cases s a with ⟨hi, -⟩ | ⟨-, e⟩
  · cases hb.symm.trans hi
  · exact .of_next e not_failed_none

theorem sdpRun_succeeds (seq : List (Nat × Byte)) (s : State) : AnswerSucceeds (sdpRun seq s) := by
  rcases sdpRun_cases seq s with ⟨-, e⟩ | ⟨-, -, ⟨r, e, -⟩ | ⟨-, -, -, e⟩⟩
  · exact .of_next e not_failed_none
  · exact .of_next e not_failed_none
  · exact .of_next e not_failed_unit

/-! The bodies of the contract return true on PARALLEL (rules R158 to R162). -/

theorem execStartSeqRead_succeeds_parallel {s : State} (hb : s.cfg.backend = .parallel) :
    AnswerSucceeds (execStartSeqRead s) := by
  rcases execStartSeqRead_cases s with ⟨r, e, -⟩ | ⟨c, -, -, e⟩
  · exact .of_next e not_failed_none
  · rw [startSeqReadBody_parallel c hb] at e
    exact .of_next e not_failed_true

theorem execNextByte_succeeds_parallel (l : Bool) {s : State} (hb : s.cfg.backend = .parallel) :
    AnswerSucceeds (execNextByte l s) := by
  rcases execNextByte_cases l s with ⟨r, e, -⟩ | ⟨c, -, -, -, -, -, e⟩ | ⟨hi, -⟩
  · exact .of_next e not_failed_none
  · rw [closeNextByte_eq] at e
    exact .of_next e fun hf => nomatch failed_byteFlag.1 hf
  · cases hb.symm.trans hi

theorem execWriteByte_succeeds_parallel (v : Byte) {s : State} (hb : s.cfg.backend = .parallel) :
    AnswerSucceeds (execWriteByte v s) := by
  rcases execWriteByte_cases v s with ⟨r, e, -⟩ | ⟨c, -, -, e⟩
  · exact .of_next e not_failed_none
  · simp only [writeByteBody, hb, writeByteParallel] at e
    exact .of_next e not_failed_true

/-- WRITE_PAGE on PARALLEL fails by the alignment check alone (rules R125, R163). -/
theorem execWritePage_failed_parallel {page : List Byte} {s t : State} (hb : s.cfg.backend = .parallel)
    (h : execWritePage page s = .next t) (hf : Failed t.result) :
    ∃ c, s.ctr = some c ∧ c % 64 ≠ 0 ∧ t = { s with status := some 0xFF, result := some (.flag false) } := by
  have other {u : State} (e : execWritePage page s = .next u) (hu : ¬ Failed u.result) : False :=
    AnswerSucceeds.of_next e hu t h hf
  rcases execWritePage_cases page s with ⟨-, e⟩ | ⟨-, ⟨r, e, -⟩ | ⟨c, ⟨-, -, hctr⟩, ha, e⟩ | ⟨c, -, -, -, e⟩⟩
  · exact (other e not_failed_none).elim
  · exact (other e not_failed_none).elim
  · exact ⟨c, hctr, ha, (Host.Outcome.next.inj (e.symm.trans h)).symm⟩
  · simp only [writePageBody, hb, writePageParallel] at e
    exact (other e not_failed_true).elim

/-- Every instruction but WRITE_PAGE succeeds, faults or is refused on PARALLEL. -/
theorem exec_succeeds_parallel {i : Instr} {s : State} (hb : s.cfg.backend = .parallel) (hi : ∀ page, i ≠ .writePage page) :
    AnswerSucceeds (exec i s) := by
  cases i with
  | reset =>
    rcases execReset_cases s with ⟨-, e⟩ | ⟨-, e⟩
    · exact .of_next e not_failed_none
    · exact .of_next e not_failed_unit
  | advance n =>
    rcases execAdvance_cases n s with ⟨-, e⟩ | ⟨-, -, e⟩ | ⟨c, -, -, -, e⟩ | ⟨c, -, -, -, e⟩
    · exact .of_next e not_failed_none
    · exact .of_next e not_failed_none
    · exact .of_next e not_failed_none
    · exact .of_next e not_failed_unit
  | getcount =>
    rcases execGetcount_cases s with ⟨-, e⟩ | ⟨c, -, e⟩
    · exact .of_next e not_failed_none
    · exact .of_next e (not_failed_count c)
  | init =>
    rcases execInit_cases s with ⟨-, e⟩ | ⟨-, e⟩
    · exact .of_next e not_failed_none
    · exact .of_next e not_failed_unit
  | resetMemory =>
    rcases execResetMemory_cases s with ⟨-, e⟩ | ⟨-, e⟩
    · exact .of_next e not_failed_none
    · exact .of_next e not_failed_unit
  | startSeqRead => exact execStartSeqRead_succeeds_parallel hb
  | nextByte l => exact execNextByte_succeeds_parallel l hb
  | writeByte v => exact execWriteByte_succeeds_parallel v hb
  | writePage page => exact absurd rfl (hi page)
  | lastFailure =>
    rcases execLastFailure_cases s with ⟨b, -, e⟩ | ⟨-, e⟩
    · exact .of_next e (not_failed_byte b)
    · exact .of_next e (not_failed_byte _)
  | setWriteDelay d => exact .of_next (execSetWriteDelay_eq d s) not_failed_unit
  | sdpEnable => exact sdpRun_succeeds s.cfg.sdpEnableSeq s
  | sdpDisable => exact sdpRun_succeeds s.cfg.sdpDisableSeq s
  | pIdle | pClkPulse | pRstPulse | pWriteStrobe v | pSelect l => exact onParallel_succeeds not_failed_unit
  | pReadStrobe => exact onParallel_succeeds (not_failed_byte _)
  | iStart | iRepStart | iStop | iTx role v | iRxAck | iRxNack => exact onI2c_succeeds_parallel hb _
  | delay d => exact .of_next (execDelay_eq d s) not_failed_unit

/-- A false answer on PARALLEL is a misaligned page write's, and its status is all that it changes. -/
theorem exec_failed_parallel {i : Instr} {s t : State} (hb : s.cfg.backend = .parallel) (h : exec i s = .next t)
    (hf : Failed t.result) : t = { s with status := some 0xFF, result := some (.flag false) } ∧
      ∃ page c, i = .writePage page ∧ s.ctr = some c ∧ c % 64 ≠ 0 := by
  by_cases hi : ∃ page, i = .writePage page
  · obtain ⟨page, rfl⟩ := hi
    obtain ⟨c, hctr, ha, ht⟩ := execWritePage_failed_parallel hb h hf
    exact ⟨ht, page, c, rfl, hctr, ha⟩
  · exact absurd hf (exec_succeeds_parallel hb (not_exists.1 hi) t h)

/-- Settles O50: the misaligned page write answers with a flag, so no NEXT_BYTE is false, and it changes nothing but the
status. -/
theorem parallelFailsOnlyMisaligned : Obligations.ParallelFailsOnlyMisaligned := by
  intro s t i hb h
  refine ⟨fun b hf => ?_, fun hf => ?_⟩
  · obtain ⟨rfl, -⟩ := exec_failed_parallel hb h (.inr ⟨b, hf⟩)
    cases hf
  · obtain ⟨rfl, misaligned⟩ := exec_failed_parallel hb h (.inl hf)
    exact ⟨rfl, rfl, rfl, misaligned⟩

end Sys2Proof

/-! # Proofs for 43_i2c_engine.md: the codes in the status, the cooperative bus, and the micro-operations -/

namespace Sys2Proof

open Machine

/-! ## The codes in the status -/

/-- The status holds a code that the mask leaves as it is, as every code of an I2C step is (rule R192). -/
def CodeInStatus (s : State) : Prop := ∃ code, s.status = some code ∧ code &&& s.cfg.statusMask = code

theorem CodeInStatus.ne_sentinel {s : State} (h : CodeInStatus s) (hc : configOk s.cfg = true) : s.status ≠ some 0xFF := by
  obtain ⟨code, hcode, masked⟩ := h
  obtain ⟨-, -, -, -, -, -, hm⟩ := masked_of_configOk hc
  exact fun e => masked_ne_sentinel masked hm (Option.some.inj (hcode.symm.trans e))

theorem Machine.BusMoves.codeInStatus {s t : State} (h : BusMoves s t) : CodeInStatus t := by
  rw [CodeInStatus, h.cfg]
  exact h.code

/-- Actions that leave the status alone leave its code there. -/
theorem CodeInStatus.moved {s t : State} (h : CodeInStatus s) (m : Moves s t) (hs : t.status = s.status) :
    CodeInStatus t := by
  rw [CodeInStatus, m.cfg, hs]
  exact h

theorem CodeInStatus.stopped {s : State} (h : CodeInStatus s) : CodeInStatus (iStop s) :=
  h.moved (iStop_moves s) (iStop_quiet s).status

theorem stepTx_code (role : Role) (v : Byte) (s : State) : CodeInStatus (stepTx role v s).2 :=
  (stepTx_moves role v s).1.codeInStatus

theorem thenStep_code {p : Bool × State} {f : State → Bool × State} (hp : CodeInStatus p.2)
    (hf : ∀ t, CodeInStatus t → CodeInStatus (f t).2) : CodeInStatus (thenStep p f).2 := by
  rcases thenStep_cases p f with ⟨-, e⟩ | ⟨-, e⟩
  · rw [e]; exact hp
  · rw [e]; exact hf _ hp

theorem frame_code (c : Nat) (s : State) : CodeInStatus (frame c s).2 :=
  thenStep_code (thenStep_code (thenStep_code (stepStart_moves s).1.codeInStatus fun _ _ => stepTx_code _ _ _)
    fun _ _ => stepTx_code _ _ _) fun _ _ => stepTx_code _ _ _

theorem readFrame_code (c : Nat) (s : State) : CodeInStatus (readFrame c s).2 :=
  thenStep_code (thenStep_code (frame_code c s) fun t _ => (stepRepStart_moves t).1.codeInStatus) fun _ _ => stepTx_code _ _ _

theorem startSeqReadI2c_code (c : Nat) (s : State) : CodeInStatus (startSeqReadI2c c s).2 := by
  unfold startSeqReadI2c
  by_cases ok : (readFrame c s).1 = true
  · simp only [ok, if_true]; exact readFrame_code c s
  · simp only [if_neg ok]; exact (readFrame_code c s).stopped

theorem endNextByte_code (exp : Byte) {f : State → State} {b code : Byte} {s : State}
    (masked : code &&& s.cfg.statusMask = code) (hf : ∀ t, CodeInStatus t → CodeInStatus (f t)) :
    CodeInStatus (endNextByte exp f (b, code, s)).2.2 := by
  rcases endNextByte_cases exp f b code s with ⟨-, e⟩ | ⟨-, e⟩
  · rw [e]; exact hf _ ⟨code, rfl, masked⟩
  · rw [e]; exact ⟨code, rfl, masked⟩

theorem nextByteI2c_code (l : Bool) (s : State) : CodeInStatus (nextByteI2c l s).2.2 := by
  cases l with
  | false =>
    obtain ⟨raw, n, b, m, e, -, -, -, -⟩ := iRxAck_spec s
    simp only [nextByteI2c, e, Bool.false_eq_true, if_false]
    exact endNextByte_code _ (masked_idem _ _) fun _ => id
  | true =>
    obtain ⟨raw, n, b, m, e, -, -, -, -⟩ := iRxNack_spec s
    simp only [nextByteI2c, e, if_true]
    exact endNextByte_code _ (masked_idem _ _) fun _ => CodeInStatus.stopped

theorem sendBytes_code (count : Bool) (bytes : List Byte) : ∀ s, CodeInStatus s → CodeInStatus (sendBytes count bytes s).2 := by
  induction bytes with
  | nil => exact fun _ h => h
  | cons b l ih =>
    refine fun s _ => thenStep_code (stepTx_code .data b s) fun t h => ih _ ?_
    rw [counted_eq]
    exact h

theorem writeTransaction_code (count : Bool) (c : Nat) (bytes : List Byte) (s : State) :
    CodeInStatus (writeTransaction count c bytes s).2 := by
  have sent := sendBytes_code count bytes _ (frame_code c s)
  unfold writeTransaction
  by_cases framed : (frame c s).1 = true
  · simp only [framed, if_true]
    by_cases ok : (sendBytes count bytes (frame c s).2).1 = true
    · simp only [ok, if_true]
      exact sent.stopped.moved (delay_moves _ _) (delay_quiet _ _).status
    · simp only [if_neg ok, devAbort_eq]
      exact sent.stopped
  · simp only [if_neg framed]
    exact (frame_code c s).stopped

/-! What the writers of the status leave there on I2C: what stood there, where a check stopped them, or a code. -/

theorem execStartSeqRead_code {s t : State} (hb : s.cfg.backend = .i2c) (h : execStartSeqRead s = .next t) :
    t.status = s.status ∨ CodeInStatus t := by
  rcases execStartSeqRead_cases s with ⟨r, e, -⟩ | ⟨c, -, -, e⟩
  · obtain rfl := Host.Outcome.next.inj (e.symm.trans h)
    exact .inl rfl
  · simp only [startSeqReadBody, hb] at e
    obtain rfl := Host.Outcome.next.inj (e.symm.trans h)
    exact .inr (startSeqReadI2c_code c s)

theorem execNextByte_code {l : Bool} {s t : State} (hb : s.cfg.backend = .i2c) (h : execNextByte l s = .next t) :
    t.status = s.status ∨ CodeInStatus t := by
  rcases execNextByte_cases l s with ⟨r, e, -⟩ | ⟨c, hp, -⟩ | ⟨-, -, -, e⟩
  · obtain rfl := Host.Outcome.next.inj (e.symm.trans h)
    exact .inl rfl
  · cases hb.symm.trans hp
  · rw [closeNextByte_eq] at e
    obtain rfl := Host.Outcome.next.inj (e.symm.trans h)
    exact .inr (nextByteI2c_code l s)

theorem execWriteByte_code {v : Byte} {s t : State} (hb : s.cfg.backend = .i2c) (h : execWriteByte v s = .next t) :
    t.status = s.status ∨ CodeInStatus t := by
  rcases execWriteByte_cases v s with ⟨r, e, -⟩ | ⟨c, -, -, e⟩
  · obtain rfl := Host.Outcome.next.inj (e.symm.trans h)
    exact .inl rfl
  · simp only [writeByteBody, hb] at e
    obtain rfl := Host.Outcome.next.inj (e.symm.trans h)
    exact .inr (writeTransaction_code false c [v] s)

theorem execWritePage_code {page : List Byte} {s t : State} (hb : s.cfg.backend = .i2c) (h : execWritePage page s = .next t) :
    t.status = s.status ∨ CodeInStatus t ∨ ∃ c, s.ctr = some c ∧ c % 64 ≠ 0 ∧ t.dev = s.dev ∧ t.trace = s.trace := by
  rcases execWritePage_cases page s with ⟨-, e⟩ | ⟨-, ⟨r, e, -⟩ | ⟨c, ⟨-, -, hctr⟩, ha, e⟩ | ⟨c, -, -, -, e⟩⟩
  · obtain rfl := Host.Outcome.next.inj (e.symm.trans h)
    exact .inl rfl
  · obtain rfl := Host.Outcome.next.inj (e.symm.trans h)
    exact .inl rfl
  · obtain rfl := Host.Outcome.next.inj (e.symm.trans h)
    exact .inr (.inr ⟨c, hctr, ha, rfl, rfl⟩)
  · simp only [writePageBody, hb] at e
    obtain rfl := Host.Outcome.next.inj (e.symm.trans h)
    exact .inr (.inl (writeTransaction_code true c page s))

/-- Every instruction on I2C: the status is as it was, or it holds a code, or the page write was misaligned. -/
theorem exec_code {i : Instr} {s t : State} (hb : s.cfg.backend = .i2c) (h : exec i s = .next t) :
    t.status = s.status ∨ CodeInStatus t ∨
      ∃ page c, i = .writePage page ∧ s.ctr = some c ∧ c % 64 ≠ 0 ∧ t.dev = s.dev ∧ t.trace = s.trace := by
  by_cases hw : .status ∈ i.writes
  · cases i with
    | startSeqRead => exact (execStartSeqRead_code hb h).imp_right .inl
    | nextByte l => exact (execNextByte_code hb h).imp_right .inl
    | writeByte v => exact (execWriteByte_code hb h).imp_right .inl
    | writePage page =>
      exact (execWritePage_code hb h).imp_right fun k => k.imp_right fun ⟨c, misaligned⟩ => ⟨page, c, rfl, misaligned⟩
    | _ => simp [Instr.writes] at hw
  · exact .inl ((exec_keepsOthers i s t h).status hw)

theorem exec_cfg {i : Instr} {s t : State} (h : exec i s = .next t) : t.cfg = s.cfg := by
  rcases exec_answers i s with ⟨m, -, e⟩ | ⟨u, hu, e⟩
  · obtain rfl := Host.Outcome.next.inj (e.symm.trans h)
    rfl
  · obtain rfl := Host.Outcome.next.inj (e.symm.trans h)
    exact hu.cfg

/-- Settles O52: a code in the status has the cleared bit of the mask clear, so it is not the sentinel. -/
theorem sentinelIsNoBusCode : Obligations.SentinelIsNoBusCode := by
  intro s t i hc hb h sentinel
  rcases exec_code hb h with kept | code | misaligned
  · exact .inl (kept.symm.trans sentinel)
  · exact absurd sentinel (code.ne_sentinel (exec_cfg h ▸ hc))
  · exact .inr misaligned

/-! ## The cooperative bus -/

/-- Data bytes with the expected answers to any device: the last one's code is in the status. -/
theorem sendBytes_acknowledged (count : Bool) {bytes : List Byte} {s : State} (hne : bytes ≠ []) (hc : configOk s.cfg = true)
    (h : AnswersExpected bytes.length s.oracle) :
    ∃ u, sendBytes count bytes s = (true, u) ∧ u.status = some s.cfg.expTxAck := by
  obtain ⟨pre, b, rfl⟩ := (List.eq_nil_or_concat' bytes).resolve_left hne
  rw [List.length_append] at h
  obtain ⟨x, y, d, n, sent, -⟩ := sendBytes_answered count pre s hc (h.mono (Nat.le_add_right _ _))
  rw [sendBytes_append, sent, thenStep_true, sendBytes, stepTx_expected .data b (by exact hc) (by exact h.after),
    thenStep_true, counted_eq]
  exact ⟨_, rfl, rfl⟩

/-- A write transaction with the expected answers succeeds whatever the device is doing (rules R206, R207). -/
theorem writeTransaction_acknowledged (count : Bool) {c : Nat} {bytes : List Byte} {s : State} (hne : bytes ≠ [])
    (hc : configOk s.cfg = true) (hlt : c < s.cfg.capacity) (h16 : c < 65536)
    (h : AnswersExpected (4 + bytes.length) s.oracle) :
    ∃ u, writeTransaction count c bytes s = (true, u) ∧ u.status = some s.cfg.expTxAck := by
  obtain ⟨v, sent, status⟩ := sendBytes_acknowledged count hne (s := (frame c s).2)
    ((frame_moves c s).cfg ▸ hc) (by rw [frame_expected hc hlt h16 (h.mono (by omega))]; exact h.after)
  rw [(frame_moves c s).cfg] at status
  refine ⟨delay s.wdelay (iStop v), ?_, ?_⟩
  · have framed : (frame c s).1 = true := by rw [frame_expected hc hlt h16 (h.mono (by omega))]
    simp only [writeTransaction, framed, sent, if_true]
  · rw [(delay_quiet _ _).status, (iStop_quiet v).status, status]

/-- A read step with the expected code ends a NEXT_BYTE with true and that code (rule R205). -/
theorem endNextByte_matched {exp : Byte} {f : State → State} {q : Byte × Byte × State} (h : q.2.1 = exp)
    (hf : ∀ t, (f t).status = t.status) : ∃ b u, endNextByte exp f q = (b, true, u) ∧ u.status = some exp := by
  obtain ⟨b, code, s⟩ := q
  obtain rfl : code = exp := h
  rcases endNextByte_cases code f b code s with ⟨-, e⟩ | ⟨hne, -⟩
  · exact ⟨b, _, e, hf _⟩
  · exact absurd rfl hne

/-- NEXT_BYTE's body with the expected answer succeeds whatever the device is doing. -/
theorem nextByteI2c_answered (l : Bool) {s : State} (hc : configOk s.cfg = true) (h : AnswersExpected 1 s.oracle) :
    ∃ b u, nextByteI2c l s = (b, true, u) ∧ u.status = some (if l then s.cfg.expRxNack else s.cfg.expRxAck) := by
  obtain ⟨-, -, -, ack, nack, -, -⟩ := masked_of_configOk hc
  cases l with
  | false => exact endNextByte_matched (by rw [iRxAck, busStep_expected _ h ack]) fun _ => rfl
  | true => exact endNextByte_matched (by rw [iRxNack, busStep_expected _ h nack]) fun t => (iStop_quiet t).status

/-- Settles O53: each operation's steps get their expected answers, whatever the device is doing. -/
theorem cooperativeBusSucceeds : Obligations.CooperativeBusSucceeds := by
  intro s hc hb hbus
  have answers := answersExpected_of_cooperative hbus
  refine ⟨fun c hat hlt => ?_, fun hr ho l => ?_⟩
  · have h16 := lt_65536_of_i2c hc hb hlt
    refine ⟨?_, fun v => ?_, fun page hp ha => ?_⟩
    · have e := exec_startSeqRead_i2c hat hlt hb
      rw [startSeqReadI2c_expected hc hlt h16 (answers 6)] at e
      exact ⟨_, e, rfl, rfl⟩
    · have e := exec_writeByte_i2c v hat hlt hb
      obtain ⟨u, written, status⟩ := writeTransaction_acknowledged false (List.cons_ne_nil v []) hc hlt h16 (answers _)
      rw [written] at e
      exact ⟨_, e, rfl, status⟩
    · have e := exec_writePage_i2c hat hlt ha hp hb
      obtain ⟨u, written, status⟩ := writeTransaction_acknowledged true (bytes := page)
        (List.ne_nil_of_length_pos (by omega)) hc hlt h16 (answers _)
      rw [written] at e
      exact ⟨_, e, rfl, status⟩
  · have e := exec_nextByte_i2c l hr ho hb
    obtain ⟨b, u, read, status⟩ := nextByteI2c_answered l hc (answers 1)
    rw [read, closeNextByte_eq] at e
    exact ⟨_, b, e, rfl, status⟩

/-! ## The micro-operations on I2C -/

/-- An I2C micro-operation answers what it leaves, with its reply. -/
theorem onI2c_returns {s u : State} (hb : s.cfg.backend = .i2c) (v : OpResult) :
    onI2c s (u.returns v) = .next { u with result := some v } := by
  rcases onI2c_cases s (u.returns v) with ⟨-, e⟩ | ⟨hp, -⟩
  · exact e
  · cases hb.symm.trans hp

theorem oracleAfter_scripted {o : BusOracle} {r : Option Byte} {l : List (Option Byte)} (h : o.script = r :: l) :
    oracleAfter 1 o = { o with script := l } := by
  rw [oracleAfter, h]
  rfl

/-- Settles O42: START and repeated START are a bus step and its event, STOP the device's side and its event. -/
theorem i2cConditionMicroOperations : Obligations.I2cConditionMicroOperations := by
  refine fun s hb => ⟨?_, ?_, ?_⟩
  · obtain ⟨raw, n, step, -, scripted⟩ := busStep_spec s.cfg.expStart .start (s.setBus .held)
    refine ⟨raw, oracleAfter 1 s.oracle, n, (onI2c_returns hb _).trans ?_, fun r l h => ?_⟩
    · rw [iStart, step]; rfl
    · obtain ⟨rfl, rfl⟩ := scripted r l h
      exact ⟨rfl, oracleAfter_scripted h, rfl⟩
  · obtain ⟨raw, n, step, -, scripted⟩ := busStep_spec s.cfg.expRepStart .repeatedStart s
    refine ⟨raw, oracleAfter 1 s.oracle, n, (onI2c_returns hb _).trans ?_, fun r l h => ?_⟩
    · rw [iRepStart, step]; rfl
    · obtain ⟨rfl, rfl⟩ := scripted r l h
      exact ⟨rfl, oracleAfter_scripted h, rfl⟩
  · exact (onI2c_returns hb .unit).trans (by rw [iStop_eq])

/-! ### What the device makes of a byte -/

theorem devTx_slaveAddress {role : Role} (h : role = .slaW ∨ role = .slaR) (v : Byte) (acked : Bool) (s : State) :
    devTx role v acked s = s := by
  rw [devTx_eq]
  rcases h with rfl | rfl
  · rfl
  · rfl

/-- A byte that the device does not acknowledge changes nothing of it, but for a data byte to a busy one (log 12, log 32). -/
theorem devTx_refused {role : Role} {s : State} (h : role = .data → s.dev.busy = false) (v : Byte) :
    devTx role v false s = s := by
  rw [devTx_eq]
  cases role with
  | slaW | addrHi | addrLo | slaR => rfl
  | data => simp only [h rfl, Bool.false_eq_true, if_false]

theorem devTx_address {role : Role} (h : role ≠ .data) (v : Byte) (acked : Bool) (s : State) :
    (devTx role v acked s).dev.mem = s.dev.mem ∧ (devTx role v acked s).dev.pending = s.dev.pending ∧
      (devTx role v acked s).dev.busy = s.dev.busy := by
  rw [devTx_eq]
  cases role with
  | slaW | slaR => exact ⟨rfl, rfl, rfl⟩
  | addrHi | addrLo => cases acked <;> exact ⟨rfl, rfl, rfl⟩
  | data => exact absurd rfl h

/-- A data byte to a busy device is lost, and a free value with it (rule R65; log 32). -/
theorem devTx_data_busy {s : State} (h : s.dev.busy = true) (v : Byte) (acked : Bool) : devTx .data v acked s =
    { s with dev := { s.dev with mem := memWrite s.dev.mem s.dev.ptr (Config.freeByte s.draws), ptr := nextInPage s.dev.ptr },
             draws := s.draws + 1 } := by
  rw [devTx_eq]
  exact if_pos h

theorem devTx_data_idle {s : State} (h : s.dev.busy = false) (v : Byte) : devTx .data v true s =
    { s with dev := { s.dev with pending := s.dev.pending ++ [(s.dev.ptr, v)], ptr := nextInPage s.dev.ptr } } := by
  simp only [devTx_eq, h, Bool.false_eq_true, if_false, if_true]

/-- The statement's code and state of each role are the model's. -/
theorem role_table {s : State} {p : Role × Byte × TxState}
    (h : p ∈ [(Role.slaW, s.cfg.expSlaWAck, TxState.slaveAddrAck), (.addrHi, s.cfg.expTxAck, .hiAddrByteAck),
      (.addrLo, s.cfg.expTxAck, .loAddrByteAck), (.data, s.cfg.expTxAck, .dataByteAck),
      (.slaR, s.cfg.expSlaRAck, .slaveAddrReadAck)]) : p = (p.1, txExpected s.cfg p.1, txNamed p.1) := by
  simp only [List.mem_cons, List.not_mem_nil, or_false] at h
  rcases h with rfl | rfl | rfl | rfl | rfl <;> rfl

/-- Settles O43: the bus step of the role, its event, and what the device makes of the byte. -/
theorem transmitChecksTheRolesCode : Obligations.TransmitChecksTheRolesCode := by
  intro s v hb p hp
  rw [role_table hp]
  generalize p.1 = role
  obtain ⟨raw, n, x, tx, hx, hn, scripted⟩ := iTx_spec role v s
  have e : exec (.iTx role v) s = _ := onI2c_returns hb _
  rw [tx, hx] at e
  have acked {c : Byte} (h : c = txExpected s.cfg role) : (c == txExpected s.cfg role) = true := beq_iff_eq.2 h
  refine ⟨raw, _, e, rfl, fun r l h => ⟨(scripted r l h).1, oracleAfter_scripted h⟩, fun slave => ?_, fun refused idle => ?_,
    fun address => ?_, fun hi ack => ?_, fun lo ack => ?_, fun data idle ack => ?_, fun data busy => ?_⟩
  · simp only [devTx_slaveAddress slave]
  · simp only [beq_eq_false_iff_ne.2 refused]
    rw [devTx_refused (by exact idle)]
  · exact devTx_address address v _ _
  · obtain rfl : role = .addrHi := hi
    simp only [acked ack, devTx_eq, if_true]
  · obtain rfl : role = .addrLo := lo
    simp only [acked ack, devTx_eq, if_true]
  · obtain rfl : role = .data := data
    simp only [acked ack]
    rw [devTx_data_idle (by exact idle)]
    rfl
  · obtain rfl : role = .data := data
    rw [devTx_data_busy (by exact busy)]
    refine ⟨rfl, busy, rfl, ⟨n, hn, ?_⟩, fun x hx => ?_⟩
    · exact (memRead_write _ _ _ _).trans (if_pos rfl)
    · exact (memRead_write _ _ _ _).trans (if_neg hx)

/-- The byte of a read step that expects exp, in the statement's terms: the device's where the code matched and the device is idle,
a free one otherwise. -/
theorem receivedByte {s : State} {raw b exp : Byte} {n m : Nat} (hn : s.draws ≤ n)
    (scripted : ∀ r l, s.oracle.script = some r :: l → raw = r ∧ n = s.draws)
    (matched : raw &&& s.cfg.statusMask = exp → devOccupied s = false → b = memRead s.dev.mem s.dev.ptr ∧ m = n)
    (free : raw &&& s.cfg.statusMask ≠ exp ∨ devOccupied s = true → b = Config.freeByte n ∧ m = n + 1) :
    (raw &&& s.cfg.statusMask = exp → DeviceIdle s → b = memAt s s.dev.ptr) ∧
      (raw &&& s.cfg.statusMask ≠ exp ∨ ¬ DeviceIdle s → ∃ k, s.draws ≤ k ∧ b = Config.freeByte k) ∧
      ∀ r l, s.oracle.script = some r :: l → raw = r ∧ oracleAfter 1 s.oracle = { s.oracle with script := l } :=
  ⟨fun h idle => (matched h (devOccupied_of_idle idle)).1, fun h => ⟨n, hn, (free (h.imp_right devOccupied_iff.2)).1⟩,
    fun r l h => ⟨(scripted r l h).1, oracleAfter_scripted h⟩⟩

/-- Settles O44: both are a bus step, the device's read step and the event. -/
theorem receiveReturnsByteAndCode : Obligations.ReceiveReturnsByteAndCode := by
  refine fun s hb => ⟨?_, ?_⟩
  · obtain ⟨raw, n, b, m, rx, hn, scripted, matched, free⟩ := iRxAck_spec s
    have e : exec .iRxAck s = _ := onI2c_returns hb _
    rw [rx] at e
    exact ⟨raw, b, _, e, rfl, receivedByte hn scripted matched free⟩
  · obtain ⟨raw, n, b, m, rx, hn, scripted, matched, free⟩ := iRxNack_spec s
    have e : exec .iRxNack s = _ := onI2c_returns hb _
    rw [rx] at e
    exact ⟨raw, b, _, e, rfl, receivedByte hn scripted matched free⟩

end Sys2Proof

/-! # Proofs for 44_host_interface.md: the dump, `upblock` at a misaligned counter, and the commands without a meaning -/

namespace Sys2Proof

open Machine

/-- Settles O58: from the invariant the state is readable, and what a dump of a readable state leaves says the rest. -/
theorem dumpReturnsTheMemory : Obligations.DumpReturnsTheMemory := by
  intro s c n hinv hat hpos room hbus hi hh
  obtain ⟨hr, hn, hctr⟩ := hat
  have h : Readable s c := ⟨hinv, hr, hctr, hi, hh, hbus⟩
  obtain ⟨t, et, ht⟩ := h.dump hn hpos room
  rw [et]
  refine ⟨?_, rfl, ht.ctr, ht.burst, ht.mem⟩
  calc (List.range' c n).map (memAt s)
    _ = ((List.range n).map (c + ·)).map (memAt s) := by rw [List.range'_eq_map_range]
    _ = (List.range n).map (fun i => memAt s (c + i)) := List.map_map

/-! ## `upblock 64` -/

/-- The line asks for the page upload under every configuration: rule R243 gives `upblock` no range. -/
theorem parseLine_upblock64 (c : Config) :
    parseLine c ['u', 'p', 'b', 'l', 'o', 'c', 'k', ' ', '6', '4', '\r'] = some (.upblock 64) := by
  have parsed : ((lineBody ['u', 'p', 'b', 'l', 'o', 'c', 'k', ' ', '6', '4', '\r']).map (tokensFrom [])).bind
      commandOfTokens = some (.upblock 64) := by decide
  rw [parseLine, parsed]
  rfl

theorem runLine_upblock64 (raw : List Byte) (s : State) :
    runLine ['u', 'p', 'b', 'l', 'o', 'c', 'k', ' ', '6', '4', '\r'] raw s = upblock64 raw s := by
  rw [runLine, parseLine_upblock64]
  rfl

/-- The reply to a failure is the stored status, which reading it leaves as it was (rules R132, R251). -/
theorem replyFailed_of_status {s : State} {b : Byte} (h : s.status = some b) :
    replyFailed s = ({ s with result := some (.byte b) }, .failed b) := by
  obtain ⟨-, reads, -⟩ := lastFailureReturnsTheStatus
  rw [replyFailed, issue_of_next (reads s b h)]

/-- `upblock 64` whose page write fails replies with the status of the failure (rules R248, R251). -/
theorem upblock64_of_failed {s t : State} {raw : List Byte} {b : Byte} (hraw : raw.length = 64)
    (h : exec (.writePage raw) s = .next t) (hfail : t.result = some (.flag false)) (hstatus : t.status = some b) :
    upblock64 raw s = ⟨{ t with result := some (.byte b) }, .nothing, .failed b⟩ := by
  have whole : raw.take pageSize = raw := List.take_of_length_le (Nat.le_of_eq hraw)
  have enough : ¬ raw.length < pageSize := Nat.not_lt_of_le (Nat.le_of_eq hraw.symm)
  simp only [upblock64, if_neg enough, whole, issue_of_next h, hfail, replyFailed_of_status hstatus]

/-- The sentinel in uppercase hexadecimal (rule R251). -/
theorem replyText_failed_sentinel : replyText (.failed sentinel) =
    ['F', 'a', 'i', 'l', 'e', 'd', ':', ' ', 'F', 'F', '\r', '\n'] := by decide

/-- Settles O59: the page write fails with 0xFF and does nothing else, and the reply is that status. -/
theorem misalignedUpblockRepliesFailed : Obligations.MisalignedUpblockRepliesFailed := by
  intro s c raw hat ha hraw
  have fails := misalignedPageWriteFails s c raw hat hraw ha
  obtain ⟨-, -, hctr⟩ := hat
  rw [runLine_upblock64, upblock64_of_failed hraw fails rfl rfl]
  exact ⟨replyText_failed_sentinel, hctr, rfl, rfl⟩

/-! ## Commands without a meaning -/

/-- A refused command sets the mark and nothing else (rule R281). -/
theorem refuseCommand_state (s : State) : (refuseCommand s).state = marked s (.refused .command) := rfl

/-- Settles O60: each of these commands is refuseCommand, and debug and echo of 0 do nothing. -/
theorem meaninglessCommandsAreRefused : Obligations.MeaninglessCommandsAreRefused := by
  intro s raw n pattern
  refine ⟨refuseCommand_state s, refuseCommand_state s, fun hn => ?upblock, fun hn => ⟨?debug, ?echo⟩, rfl, rfl⟩
  case upblock => rw [runCommand, if_neg (by exact hn), refuseCommand_state]
  case debug => rw [runCommand, if_neg hn, refuseCommand_state]
  case echo => rw [runCommand, if_neg hn, refuseCommand_state]

end Sys2Proof

/-! # Proofs for 60_exceptions.md: every instruction answers, and one without a result has set its mark alone -/

namespace Sys2Proof

open Machine

/-- Settles O46: a mark or a reply is a next state. -/
theorem everyInstructionAnswers : Obligations.EveryInstructionAnswers := by
  intro s i
  rcases exec_answers i s with ⟨m, -, e⟩ | ⟨t, -, e⟩
  · exact ⟨marked s m, e⟩
  · exact ⟨t, e⟩

/-- Settles O47: an operation that sent its reply has a result, so one without has set its mark and nothing else. -/
theorem faultsAndRefusalsArePrecise : Obligations.FaultsAndRefusalsArePrecise := by
  intro s t i h hnone
  rcases exec_answers i s with ⟨m, hm, e⟩ | ⟨u, hu, e⟩
  · obtain rfl := Host.Outcome.next.inj (e.symm.trans h)
    exact ⟨rfl, hm⟩
  · obtain rfl := Host.Outcome.next.inj (e.symm.trans h)
    exact absurd hnone hu.result

end Sys2Proof

/-! # Proofs for 70_reset_and_hazards.md: the state after boot -/

namespace Sys2Proof

open Machine

/-- The boot order of rule R301, run one operation after the other. -/
theorem boot_of_next {s t u v : State} (init : exec .init s = .next t) (resetMemory : exec .resetMemory t = .next u)
    (reset : exec .reset u = .next v) : boot s = v := by
  rw [boot, issue_of_next init, issue_of_next resetMemory, issue_of_next reset]

/-- The boot of a PARALLEL block: INIT and RESET_MEMORY each idle the lines, and RESET ends with its pulse (rule R301). -/
theorem boot_parallel {s : State} (hu : s.phase = .uninit) (hb : s.cfg.backend = .parallel) : boot s = { s with
    phase := .ready, ctr := some 0, hwctr := 0, burst := .none, dbusDir := .input, result := some .unit,
    lines := ⟨.deasserted, .deasserted, .deasserted, .deasserted, .deasserted⟩,
    trace := s.trace ++ [.pIdle, .pIdle, .pRstPulse] } := by
  obtain ⟨-, -, init, -⟩ := initMakesTheBlockReady
  obtain ⟨-, -, resetMemory, -⟩ := resetMemoryIdlesLinesAndBus
  obtain ⟨-, -, reset, -⟩ := resetSetsTheCounterToZero
  rw [boot_of_next (init s hu hb) (resetMemory _ rfl hb) (reset _ rfl hb)]
  simp only [List.append_assoc, List.cons_append, List.nil_append]

/-- The boot of an I2C block: RESET_MEMORY's STOP is all that the bus sees of it (rule R301). -/
theorem boot_i2c {s : State} (hu : s.phase = .uninit) (hb : s.cfg.backend = .i2c) (hp : s.dev.pending = []) :
    boot s = { s with
      phase := .ready, ctr := some 0, burst := .none, bus := .idle, txstate := .idle, result := some .unit,
      trace := s.trace ++ [.iStop .stop] } := by
  obtain ⟨-, -, -, init⟩ := initMakesTheBlockReady
  obtain ⟨-, -, -, resetMemory⟩ := resetMemoryIdlesLinesAndBus
  obtain ⟨-, -, -, reset⟩ := resetSetsTheCounterToZero
  exact boot_of_next (init s hu hb) (resetMemory _ rfl hb hp) (reset _ rfl hb)

/-- Settles O57: power-on is uninitialised with nothing pending, and what the boot does not set keeps its power-on value. -/
theorem bootState : Obligations.BootState := by
  intro c m n
  cases hb : c.backend with
  | parallel =>
    rw [boot_parallel (s := State.powerOn c m n) rfl hb]
    exact ⟨rfl, rfl, rfl, rfl, rfl, rfl, rfl, rfl, fun _ => ⟨rfl, ⟨rfl, rfl⟩, rfl⟩, nofun⟩
  | i2c =>
    rw [boot_i2c (s := State.powerOn c m n) rfl hb rfl]
    exact ⟨rfl, rfl, rfl, rfl, rfl, rfl, rfl, rfl, nofun, fun _ => rfl⟩

end Sys2Proof
